-- ==== Sys2Proof/Word.lean ====
section
/-! DEFINITION. The word types of the execution core: nibbles, bytes, bus addresses and the two program counters. -/

namespace Sys2Proof

/-- A 4-bit value of variant A (00_scope.md R7). -/
abbrev Nibble := BitVec 4

/-- A memory, status or port cell (10_state.md R50). -/
abbrev Byte := BitVec 8

/-- A Bus address, `BUS_W = 16` bits (00_scope.md R9, 20_memory.md R71). -/
abbrev Addr := BitVec 16

/-- A program-counter value of variant A, `A_PCW = 12` bits (10_state.md R28). -/
abbrev PcA := BitVec 12

/-- A program-counter value of variant B, `B_PCW = 14` bits (10_state.md R28). -/
abbrev PcB := BitVec 14

end Sys2Proof
end

