-- ==== Sys2Proof/Config.lean ====
section
/-! DEFINITION. The machine configuration (00_scope.md R10, R12), which is a parameter of the machine and never
changes while it runs, and the free values the spec leaves to foreign devices and to an open parameter. -/

namespace Sys2Proof

/-- The CPU variant (00_scope.md R3). -/
inductive Variant where
  | A
  | B
  deriving DecidableEq, Repr

/-- The kind tag of a memory-list entry (10_state.md R52, 20_memory.md R75). -/
inductive DevKind where
  | rom
  | ram
  deriving DecidableEq, Repr

/-- An Enabler (10_state.md R60). The byte register of `RegEq` is `CL` or a byte owned by a foreign device. -/
inductive Enabler where
  | always
  | never
  | flag (latch : Nat) (inv : Bool)
  | regEqCL (value : Byte)
  | regEqForeign (reg : Nat) (value : Byte)
  deriving DecidableEq, Repr

/-- The gated address decoder of a list entry: the window `[start, last]` and the Enabler (20_memory.md R80). -/
structure Gate where
  start : Addr
  last : Addr
  enabler : Enabler
  deriving DecidableEq, Repr

/-- What a memory-list entry is: a MemoryDevice (10_state.md R52, with the image that `Load` copies, empty for none),
a foreign device (20_memory.md R96), or the register window of the mapper with that number (20_memory.md R101). -/
inductive MemBody where
  | memory (readOnly hasStatus : Bool) (image : List Byte)
  | foreign
  | mapperWindow (mapper : Nat)
  deriving DecidableEq, Repr

/-- An entry of the memory list (00_scope.md R12). Its position in the list is its device number. -/
structure MemEntry where
  kind : DevKind
  gate : Gate
  body : MemBody
  deriving DecidableEq, Repr

/-- What a port-list entry is (00_scope.md R12). -/
inductive PortBody where
  | foreign
  | mapperWindow (mapper : Nat)
  deriving DecidableEq, Repr

/-- An entry of the port list (00_scope.md R12). -/
structure PortEntry where
  gate : Gate
  body : PortBody
  deriving DecidableEq, Repr

/-- An address-bit rewrite slot of a mapper (10_state.md R57). -/
structure Slot where
  src : Fin 8
  dst : Fin 16
  deriving DecidableEq, Repr

/-- The configuration of a mapper (10_state.md R57): slot `i` is the `i`-th element of `slots`, latch slot `j` the
`j`-th of `lat`; a missing or `none` element is an absent slot. -/
structure MapperCfg where
  sourceBit : Nat
  slots : List (Option Slot)
  lat : List (Option Nat)
  deriving DecidableEq, Repr

/-- `WRITE_ERR_POLICY` (00_scope.md R10). -/
inductive WritePolicy where
  | fault
  | ignore
  deriving DecidableEq, Repr

/-- The two port kinds of `A_PORT_ADDR` (42_a_pair_and_ram.md R245). -/
inductive PortKind where
  | romPort
  | ramPort
  deriving DecidableEq, Repr

/-- The argument `A_PORT_ADDR` (00_scope.md R10, 42_a_pair_and_ram.md R245), as plain data: left open, so that nothing
is known of it; the function R245 suggests; or any function at all, as its two tables of port addresses, one for each
kind, whose entry `CL * 256 + RC` is the value at `CL` and `RC`. -/
inductive PortAddrChoice where
  | unspecified
  | suggested
  | table (rom ram : Vector Addr 4096)
  deriving DecidableEq, Repr

/-- The open parameters with the spec's defaults (00_scope.md R10). -/
structure Params where
  admitUnnamed : Bool := true
  dclMask : Nibble := 0xF
  daaKeepsCarry : Bool := true
  kbpTable : Vector Nibble 16 := #v[0, 1, 2, 3, 4, 15, 15, 15, 15, 15, 15, 15, 15, 15, 15, 15]
  statusAddrMask : Byte := 0xFF
  portAddr : PortAddrChoice := .unspecified
  writeErr : WritePolicy := .fault
  deriving DecidableEq, Repr

/-- The machine configuration (00_scope.md R12). The order of each list is the registration order. -/
structure MachineConfig where
  variant : Variant
  params : Params
  mappers : List MapperCfg
  memList : List MemEntry
  portList : List PortEntry
  nLatches : Nat
  deriving DecidableEq, Repr

/-- The machine that 95_test_vectors.md uses unless a vector says otherwise (DESIGN CHOICE, log 2): variant A with one
read-only ROM-kind device 0x0000..0x0FFF, variant B with one writable RAM-kind device 0x0000..0x3FFF; no mapper, no
port device, no latch, default parameters. -/
def MachineConfig.plain : Variant → MachineConfig
  | .A =>
    { variant := .A, params := {}, mappers := [], portList := [], nLatches := 0
      memList := [{ kind := .rom, gate := ⟨0x0000, 0x0FFF, .always⟩, body := .memory true false [] }] }
  | .B =>
    { variant := .B, params := {}, mappers := [], portList := [], nLatches := 0
      memList := [{ kind := .ram, gate := ⟨0x0000, 0x3FFF, .always⟩, body := .memory false false [] }] }

/-- Free value (20_memory.md R96): what a foreign device answers to the read or status read that is Bus access number
`tick`: a byte, or `none` for the error NotImplemented. -/
opaque Config.foreignRead : Nat → Option Byte

/-- Free value (20_memory.md R96): whether a foreign device accepts the write or status write that is Bus access number
`tick` (otherwise it reports NotImplemented). -/
opaque Config.foreignWriteOk : Nat → Bool

/-- Free value (10_state.md R59, R60): the byte that register `reg` of a foreign device holds during Bus access number
`tick`. -/
opaque Config.foreignReg : (reg tick : Nat) → Byte

/-- Free value (00_scope.md R10, 42_a_pair_and_ram.md R245): `A_PORT_ADDR` where the configuration leaves it open. -/
opaque Config.portAddr : PortKind → (cl : Nibble) → (rc : Byte) → Addr

end Sys2Proof
end

