-- ==== Sys2Proof/Syntax.lean ====
section
/-! DEFINITION. The instructions of both variants: one constructor per row of spec/opcode_table.json. A constructor's
name begins with `a` or `b` for its variant, since both variants use ADM, SBM, RAL and RAR (30_encoding.md R151). -/

namespace Sys2Proof

/-- A general register R0..R15 of variant A (10_state.md R21). -/
abbrev RegA := Fin 16

/-- A register pair P0..P7 of variant A (10_state.md R22). -/
abbrev PairA := Fin 8

/-- The seven registers of variant B (10_state.md R40); `M` is not among them (R41). -/
inductive RegB where
  | A
  | B
  | C
  | D
  | E
  | H
  | L
  deriving DecidableEq, Repr

/-- The four flags a condition of variant B selects (30_encoding.md R141). -/
inductive FlagB where
  | carry
  | zero
  | sign
  | parity
  deriving DecidableEq, Repr

/-- An instruction (30_encoding.md R134, R143). The "(illegal)" rows keep the undefined bits of their byte. -/
inductive Instr where
  -- variant A, 30_encoding.md R134
  | aNop
  | aJcn (c : Nibble) (a8 : Byte)
  | aFim (p : PairA) (d8 : Byte)
  | aSrc (p : PairA)
  | aFin (p : PairA)
  | aJin (p : PairA)
  | aJun (a12 : PcA)
  | aJms (a12 : PcA)
  | aInc (r : RegA)
  | aIsz (r : RegA) (a8 : Byte)
  | aAdd (r : RegA)
  | aSub (r : RegA)
  | aLd (r : RegA)
  | aXch (r : RegA)
  | aBbl (d : Nibble)
  | aLdm (d : Nibble)
  | aWrm
  | aWmp
  | aWrr
  | aWpm
  | aWr0
  | aWr1
  | aWr2
  | aWr3
  | aSbm
  | aRdm
  | aRdr
  | aAdm
  | aRd0
  | aRd1
  | aRd2
  | aRd3
  | aClb
  | aClc
  | aIac
  | aCmc
  | aCma
  | aRal
  | aRar
  | aTcc
  | aDac
  | aTcs
  | aStc
  | aDaa
  | aKbp
  | aDcl
  /-- `0x01` .. `0x0F` (R135). -/
  | aIllegalLow (x : Nibble)
  /-- `0xFE`, `0xFF` (R135). -/
  | aIllegalHigh (x : BitVec 1)
  -- variant B, 30_encoding.md R143
  /-- Row 1, `0x00` and `0x01`. -/
  | bHltLow
  /-- Row 2, `0xFF`. -/
  | bHltHigh
  | bLr1r2 (d s : RegB)
  | bLrM (d : RegB)
  | bLMr (s : RegB)
  | bADr (s : RegB)
  | bADM
  | bACr (s : RegB)
  | bACM
  | bSUr (s : RegB)
  | bSUM
  | bSBr (s : RegB)
  | bSBM
  | bNDr (s : RegB)
  | bNDM
  | bXRr (s : RegB)
  | bXRM
  | bORr (s : RegB)
  | bORM
  | bCPr (s : RegB)
  | bCPM
  | bLrI (d : RegB) (i8 : Byte)
  | bLMI (i8 : Byte)
  | bADI (i8 : Byte)
  | bACI (i8 : Byte)
  | bSUI (i8 : Byte)
  | bSBI (i8 : Byte)
  | bNDI (i8 : Byte)
  | bXRI (i8 : Byte)
  | bORI (i8 : Byte)
  | bCPI (i8 : Byte)
  | bRST (n : BitVec 3)
  | bINr (d : RegB)
  | bDCr (d : RegB)
  | bRLC
  | bRRC
  | bRAL
  | bRAR
  | bRET
  | bRFc (c : FlagB)
  | bRTc (c : FlagB)
  | bJMP (a14 : PcB)
  | bJFc (c : FlagB) (a14 : PcB)
  | bJTc (c : FlagB) (a14 : PcB)
  | bCAL (a14 : PcB)
  | bCFc (c : FlagB) (a14 : PcB)
  | bCTc (c : FlagB) (a14 : PcB)
  | bINP (n : BitVec 3)
  | bOUT (n : BitVec 5)
  /-- `0x38`, `0x39` (R144). -/
  | bIllegalIncDec (x : BitVec 1)
  /-- `0x22`, `0x2A`, `0x32`, `0x3A` (R144). -/
  | bIllegalRotate (x : BitVec 2)
  deriving DecidableEq, Repr

end Sys2Proof
end

