-- ==== Sys2Proof/WellFormed.lean ====
section
/-! DEFINITION. The operand checks of the encoding tables that the types of `Instr` do not make. -/

namespace Sys2Proof

/-- The instruction has an encoding of its own: an increment or decrement names one of B, C, D, E, H, L
(30_encoding.md R143 rows 8 and 9), an output port number is 8..31 (row 24), and `0x00` is no illegal byte of variant A
(R135). -/
def Instr.WellFormed : Instr → Bool
  | .aIllegalLow x => x != 0
  | .bINr d => d != .A
  | .bDCr d => d != .A
  | .bOUT n => n.extractLsb' 3 2 != 0
  | _ => true

end Sys2Proof
end

