-- ==== Sys2Proof/Decode.lean ====
section
/-! DEFINITION. The decode ROM of both variants as ordered lists of (mask, fixed bits, handler) rows (30_encoding.md
R130, R134, R143), the decoder, and the encoder written from the same tables. -/

namespace Sys2Proof

/-- `b[3:0]` as a register number of variant A (30_encoding.md R132). -/
def regField (b : Byte) : RegA := ⟨b.toNat % 16, Nat.mod_lt _ (by decide)⟩

/-- `b[3:1]` as a pair number of variant A (R132). -/
def pairField (b : Byte) : PairA := ⟨b.toNat / 2 % 8, Nat.mod_lt _ (by decide)⟩

/-- `b[3:0]` as a 4-bit immediate or condition field of variant A (R132). -/
def immField (b : Byte) : Nibble := b.extractLsb' 0 4

/-- `a12 = b[3:0] :: byte 2` (R132, R133). -/
def target12 (b x : Byte) : PcA := immField b ++ x

/-- Register numbers of variant B (R142); number 7 is `M`, no register. -/
def RegB.ofBits (n : BitVec 3) : Option RegB :=
  match n.toNat with
  | 0 => some .A
  | 1 => some .B
  | 2 => some .C
  | 3 => some .D
  | 4 => some .E
  | 5 => some .H
  | 6 => some .L
  | _ => none

/-- The number of a register of variant B (R142). -/
def RegB.bits : RegB → BitVec 3
  | .A => 0
  | .B => 1
  | .C => 2
  | .D => 3
  | .E => 4
  | .H => 5
  | .L => 6

/-- `ddd = b[5:3]` (R141). -/
def dstReg (b : Byte) : Option RegB := RegB.ofBits (b.extractLsb' 3 3)

/-- `sss = b[2:0]` (R141). -/
def srcReg (b : Byte) : Option RegB := RegB.ofBits (b.extractLsb' 0 3)

/-- Flag numbers of variant B (R141). -/
def FlagB.ofBits (n : BitVec 2) : FlagB :=
  match n.toNat with
  | 0 => .carry
  | 1 => .zero
  | 2 => .sign
  | _ => .parity

/-- The number of a flag of variant B (R141). -/
def FlagB.bits : FlagB → BitVec 2
  | .carry => 0
  | .zero => 1
  | .sign => 2
  | .parity => 3

/-- `cc = b[4:3]` (R141). -/
def flagField (b : Byte) : FlagB := FlagB.ofBits (b.extractLsb' 3 2)

/-- `a14 = hi[5:0] :: lo` (R142). -/
def target14 (lo hi : Byte) : PcB := hi.extractLsb' 0 6 ++ lo

/-- A row of a decode ROM: mask, fixed bits, length in bytes, and the handler that reads the fields of the first byte
and of the operand bytes; a handler answers `none` where the row's extra condition fails (30_encoding.md R143). -/
structure DecodeRow where
  mask : Byte
  fixed : Byte
  len : Nat
  build : (first second third : Byte) → Option Instr

/-- Decode ROM of variant A in order (30_encoding.md R134, R135), part 1. -/
def romA1 : List DecodeRow :=
  [ ⟨0xFF, 0x00, 1, fun _ _ _ => some .aNop⟩,
    ⟨0xF0, 0x10, 2, fun b x _ => some (.aJcn (immField b) x)⟩,
    ⟨0xF1, 0x20, 2, fun b x _ => some (.aFim (pairField b) x)⟩,
    ⟨0xF1, 0x21, 1, fun b _ _ => some (.aSrc (pairField b))⟩,
    ⟨0xF1, 0x30, 1, fun b _ _ => some (.aFin (pairField b))⟩,
    ⟨0xF1, 0x31, 1, fun b _ _ => some (.aJin (pairField b))⟩,
    ⟨0xF0, 0x40, 2, fun b x _ => some (.aJun (target12 b x))⟩,
    ⟨0xF0, 0x50, 2, fun b x _ => some (.aJms (target12 b x))⟩,
    ⟨0xF0, 0x60, 1, fun b _ _ => some (.aInc (regField b))⟩,
    ⟨0xF0, 0x70, 2, fun b x _ => some (.aIsz (regField b) x)⟩,
    ⟨0xF0, 0x80, 1, fun b _ _ => some (.aAdd (regField b))⟩,
    ⟨0xF0, 0x90, 1, fun b _ _ => some (.aSub (regField b))⟩,
    ⟨0xF0, 0xA0, 1, fun b _ _ => some (.aLd (regField b))⟩,
    ⟨0xF0, 0xB0, 1, fun b _ _ => some (.aXch (regField b))⟩ ]

/-- Decode ROM of variant A in order (30_encoding.md R134, R135), part 2. -/
def romA2 : List DecodeRow :=
  [ ⟨0xF0, 0xC0, 1, fun b _ _ => some (.aBbl (immField b))⟩,
    ⟨0xF0, 0xD0, 1, fun b _ _ => some (.aLdm (immField b))⟩,
    ⟨0xFF, 0xE0, 1, fun _ _ _ => some .aWrm⟩,
    ⟨0xFF, 0xE1, 1, fun _ _ _ => some .aWmp⟩,
    ⟨0xFF, 0xE2, 1, fun _ _ _ => some .aWrr⟩,
    ⟨0xFF, 0xE3, 1, fun _ _ _ => some .aWpm⟩,
    ⟨0xFF, 0xE4, 1, fun _ _ _ => some .aWr0⟩,
    ⟨0xFF, 0xE5, 1, fun _ _ _ => some .aWr1⟩,
    ⟨0xFF, 0xE6, 1, fun _ _ _ => some .aWr2⟩,
    ⟨0xFF, 0xE7, 1, fun _ _ _ => some .aWr3⟩,
    ⟨0xFF, 0xE8, 1, fun _ _ _ => some .aSbm⟩,
    ⟨0xFF, 0xE9, 1, fun _ _ _ => some .aRdm⟩,
    ⟨0xFF, 0xEA, 1, fun _ _ _ => some .aRdr⟩,
    ⟨0xFF, 0xEB, 1, fun _ _ _ => some .aAdm⟩ ]

/-- Decode ROM of variant A in order (30_encoding.md R134, R135), part 3. -/
def romA3 : List DecodeRow :=
  [ ⟨0xFF, 0xEC, 1, fun _ _ _ => some .aRd0⟩,
    ⟨0xFF, 0xED, 1, fun _ _ _ => some .aRd1⟩,
    ⟨0xFF, 0xEE, 1, fun _ _ _ => some .aRd2⟩,
    ⟨0xFF, 0xEF, 1, fun _ _ _ => some .aRd3⟩,
    ⟨0xFF, 0xF0, 1, fun _ _ _ => some .aClb⟩,
    ⟨0xFF, 0xF1, 1, fun _ _ _ => some .aClc⟩,
    ⟨0xFF, 0xF2, 1, fun _ _ _ => some .aIac⟩,
    ⟨0xFF, 0xF3, 1, fun _ _ _ => some .aCmc⟩,
    ⟨0xFF, 0xF4, 1, fun _ _ _ => some .aCma⟩,
    ⟨0xFF, 0xF5, 1, fun _ _ _ => some .aRal⟩,
    ⟨0xFF, 0xF6, 1, fun _ _ _ => some .aRar⟩,
    ⟨0xFF, 0xF7, 1, fun _ _ _ => some .aTcc⟩,
    ⟨0xFF, 0xF8, 1, fun _ _ _ => some .aDac⟩,
    ⟨0xFF, 0xF9, 1, fun _ _ _ => some .aTcs⟩ ]

/-- Decode ROM of variant A in order (30_encoding.md R134, R135), part 4. -/
def romA4 : List DecodeRow :=
  [ ⟨0xFF, 0xFA, 1, fun _ _ _ => some .aStc⟩,
    ⟨0xFF, 0xFB, 1, fun _ _ _ => some .aDaa⟩,
    ⟨0xFF, 0xFC, 1, fun _ _ _ => some .aKbp⟩,
    ⟨0xFF, 0xFD, 1, fun _ _ _ => some .aDcl⟩,
    ⟨0xF0, 0x00, 1, fun b _ _ => if immField b = 0 then none else some (.aIllegalLow (immField b))⟩,
    ⟨0xFE, 0xFE, 1, fun b _ _ => some (.aIllegalHigh (b.extractLsb' 0 1))⟩ ]

/-- Decode ROM of variant A in order (30_encoding.md R134, R135). -/
def romA : List DecodeRow := romA1 ++ romA2 ++ romA3 ++ romA4

/-- Decode ROM of variant B in order (30_encoding.md R143, R144), part 1. -/
def romB1 : List DecodeRow :=
  [ ⟨0xFE, 0x00, 1, fun _ _ _ => some .bHltLow⟩,
    ⟨0xFF, 0xFF, 1, fun _ _ _ => some .bHltHigh⟩,
    ⟨0xC0, 0xC0, 1, fun b _ _ => (dstReg b).bind fun d => (srcReg b).map fun s => .bLr1r2 d s⟩,
    ⟨0xC7, 0xC7, 1, fun b _ _ => (dstReg b).map .bLrM⟩,
    ⟨0xF8, 0xF8, 1, fun b _ _ => (srcReg b).map .bLMr⟩,
    ⟨0xF8, 0x80, 1, fun b _ _ => (srcReg b).map .bADr⟩,
    ⟨0xFF, 0x87, 1, fun _ _ _ => some .bADM⟩,
    ⟨0xF8, 0x88, 1, fun b _ _ => (srcReg b).map .bACr⟩,
    ⟨0xFF, 0x8F, 1, fun _ _ _ => some .bACM⟩,
    ⟨0xF8, 0x90, 1, fun b _ _ => (srcReg b).map .bSUr⟩,
    ⟨0xFF, 0x97, 1, fun _ _ _ => some .bSUM⟩,
    ⟨0xF8, 0x98, 1, fun b _ _ => (srcReg b).map .bSBr⟩,
    ⟨0xFF, 0x9F, 1, fun _ _ _ => some .bSBM⟩,
    ⟨0xF8, 0xA0, 1, fun b _ _ => (srcReg b).map .bNDr⟩ ]

/-- Decode ROM of variant B in order (30_encoding.md R143, R144), part 2. -/
def romB2 : List DecodeRow :=
  [ ⟨0xFF, 0xA7, 1, fun _ _ _ => some .bNDM⟩,
    ⟨0xF8, 0xA8, 1, fun b _ _ => (srcReg b).map .bXRr⟩,
    ⟨0xFF, 0xAF, 1, fun _ _ _ => some .bXRM⟩,
    ⟨0xF8, 0xB0, 1, fun b _ _ => (srcReg b).map .bORr⟩,
    ⟨0xFF, 0xB7, 1, fun _ _ _ => some .bORM⟩,
    ⟨0xF8, 0xB8, 1, fun b _ _ => (srcReg b).map .bCPr⟩,
    ⟨0xFF, 0xBF, 1, fun _ _ _ => some .bCPM⟩,
    ⟨0xC7, 0x06, 2, fun b x _ => (dstReg b).map fun d => .bLrI d x⟩,
    ⟨0xFF, 0x3E, 2, fun _ x _ => some (.bLMI x)⟩,
    ⟨0xFF, 0x04, 2, fun _ x _ => some (.bADI x)⟩,
    ⟨0xFF, 0x0C, 2, fun _ x _ => some (.bACI x)⟩,
    ⟨0xFF, 0x14, 2, fun _ x _ => some (.bSUI x)⟩,
    ⟨0xFF, 0x1C, 2, fun _ x _ => some (.bSBI x)⟩,
    ⟨0xFF, 0x24, 2, fun _ x _ => some (.bNDI x)⟩ ]

/-- Decode ROM of variant B in order (30_encoding.md R143, R144), part 3. -/
def romB3 : List DecodeRow :=
  [ ⟨0xFF, 0x2C, 2, fun _ x _ => some (.bXRI x)⟩,
    ⟨0xFF, 0x34, 2, fun _ x _ => some (.bORI x)⟩,
    ⟨0xFF, 0x3C, 2, fun _ x _ => some (.bCPI x)⟩,
    ⟨0xC7, 0x05, 1, fun b _ _ => some (.bRST (b.extractLsb' 3 3))⟩,
    ⟨0xC7, 0x00, 1, fun b _ _ => (dstReg b).bind fun d => if d = .A then none else some (.bINr d)⟩,
    ⟨0xC7, 0x01, 1, fun b _ _ => (dstReg b).bind fun d => if d = .A then none else some (.bDCr d)⟩,
    ⟨0xFF, 0x02, 1, fun _ _ _ => some .bRLC⟩,
    ⟨0xFF, 0x0A, 1, fun _ _ _ => some .bRRC⟩,
    ⟨0xFF, 0x12, 1, fun _ _ _ => some .bRAL⟩,
    ⟨0xFF, 0x1A, 1, fun _ _ _ => some .bRAR⟩,
    ⟨0xC7, 0x07, 1, fun _ _ _ => some .bRET⟩,
    ⟨0xE7, 0x03, 1, fun b _ _ => some (.bRFc (flagField b))⟩,
    ⟨0xE7, 0x23, 1, fun b _ _ => some (.bRTc (flagField b))⟩,
    ⟨0xC7, 0x44, 3, fun _ x y => some (.bJMP (target14 x y))⟩ ]

/-- Decode ROM of variant B in order (30_encoding.md R143, R144), part 4. -/
def romB4 : List DecodeRow :=
  [ ⟨0xE7, 0x40, 3, fun b x y => some (.bJFc (flagField b) (target14 x y))⟩,
    ⟨0xE7, 0x60, 3, fun b x y => some (.bJTc (flagField b) (target14 x y))⟩,
    ⟨0xC7, 0x46, 3, fun _ x y => some (.bCAL (target14 x y))⟩,
    ⟨0xE7, 0x42, 3, fun b x y => some (.bCFc (flagField b) (target14 x y))⟩,
    ⟨0xE7, 0x62, 3, fun b x y => some (.bCTc (flagField b) (target14 x y))⟩,
    ⟨0xF1, 0x41, 1, fun b _ _ => some (.bINP (b.extractLsb' 1 3))⟩,
    ⟨0xC1, 0x41, 1, fun b _ _ => if b.extractLsb' 4 2 = 0 then none else some (.bOUT (b.extractLsb' 1 5))⟩,
    ⟨0xFE, 0x38, 1, fun b _ _ => some (.bIllegalIncDec (b.extractLsb' 0 1))⟩,
    ⟨0xE7, 0x22, 1, fun b _ _ => some (.bIllegalRotate (b.extractLsb' 3 2))⟩ ]

/-- Decode ROM of variant B in order (30_encoding.md R143, R144). -/
def romB : List DecodeRow := romB1 ++ romB2 ++ romB3 ++ romB4

/-- The decode ROM of a variant. -/
def decodeRom : Variant → List DecodeRow
  | .A => romA
  | .B => romB

/-- A row matches a first byte when the masked byte is its fixed bits and its extra condition holds (R134, R143). -/
def DecodeRow.accepts (r : DecodeRow) (b : Byte) : Bool :=
  b &&& r.mask == r.fixed && (r.build b 0 0).isSome

/-- The first row in order that matches (R143); the first byte alone decides it (R131). -/
def findRow (v : Variant) (b : Byte) : Option DecodeRow :=
  (decodeRom v).find? fun r => r.accepts b

/-- Why a list of bytes is no instruction. -/
inductive DecodeError where
  /-- There is no byte. -/
  | noByte
  /-- The first byte matches no row of the decode ROM (60_exceptions.md R344). -/
  | noRow (b : Byte)
  /-- The operand bytes the row asks for are not all there. -/
  | missingOperand (b : Byte)
  deriving DecidableEq, Repr

/-- The instruction of a row from the first byte and its operand bytes. -/
def DecodeRow.instr (r : DecodeRow) (b : Byte) (operands : List Byte) : Option Instr :=
  r.build b (operands.getD 0 0) (operands.getD 1 0)

/-- Read one instruction from a list of bytes and answer it with the bytes that follow. -/
def decode (v : Variant) : List Byte → Except DecodeError (Instr × List Byte)
  | [] => .error .noByte
  | b :: rest =>
    match findRow v b with
    | none => .error (.noRow b)
    | some r =>
      if rest.length < r.len - 1 then .error (.missingOperand b)
      else
        match r.instr b (rest.take (r.len - 1)) with
        | none => .error (.noRow b)
        | some i => .ok (i, rest.drop (r.len - 1))

/-- The variant an instruction belongs to. -/
def Instr.variant : Instr → Variant
  | .aNop => .A
  | .aJcn .. => .A
  | .aFim .. => .A
  | .aSrc .. => .A
  | .aFin .. => .A
  | .aJin .. => .A
  | .aJun .. => .A
  | .aJms .. => .A
  | .aInc .. => .A
  | .aIsz .. => .A
  | .aAdd .. => .A
  | .aSub .. => .A
  | .aLd .. => .A
  | .aXch .. => .A
  | .aBbl .. => .A
  | .aLdm .. => .A
  | .aWrm => .A
  | .aWmp => .A
  | .aWrr => .A
  | .aWpm => .A
  | .aWr0 => .A
  | .aWr1 => .A
  | .aWr2 => .A
  | .aWr3 => .A
  | .aSbm => .A
  | .aRdm => .A
  | .aRdr => .A
  | .aAdm => .A
  | .aRd0 => .A
  | .aRd1 => .A
  | .aRd2 => .A
  | .aRd3 => .A
  | .aClb => .A
  | .aClc => .A
  | .aIac => .A
  | .aCmc => .A
  | .aCma => .A
  | .aRal => .A
  | .aRar => .A
  | .aTcc => .A
  | .aDac => .A
  | .aTcs => .A
  | .aStc => .A
  | .aDaa => .A
  | .aKbp => .A
  | .aDcl => .A
  | .aIllegalLow .. => .A
  | .aIllegalHigh .. => .A
  | .bHltLow => .B
  | .bHltHigh => .B
  | .bLr1r2 .. => .B
  | .bLrM .. => .B
  | .bLMr .. => .B
  | .bADr .. => .B
  | .bADM => .B
  | .bACr .. => .B
  | .bACM => .B
  | .bSUr .. => .B
  | .bSUM => .B
  | .bSBr .. => .B
  | .bSBM => .B
  | .bNDr .. => .B
  | .bNDM => .B
  | .bXRr .. => .B
  | .bXRM => .B
  | .bORr .. => .B
  | .bORM => .B
  | .bCPr .. => .B
  | .bCPM => .B
  | .bLrI .. => .B
  | .bLMI .. => .B
  | .bADI .. => .B
  | .bACI .. => .B
  | .bSUI .. => .B
  | .bSBI .. => .B
  | .bNDI .. => .B
  | .bXRI .. => .B
  | .bORI .. => .B
  | .bCPI .. => .B
  | .bRST .. => .B
  | .bINr .. => .B
  | .bDCr .. => .B
  | .bRLC => .B
  | .bRRC => .B
  | .bRAL => .B
  | .bRAR => .B
  | .bRET => .B
  | .bRFc .. => .B
  | .bRTc .. => .B
  | .bJMP .. => .B
  | .bJFc .. => .B
  | .bJTc .. => .B
  | .bCAL .. => .B
  | .bCFc .. => .B
  | .bCTc .. => .B
  | .bINP .. => .B
  | .bOUT .. => .B
  | .bIllegalIncDec .. => .B
  | .bIllegalRotate .. => .B

/-- The first byte of an instruction (30_encoding.md R134, R143); don't-care bits are 0 (R145). -/
def Instr.opcode : Instr → Byte
  | .aNop => 0x00
  | .aJcn c _ => 0x1#4 ++ c
  | .aFim p _ => 0x2#4 ++ (BitVec.ofFin p : BitVec 3) ++ 0#1
  | .aSrc p => 0x2#4 ++ (BitVec.ofFin p : BitVec 3) ++ 1#1
  | .aFin p => 0x3#4 ++ (BitVec.ofFin p : BitVec 3) ++ 0#1
  | .aJin p => 0x3#4 ++ (BitVec.ofFin p : BitVec 3) ++ 1#1
  | .aJun a12 => 0x4#4 ++ a12.extractLsb' 8 4
  | .aJms a12 => 0x5#4 ++ a12.extractLsb' 8 4
  | .aInc r => 0x6#4 ++ (BitVec.ofFin r : Nibble)
  | .aIsz r _ => 0x7#4 ++ (BitVec.ofFin r : Nibble)
  | .aAdd r => 0x8#4 ++ (BitVec.ofFin r : Nibble)
  | .aSub r => 0x9#4 ++ (BitVec.ofFin r : Nibble)
  | .aLd r => 0xA#4 ++ (BitVec.ofFin r : Nibble)
  | .aXch r => 0xB#4 ++ (BitVec.ofFin r : Nibble)
  | .aBbl d => 0xC#4 ++ d
  | .aLdm d => 0xD#4 ++ d
  | .aWrm => 0xE0
  | .aWmp => 0xE1
  | .aWrr => 0xE2
  | .aWpm => 0xE3
  | .aWr0 => 0xE4
  | .aWr1 => 0xE5
  | .aWr2 => 0xE6
  | .aWr3 => 0xE7
  | .aSbm => 0xE8
  | .aRdm => 0xE9
  | .aRdr => 0xEA
  | .aAdm => 0xEB
  | .aRd0 => 0xEC
  | .aRd1 => 0xED
  | .aRd2 => 0xEE
  | .aRd3 => 0xEF
  | .aClb => 0xF0
  | .aClc => 0xF1
  | .aIac => 0xF2
  | .aCmc => 0xF3
  | .aCma => 0xF4
  | .aRal => 0xF5
  | .aRar => 0xF6
  | .aTcc => 0xF7
  | .aDac => 0xF8
  | .aTcs => 0xF9
  | .aStc => 0xFA
  | .aDaa => 0xFB
  | .aKbp => 0xFC
  | .aDcl => 0xFD
  | .aIllegalLow x => 0x0#4 ++ x
  | .aIllegalHigh x => 0x7F#7 ++ x
  | .bHltLow => 0x00
  | .bHltHigh => 0xFF
  | .bLr1r2 d s => 0b11#2 ++ d.bits ++ s.bits
  | .bLrM d => 0b11#2 ++ d.bits ++ 0b111#3
  | .bLMr s => 0b11111#5 ++ s.bits
  | .bADr s => 0b10000#5 ++ s.bits
  | .bADM => 0b10000111
  | .bACr s => 0b10001#5 ++ s.bits
  | .bACM => 0b10001111
  | .bSUr s => 0b10010#5 ++ s.bits
  | .bSUM => 0b10010111
  | .bSBr s => 0b10011#5 ++ s.bits
  | .bSBM => 0b10011111
  | .bNDr s => 0b10100#5 ++ s.bits
  | .bNDM => 0b10100111
  | .bXRr s => 0b10101#5 ++ s.bits
  | .bXRM => 0b10101111
  | .bORr s => 0b10110#5 ++ s.bits
  | .bORM => 0b10110111
  | .bCPr s => 0b10111#5 ++ s.bits
  | .bCPM => 0b10111111
  | .bLrI d _ => 0b00#2 ++ d.bits ++ 0b110#3
  | .bLMI _ => 0b00111110
  | .bADI _ => 0b00000100
  | .bACI _ => 0b00001100
  | .bSUI _ => 0b00010100
  | .bSBI _ => 0b00011100
  | .bNDI _ => 0b00100100
  | .bXRI _ => 0b00101100
  | .bORI _ => 0b00110100
  | .bCPI _ => 0b00111100
  | .bRST n => 0b00#2 ++ n ++ 0b101#3
  | .bINr d => 0b00#2 ++ d.bits ++ 0b000#3
  | .bDCr d => 0b00#2 ++ d.bits ++ 0b001#3
  | .bRLC => 0x02
  | .bRRC => 0x0A
  | .bRAL => 0x12
  | .bRAR => 0x1A
  | .bRET => 0x07
  | .bRFc c => 0b000#3 ++ c.bits ++ 0b011#3
  | .bRTc c => 0b001#3 ++ c.bits ++ 0b011#3
  | .bJMP _ => 0x44
  | .bJFc c _ => 0b010#3 ++ c.bits ++ 0b000#3
  | .bJTc c _ => 0b011#3 ++ c.bits ++ 0b000#3
  | .bCAL _ => 0x46
  | .bCFc c _ => 0b010#3 ++ c.bits ++ 0b010#3
  | .bCTc c _ => 0b011#3 ++ c.bits ++ 0b010#3
  | .bINP n => 0b0100#4 ++ n ++ 0b1#1
  | .bOUT n => 0b01#2 ++ n ++ 0b1#1
  | .bIllegalIncDec x => 0b0011100#7 ++ x
  | .bIllegalRotate x => 0b001#3 ++ x ++ 0b010#3

/-- The operand bytes of an instruction (R133, R142; 20_memory.md R110). -/
def Instr.operands : Instr → List Byte
  | .aNop => []
  | .aJcn _ a8 => [a8]
  | .aFim _ d8 => [d8]
  | .aSrc _ => []
  | .aFin _ => []
  | .aJin _ => []
  | .aJun a12 => [a12.extractLsb' 0 8]
  | .aJms a12 => [a12.extractLsb' 0 8]
  | .aInc _ => []
  | .aIsz _ a8 => [a8]
  | .aAdd _ => []
  | .aSub _ => []
  | .aLd _ => []
  | .aXch _ => []
  | .aBbl _ => []
  | .aLdm _ => []
  | .aWrm => []
  | .aWmp => []
  | .aWrr => []
  | .aWpm => []
  | .aWr0 => []
  | .aWr1 => []
  | .aWr2 => []
  | .aWr3 => []
  | .aSbm => []
  | .aRdm => []
  | .aRdr => []
  | .aAdm => []
  | .aRd0 => []
  | .aRd1 => []
  | .aRd2 => []
  | .aRd3 => []
  | .aClb => []
  | .aClc => []
  | .aIac => []
  | .aCmc => []
  | .aCma => []
  | .aRal => []
  | .aRar => []
  | .aTcc => []
  | .aDac => []
  | .aTcs => []
  | .aStc => []
  | .aDaa => []
  | .aKbp => []
  | .aDcl => []
  | .aIllegalLow _ => []
  | .aIllegalHigh _ => []
  | .bHltLow => []
  | .bHltHigh => []
  | .bLr1r2 _ _ => []
  | .bLrM _ => []
  | .bLMr _ => []
  | .bADr _ => []
  | .bADM => []
  | .bACr _ => []
  | .bACM => []
  | .bSUr _ => []
  | .bSUM => []
  | .bSBr _ => []
  | .bSBM => []
  | .bNDr _ => []
  | .bNDM => []
  | .bXRr _ => []
  | .bXRM => []
  | .bORr _ => []
  | .bORM => []
  | .bCPr _ => []
  | .bCPM => []
  | .bLrI _ i8 => [i8]
  | .bLMI i8 => [i8]
  | .bADI i8 => [i8]
  | .bACI i8 => [i8]
  | .bSUI i8 => [i8]
  | .bSBI i8 => [i8]
  | .bNDI i8 => [i8]
  | .bXRI i8 => [i8]
  | .bORI i8 => [i8]
  | .bCPI i8 => [i8]
  | .bRST _ => []
  | .bINr _ => []
  | .bDCr _ => []
  | .bRLC => []
  | .bRRC => []
  | .bRAL => []
  | .bRAR => []
  | .bRET => []
  | .bRFc _ => []
  | .bRTc _ => []
  | .bJMP a14 => [a14.extractLsb' 0 8, (a14.extractLsb' 8 6).setWidth 8]
  | .bJFc _ a14 => [a14.extractLsb' 0 8, (a14.extractLsb' 8 6).setWidth 8]
  | .bJTc _ a14 => [a14.extractLsb' 0 8, (a14.extractLsb' 8 6).setWidth 8]
  | .bCAL a14 => [a14.extractLsb' 0 8, (a14.extractLsb' 8 6).setWidth 8]
  | .bCFc _ a14 => [a14.extractLsb' 0 8, (a14.extractLsb' 8 6).setWidth 8]
  | .bCTc _ a14 => [a14.extractLsb' 0 8, (a14.extractLsb' 8 6).setWidth 8]
  | .bINP _ => []
  | .bOUT _ => []
  | .bIllegalIncDec _ => []
  | .bIllegalRotate _ => []

/-- The bytes of an instruction. -/
def encode (i : Instr) : List Byte := i.opcode :: i.operands

/-- How badly a first byte, given as `nbits` bits, fits a row: first whether the byte is the row's fixed bits with all
fields zero, then whether the row has `nbits` bits, then how few bits the row fixes. -/
def DecodeRow.misfit (nbits : Nat) (b : Byte) (r : DecodeRow) : Nat :=
  (if b = r.fixed then 0 else 200) + (if 8 * r.len = nbits then 0 else 100) +
    ((List.range 8).filter fun k => !r.mask.getLsbD k).length

/-- The variant a word of spec/opcode_table.json is read for (DESIGN CHOICE, log 3): the table holds both variants and
a word does not say which, so it is the variant whose row fits the word better, variant A when both fit alike. -/
def tableVariant (nbits w : Nat) : Variant :=
  let b := BitVec.ofNat 8 (w % 2 ^ nbits)
  match findRow .A b, findRow .B b with
  | some ra, some rb => if ra.misfit nbits b ≤ rb.misfit nbits b then .A else .B
  | none, some _ => .B
  | _, none => .A

/-- The bytes of a word of the table, first byte in the low bits, as many as the longest instruction of the variant. -/
def tableBytes (v : Variant) (nbits w : Nat) : List Byte :=
  let x := w % 2 ^ nbits
  match v with
  | .A => [BitVec.ofNat 8 x, BitVec.ofNat 8 (x / 256)]
  | .B => [BitVec.ofNat 8 x, BitVec.ofNat 8 (x / 256), BitVec.ofNat 8 (x / 65536)]

/-- The instruction the decoder reads from a word of the table. -/
def decodeTableWord (nbits w : Nat) : Option Instr :=
  let v := tableVariant nbits w
  match decode v (tableBytes v nbits w) with
  | .ok (i, _) => some i
  | .error _ => none

end Sys2Proof
end

