-- ==== Sys2Proof/Machine/Memory.lean ====
section
/-! DEFINITION. Sparse byte memory in one canonical form, and where the cells of the MemoryDevices stand in it
(10_state.md R51). -/

namespace Sys2Proof.Machine

/-- Byte memory: addresses strictly rising, no entry equal to what an unlisted address reads as. -/
abbrev Memory := List Host.Cell

/-- What an unlisted address reads as: the reset value of every cell (10_state.md R51, R65). -/
def Memory.unlisted : Byte := 0

/-- The byte at an address. -/
def Memory.read : Memory → Nat → Byte
  | [], _ => Memory.unlisted
  | (a, v) :: m, k => if k = a then v else Memory.read m k

/-- Store a byte at an address; storing what an unlisted address reads as removes the entry. -/
def Memory.write : Memory → Nat → Byte → Memory
  | [], k, v => if v = Memory.unlisted then [] else [(k, v)]
  | (a, w) :: m, k, v =>
    if k < a then (if v = Memory.unlisted then (a, w) :: m else (k, v) :: (a, w) :: m)
    else if k = a then (if v = Memory.unlisted then m else (a, v) :: m)
    else (a, w) :: Memory.write m k v

/-- The canonical form holds. -/
def Memory.wf : Memory → Bool
  | [] => true
  | (a, v) :: m => v != Memory.unlisted && m.all (fun c => decide (a < c.1)) && Memory.wf m

/-- Store a list of bytes at rising addresses. -/
def Memory.load (m : Memory) (k : Nat) : List Byte → Memory
  | [] => m
  | v :: vs => Memory.load (m.write k v) (k + 1) vs

/-- Where cell `off` of the device with number `dev` stands (DESIGN CHOICE, log 11). -/
def contentKey (dev off : Nat) : Nat := dev * 65536 + off

/-- Where status entry `i` of cell `off` of the device with number `dev` stands (DESIGN CHOICE, log 11). -/
def statusKey (dev off i : Nat) : Nat := contentKey dev off * 4 + i

/-- `Load` (20_memory.md R86): copy an image into the contents of device `dev` with window `g` from offset 0, cut to the
size of the window. -/
def Memory.loadImage (m : Memory) (dev : Nat) (g : Gate) (image : List Byte) : Memory :=
  m.load (contentKey dev 0) (image.take (g.last.toNat - g.start.toNat + 1))

/-- The contents after reset: every cell 0, then the image of each MemoryDevice (10_state.md R51). -/
def Memory.ofImages (m : Memory) (dev : Nat) : List MemEntry → Memory
  | [] => m
  | e :: es =>
    match e.body with
    | .memory _ _ image => Memory.ofImages (m.loadImage dev e.gate image) (dev + 1) es
    | _ => Memory.ofImages m (dev + 1) es

end Sys2Proof.Machine
end

