-- ==== Sys2Proof/Machine/State.lean ====
section
/-! DEFINITION. The state of the machine as plain data (10_state.md), its reset value, and the reasons a step stops. -/

namespace Sys2Proof.Machine

/-- The typed errors (60_exceptions.md R340). -/
inductive TypedError where
  | invalidRegisterIndex
  | invalidAddress
  | readOnly
  | invalidOpcode (b : Byte)
  | stackUnderflow
  | notImplemented
  deriving DecidableEq, Repr

/-- A call stack of `depth` slots of `width` bits with its pointer and the outstanding-push counter (10_state.md R30,
R31). -/
structure CallStack (width depth : Nat) where
  slots : Vector (BitVec width) depth
  sp : Fin depth
  nest : Fin (depth + 1)
  deriving DecidableEq, Repr

/-- The CPU of variant A (10_state.md R21 to R31). -/
structure CpuA where
  x : Vector Nibble 16
  acc : Nibble
  cy : Bool
  test : Bool
  cl : Nibble
  rc : Byte
  pc : PcA
  stk : CallStack 12 3
  deriving DecidableEq, Repr

/-- The CPU of variant B (10_state.md R40 to R44); `x` is A, B, C, D, E, H, L in this order. -/
structure CpuB where
  x : Vector Byte 7
  fC : Bool
  fZ : Bool
  fS : Bool
  fP : Bool
  pc : PcB
  stk : CallStack 14 8
  deriving DecidableEq, Repr

/-- What the host does between two instructions (DESIGN CHOICE, log 4): let the CPU take a turn, set TEST
(10_state.md R25), set the cancellation flag (60_exceptions.md R351), or reset (70_reset_and_hazards.md R370). -/
inductive HostEvent where
  | go
  | setTest (v : Bool)
  | setCancel (v : Bool)
  | reset
  deriving DecidableEq, Repr

/-- The whole machine. `a` and `b` are the two CPU engines, of which `cfg.variant` names the one that runs (log 1).
`mem` and `stat` hold the contents and status arrays of all MemoryDevices, `pages` the page registers of each mapper,
`latch` the latches. `tick` and `hostQueue` are the model's own fields (log 4, 6). -/
structure State where
  cfg : MachineConfig
  a : CpuA
  b : CpuB
  halted : Bool
  err : Option TypedError
  cancel : Bool
  mem : Memory
  stat : Memory
  pages : List (Vector Byte 16)
  latch : List Bool
  tick : Nat
  hostQueue : List HostEvent
  deriving DecidableEq, Repr

/-- Why the run loop has ended (60_exceptions.md R350). The step of a machine whose run has ended raises it, no
instruction does. All are safe: the machine takes no further step. -/
inductive Fault where
  /-- An instruction raised this typed error (R346; 93_implementation_defined.md U9). Raised by `step`. Safe. -/
  | error (e : TypedError)
  /-- A halt instruction was executed (R350, R364). Raised by `step`. Safe. -/
  | halted
  /-- The host's cancellation flag is set (R351). Raised by `step`. Safe. -/
  | cancelled
  deriving DecidableEq, Repr

/-- What the model does not run. -/
inductive Refusal where
  /-- An instruction with no meaning yet. Raised by `exec`'s arms only. Safe. -/
  | notModelled (mnemonic : String)
  /-- A configuration the spec tells a model to refuse (92_eei_decisions.md D28; 93_implementation_defined.md U7).
  Raised by `step`. Safe. -/
  | badConfiguration
  deriving DecidableEq, Repr

/-- The empty call stack (10_state.md R30, R31, R65). -/
def CallStack.empty (width depth : Nat) (h : 0 < depth) : CallStack width depth :=
  { slots := Vector.replicate depth 0, sp := ⟨0, h⟩, nest := ⟨0, Nat.succ_pos depth⟩ }

/-- The CPU of variant A after reset (10_state.md R65). -/
def CpuA.reset : CpuA :=
  { x := Vector.replicate 16 0, acc := 0, cy := false, test := false, cl := 0, rc := 0, pc := 0
    stk := CallStack.empty 12 3 (by decide) }

/-- The CPU of variant B after reset (10_state.md R65). -/
def CpuB.reset : CpuB :=
  { x := Vector.replicate 7 0, fC := false, fZ := false, fS := false, fP := false, pc := 0
    stk := CallStack.empty 14 8 (by decide) }

/-- A machine with this configuration right after reset (10_state.md R65, 70_reset_and_hazards.md R370). -/
def State.resetWith (c : MachineConfig) : State :=
  { cfg := c, a := CpuA.reset, b := CpuB.reset, halted := false, err := none, cancel := false
    mem := Memory.ofImages [] 0 c.memList, stat := []
    pages := c.mappers.map fun _ => Vector.replicate 16 0
    latch := List.replicate c.nLatches false
    tick := 0, hostQueue := [] }

/-- The machine right after reset, in the plain configuration of variant A (log 2). -/
def State.reset : State := State.resetWith (MachineConfig.plain .A)

end Sys2Proof.Machine
end

