-- ==== Sys2Proof/Machine/Bus.lean ====
section
/-! DEFINITION. The address-routing subsystem (20_memory.md): Enablers, the mapper chain, the MemoryDevice operations
and the Bus operations a CPU uses. -/

namespace Sys2Proof.Machine

/-- What a Bus primitive answers: a value or a typed error (00_scope.md R15). -/
abbrev Answer (α : Type) := Except TypedError α

/-- The value of a latch; a latch that does not exist reads 0. -/
def State.latchAt (s : State) (k : Nat) : Bool := s.latch.getD k false

/-- Page register `k` of mapper `m` (10_state.md R55). -/
def State.pageReg (s : State) (m : Nat) (k : Fin 16) : Byte := (s.pages.getD m (Vector.replicate 16 0))[k]

/-- `Eval(e)`: the Enabler's value from the current state (20_memory.md R90, 10_state.md R60). -/
def evalEnabler (s : State) : Enabler → Bool
  | .always => true
  | .never => false
  | .flag k inv => s.latchAt k != inv
  | .regEqCL v => s.a.cl.setWidth 8 == v
  | .regEqForeign r v => Config.foreignReg r s.tick == v

/-- `HasAddress(a)` (20_memory.md R80). -/
def hasAddress (g : Gate) (a : Addr) (s : State) : Bool :=
  evalEnabler s g.enabler && decide (g.start ≤ a) && decide (a ≤ g.last)

/-- The offset of an address in a window. -/
def offsetIn (g : Gate) (a : Addr) : Nat := a.toNat - g.start.toNat

/-- Replace one bit of an address. -/
def setBit (a : Addr) (i : Fin 16) (v : Bool) : Addr :=
  BitVec.ofFnLE fun j : Fin 16 => if j = i then v else a[j]

/-- Apply the rewrite slots in order, so that a later slot wins (20_memory.md R102). -/
def rewriteBits (p : Byte) (a : Addr) : List (Option Slot) → Addr
  | [] => a
  | none :: ss => rewriteBits p a ss
  | some w :: ss => rewriteBits p (setBit a w.dst p[w.src]) ss

/-- Latch slot `j` takes bit `j` of the page register, uninverted (20_memory.md R102). -/
def driveLatches (p : Byte) (j : Nat) (latch : List Bool) : List (Option Nat) → List Bool
  | [] => latch
  | none :: rs => driveLatches p (j + 1) latch rs
  | some k :: rs => driveLatches p (j + 1) (latch.set k (p.getLsbD j)) rs

/-- The page-register number that an address selects, `addr >> sourceBit` (20_memory.md R102); at most 15 in an accepted
configuration (10_state.md R57). -/
def pageIndex (c : MapperCfg) (a : Addr) : Fin 16 :=
  ⟨a.toNat / 2 ^ c.sourceBit % 16, Nat.mod_lt _ (by decide)⟩

/-- `m.Map(a)` (20_memory.md R102). -/
def mapOne (m : Nat) (c : MapperCfg) (a : Addr) (s : State) : Addr × State :=
  let p := s.pageReg m (pageIndex c a)
  (rewriteBits p a c.slots, { s with latch := driveLatches p 0 s.latch c.lat })

/-- The mappers from number `m` on, in registration order (20_memory.md R104). -/
def mapFrom (m : Nat) (a : Addr) (s : State) : List MapperCfg → Addr × State
  | [] => (a, s)
  | c :: cs => mapFrom (m + 1) (mapOne m c a s).1 (mapOne m c a s).2 cs

/-- `MapChain(a)` (20_memory.md R104). -/
def mapChain (a : Addr) (s : State) : Addr × State := mapFrom 0 a s s.cfg.mappers

/-- The filter of one access lets an entry be seen (20_memory.md R75). -/
def kindVisible (f : Option DevKind) (k : DevKind) : Bool :=
  match f with
  | none => true
  | some want => decide (k = want)

/-- The first entry, with its device number, that the filter shows and that answers the address (20_memory.md R72,
R73). -/
def scanMemFrom (f : Option DevKind) (a : Addr) (s : State) (dev : Nat) : List MemEntry → Option (Nat × MemEntry)
  | [] => none
  | e :: es => if kindVisible f e.kind && hasAddress e.gate a s then some (dev, e) else scanMemFrom f a s (dev + 1) es

/-- The linear scan of the memory list. -/
def scanMem (f : Option DevKind) (a : Addr) (s : State) : Option (Nat × MemEntry) :=
  scanMemFrom f a s 0 s.cfg.memList

/-- The linear scan of the port list (20_memory.md R76). -/
def scanPort (a : Addr) (s : State) : Option PortEntry :=
  s.cfg.portList.find? fun e => hasAddress e.gate a s

/-- `d.Read(a)` of a MemoryDevice (20_memory.md R81). -/
def devRead (dev : Nat) (g : Gate) (a : Addr) (s : State) : Answer Byte :=
  if hasAddress g a s then .ok (s.mem.read (contentKey dev (offsetIn g a))) else .error .invalidAddress

/-- `d.Write(a, v)` of a MemoryDevice (20_memory.md R82). -/
def devWrite (dev : Nat) (g : Gate) (readOnly : Bool) (a : Addr) (v : Byte) (s : State) : Answer State :=
  if !hasAddress g a s then .error .invalidAddress
  else if readOnly then .error .readOnly
  else .ok { s with mem := s.mem.write (contentKey dev (offsetIn g a)) v }

/-- `d.ReadStatus(a, i)` of a MemoryDevice (20_memory.md R83). -/
def devReadStatus (dev : Nat) (g : Gate) (hasStatus : Bool) (a : Addr) (i : Nat) (s : State) : Answer Byte :=
  if !hasStatus then .error .notImplemented
  else if !hasAddress g a s || decide (3 < i) then .error .invalidAddress
  else .ok (s.stat.read (statusKey dev (offsetIn g a) i))

/-- `d.WriteStatus(a, i, v)` of a MemoryDevice (20_memory.md R84). -/
def devWriteStatus (dev : Nat) (g : Gate) (readOnly hasStatus : Bool) (a : Addr) (i : Nat) (v : Byte) (s : State) :
    Answer State :=
  if !hasStatus then .error .notImplemented
  else if !hasAddress g a s || decide (3 < i) then .error .invalidAddress
  else if readOnly then .error .readOnly
  else .ok { s with stat := s.stat.write (statusKey dev (offsetIn g a) i) v }

/-- `m.Write(a, v)`: `PR[(a - mapperBase) mod 4] <- v`, with `mapperBase` the start of the window (20_memory.md R100,
R101). -/
def mapperWrite (m : Nat) (g : Gate) (a : Addr) (v : Byte) (s : State) : State :=
  { s with pages := s.pages.modify m fun pr => pr.set (offsetIn g a % 4) v (by omega) }

/-- The read a foreign device answers: a free byte or NotImplemented (20_memory.md R96). -/
def foreignRead (s : State) : Answer Byte :=
  match Config.foreignRead s.tick with
  | some v => .ok v
  | none => .error .notImplemented

/-- The write a foreign device accepts or declines; it changes no state of the core (20_memory.md R96). -/
def foreignWrite (s : State) : Answer State :=
  if Config.foreignWriteOk s.tick then .ok s else .error .notImplemented

/-- `Read` of a memory-list entry; a mapper window has none (20_memory.md R101). -/
def entryRead (e : MemEntry) (dev : Nat) (a : Addr) (s : State) : Answer Byte :=
  match e.body with
  | .memory _ _ _ => devRead dev e.gate a s
  | .foreign => foreignRead s
  | .mapperWindow _ => .error .notImplemented

/-- `Write` of a memory-list entry. -/
def entryWrite (e : MemEntry) (dev : Nat) (a : Addr) (v : Byte) (s : State) : Answer State :=
  match e.body with
  | .memory ro _ _ => devWrite dev e.gate ro a v s
  | .foreign => foreignWrite s
  | .mapperWindow m => .ok (mapperWrite m e.gate a v s)

/-- `ReadStatus` of a memory-list entry. -/
def entryReadStatus (e : MemEntry) (dev : Nat) (a : Addr) (i : Nat) (s : State) : Answer Byte :=
  match e.body with
  | .memory _ st _ => devReadStatus dev e.gate st a i s
  | .foreign => foreignRead s
  | .mapperWindow _ => .error .notImplemented

/-- `WriteStatus` of a memory-list entry. -/
def entryWriteStatus (e : MemEntry) (dev : Nat) (a : Addr) (i : Nat) (v : Byte) (s : State) : Answer State :=
  match e.body with
  | .memory ro st _ => devWriteStatus dev e.gate ro st a i v s
  | .foreign => foreignWrite s
  | .mapperWindow _ => .error .notImplemented

/-- The access is over: the next one has a tick of its own (log 6). -/
def State.ticked (s : State) : State := { s with tick := s.tick + 1 }

/-- The state after a write access: what the entry stored, or nothing when it reported an error. -/
def finishWrite (s : State) : Answer State → Answer Unit × State
  | .ok t => (.ok (), t.ticked)
  | .error e => (.error e, s.ticked)

/-- `BusReadMem(a, F)` (20_memory.md R73, R78). -/
def busReadMem (a : Addr) (f : Option DevKind) (s : State) : Answer Byte × State :=
  let (a', s) := mapChain a s
  match scanMem f a' s with
  | none => (.ok 0, s.ticked)
  | some (dev, e) => (entryRead e dev a' s, s.ticked)

/-- `BusWriteMem(a, v, F)` (20_memory.md R74, R78). -/
def busWriteMem (a : Addr) (v : Byte) (f : Option DevKind) (s : State) : Answer Unit × State :=
  let (a', s) := mapChain a s
  match scanMem f a' s with
  | none => (.ok (), s.ticked)
  | some (dev, e) => finishWrite s (entryWrite e dev a' v s)

/-- `BusReadStatus(a, i, F)` (20_memory.md R77). -/
def busReadStatus (a : Addr) (i : Nat) (f : Option DevKind) (s : State) : Answer Byte × State :=
  let (a', s) := mapChain a s
  match scanMem f a' s with
  | none => (.ok 0, s.ticked)
  | some (dev, e) => (entryReadStatus e dev a' i s, s.ticked)

/-- `BusWriteStatus(a, i, v, F)` (20_memory.md R77). -/
def busWriteStatus (a : Addr) (i : Nat) (v : Byte) (f : Option DevKind) (s : State) : Answer Unit × State :=
  let (a', s) := mapChain a s
  match scanMem f a' s with
  | none => (.ok (), s.ticked)
  | some (dev, e) => finishWrite s (entryWriteStatus e dev a' i v s)

/-- `BusReadPort(p)`: no mapper, no filter (20_memory.md R76). -/
def busReadPort (p : Addr) (s : State) : Answer Byte × State :=
  match scanPort p s with
  | none => (.ok 0, s.ticked)
  | some e =>
    match e.body with
    | .foreign => (foreignRead s, s.ticked)
    | .mapperWindow _ => (.error .notImplemented, s.ticked)

/-- `BusWritePort(p, v)` (20_memory.md R76). -/
def busWritePort (p : Addr) (v : Byte) (s : State) : Answer Unit × State :=
  match scanPort p s with
  | none => (.ok (), s.ticked)
  | some e =>
    match e.body with
    | .foreign => finishWrite s (foreignWrite s)
    | .mapperWindow m => finishWrite s (.ok (mapperWrite m e.gate p v s))

end Sys2Proof.Machine
end

