-- ==== Sys2Proof/Machine/Flags.lean ====
section
/-! DEFINITION. The adders, flag functions and rotates of both variants (10_state.md R43,
40_a_accumulator_and_register.md R161, 46_b_alu_rotate.md R282, R294). Sums are exact naturals, narrowed at the end. -/

namespace Sys2Proof.Machine

/-- `AddNib(a, b, c)`: result and carry out of bit 3 (40_a_accumulator_and_register.md R161). -/
def addNib (a b : Nibble) (c : Bool) : Nibble × Bool :=
  let t := a.toNat + b.toNat + c.toNat
  (BitVec.ofNat 4 t, decide (16 ≤ t))

/-- The exact sum `a + v + c` as result and carry out of bit 7 (46_b_alu_rotate.md R282). -/
def addByte (a v : Byte) (c : Bool) : Byte × Bool :=
  let t := a.toNat + v.toNat + c.toNat
  (BitVec.ofNat 8 t, decide (256 ≤ t))

/-- The difference `(a - v - c) mod 256` and the borrow `v + c > a` in unbounded integers (46_b_alu_rotate.md R282,
R286). -/
def subByte (a v : Byte) (c : Bool) : Byte × Bool :=
  (BitVec.ofNat 8 (a.toNat + 512 - v.toNat - c.toNat), decide (a.toNat < v.toNat + c.toNat))

/-- `Zf(r)` (10_state.md R43). -/
def zeroFlag (r : Byte) : Bool := r == 0

/-- `Sf(r)` (10_state.md R43). -/
def signFlag (r : Byte) : Bool := r.getLsbD 7

/-- `Pf(r)`: the number of 1 bits is even (10_state.md R43). -/
def parityFlag (r : Byte) : Bool := ((List.range 8).filter fun k => r.getLsbD k).length % 2 == 0

/-- Rotate a nibble left through the carry (40_a_accumulator_and_register.md R185). -/
def rotLeftNib (t : Nibble) (c : Bool) : Nibble × Bool := (t.extractLsb' 0 3 ++ BitVec.ofBool c, t.getLsbD 3)

/-- Rotate a nibble right through the carry (40_a_accumulator_and_register.md R186). -/
def rotRightNib (t : Nibble) (c : Bool) : Nibble × Bool := (BitVec.ofBool c ++ t.extractLsb' 1 3, t.getLsbD 0)

/-- Rotate a byte left with `c` into the vacated bit; the second part is the bit shifted out (46_b_alu_rotate.md R295,
R297). -/
def rotLeftByte (t : Byte) (c : Bool) : Byte × Bool := (t.extractLsb' 0 7 ++ BitVec.ofBool c, t.getLsbD 7)

/-- Rotate a byte right with `c` into the vacated bit; the second part is the bit shifted out (46_b_alu_rotate.md R296,
R298). -/
def rotRightByte (t : Byte) (c : Bool) : Byte × Bool := (BitVec.ofBool c ++ t.extractLsb' 1 7, t.getLsbD 0)

end Sys2Proof.Machine
end

