-- ==== Sys2Proof/Machine/Operands.lean ====
section
/-! DEFINITION. The operand forms: registers, pairs, page-relative and absolute targets, the pointer of `M`, flags by
number, and the addresses variant A presents (10_state.md R14, R22, R41; 42_a_pair_and_ram.md R230, R245). -/

namespace Sys2Proof.Machine

/-- The even register of a pair, which holds the high nibble (10_state.md R22). -/
def evenReg (p : PairA) : RegA := ⟨2 * p.val, by omega⟩

/-- The odd register of a pair, which holds the low nibble (10_state.md R22). -/
def oddReg (p : PairA) : RegA := ⟨2 * p.val + 1, by omega⟩

/-- `x[r]` of variant A. -/
def CpuA.reg (c : CpuA) (r : RegA) : Nibble := c.x[r]

/-- `x[r] <- v` of variant A. -/
def CpuA.setReg (c : CpuA) (r : RegA) (v : Nibble) : CpuA := { c with x := c.x.set r v }

/-- `xp[p] = x[2p] :: x[2p+1]` (10_state.md R22). -/
def CpuA.pair (c : CpuA) (p : PairA) : Byte := c.reg (evenReg p) ++ c.reg (oddReg p)

/-- `xp[p] <- v` (10_state.md R14). -/
def CpuA.setPair (c : CpuA) (p : PairA) (v : Byte) : CpuA :=
  (c.setReg (evenReg p) (v.extractLsb' 4 4)).setReg (oddReg p) (v.extractLsb' 0 4)

/-- `pc[11:8] :: a8` with the `pc` after the fetches (41_a_control_transfer.md R200). -/
def pageTarget (pc : PcA) (a8 : Byte) : PcA := pc.extractLsb' 8 4 ++ a8

/-- The condition of JCN: `c[3]` inverts, `c[2]` accumulator zero, `c[1]` carry set, `c[0]` test input zero
(41_a_control_transfer.md R201). -/
def jcnCond (c acc : Nibble) (cy test : Bool) : Bool :=
  (c.getLsbD 2 && acc == 0 || c.getLsbD 1 && cy || c.getLsbD 0 && !test) != c.getLsbD 3

/-- The bus address of a data access of variant A (42_a_pair_and_ram.md R230). -/
def ramAddr (s : State) : Addr := s.a.rc.setWidth 16

/-- The bus address of a status access of variant A (42_a_pair_and_ram.md R230). -/
def statusAddr (s : State) : Addr := (s.a.rc &&& s.cfg.params.statusAddrMask).setWidth 16

/-- The suggested, not normative, `A_PORT_ADDR` (42_a_pair_and_ram.md R245). -/
def suggestedPort (k : PortKind) (cl : Nibble) (rc : Byte) : Addr :=
  match k with
  | .romPort => (rc.extractLsb' 4 4).setWidth 16
  | .ramPort => 0x10 + (cl.extractLsb' 0 3 ++ rc.extractLsb' 6 2 : BitVec 5).setWidth 16

/-- The entry of an `A_PORT_ADDR` table for these values of `CL` and `RC`. -/
def portTableIndex (cl : Nibble) (rc : Byte) : Fin 4096 :=
  ⟨cl.toNat * 256 + rc.toNat, by have := cl.isLt; have := rc.isLt; omega⟩

/-- The port address variant A presents (42_a_pair_and_ram.md R245, log 8). -/
def portAddr (k : PortKind) (s : State) : Addr :=
  match s.cfg.params.portAddr with
  | .unspecified => Config.portAddr k s.a.cl s.a.rc
  | .suggested => suggestedPort k s.a.cl s.a.rc
  | .table rom ram =>
    match k with
    | .romPort => rom[portTableIndex s.a.cl s.a.rc]
    | .ramPort => ram[portTableIndex s.a.cl s.a.rc]

/-- The position of a register of variant B (10_state.md R40). -/
def regIndex : RegB → Fin 7
  | .A => 0
  | .B => 1
  | .C => 2
  | .D => 3
  | .E => 4
  | .H => 5
  | .L => 6

/-- `x[r]` of variant B. -/
def CpuB.reg (c : CpuB) (r : RegB) : Byte := c.x[regIndex r]

/-- `x[r] <- v` of variant B. -/
def CpuB.setReg (c : CpuB) (r : RegB) (v : Byte) : CpuB := { c with x := c.x.set (regIndex r) v }

/-- `hl = H[5:0] :: L` (10_state.md R41). -/
def CpuB.hl (c : CpuB) : PcB := (c.reg .H).extractLsb' 0 6 ++ c.reg .L

/-- The bus address of `M` (10_state.md R41). -/
def memAddrB (s : State) : Addr := s.b.hl.setWidth 16

/-- `flag(cc)` (47_b_control_io.md R310). -/
def CpuB.flag (c : CpuB) : FlagB → Bool
  | .carry => c.fC
  | .zero => c.fZ
  | .sign => c.fS
  | .parity => c.fP

/-- `SetZSP(r)` (10_state.md R43). -/
def CpuB.setZSP (c : CpuB) (r : Byte) : CpuB := { c with fZ := zeroFlag r, fS := signFlag r, fP := parityFlag r }

end Sys2Proof.Machine
end

