-- ==== Sys2Proof/Machine/Ops.lean ====
section
/-! DEFINITION. The shared operations of the meanings: state updates, raising a typed error, the call stack, the
accesses of an instruction, and the fetch (00_scope.md R15, R16; 10_state.md R28 to R33; 60_exceptions.md R346, R348). -/

namespace Sys2Proof.Machine

/-- The three outcomes of an instruction or a step. -/
abbrev Result := Host.Outcome State Fault Refusal

/-- Replace the CPU of variant A. -/
def State.setA (s : State) (c : CpuA) : State := { s with a := c }

/-- Replace the CPU of variant B. -/
def State.setB (s : State) (c : CpuB) : State := { s with b := c }

/-- `halted <- 1` (10_state.md R34). -/
def State.halt (s : State) : State := { s with halted := true }

/-- `raise E(info)`: the instruction ends and `err` holds the error; nothing else changes (60_exceptions.md R346).
The run loop stops at the next turn of `step`. -/
def State.raise (s : State) (e : TypedError) : State := { s with err := some e }

/-- `Push(v)` (10_state.md R32). -/
def CallStack.push {w d : Nat} (k : CallStack w d) (v : BitVec w) : CallStack w d :=
  { slots := k.slots.set k.sp v
    sp := if h : k.sp.val + 1 < d then ⟨k.sp.val + 1, h⟩ else ⟨0, Nat.lt_of_le_of_lt (Nat.zero_le _) k.sp.isLt⟩
    nest := ⟨min (k.nest.val + 1) d, by omega⟩ }

/-- `Pop()`: the address and the stack after, or `none` for a stack underflow (10_state.md R33). -/
def CallStack.pop {w d : Nat} (k : CallStack w d) : Option (BitVec w × CallStack w d) :=
  if k.sp.val = 0 ∧ k.nest.val = 0 then none
  else
    let sp : Fin d :=
      if k.sp.val = 0 then ⟨d - 1, by have := k.sp.isLt; omega⟩ else ⟨k.sp.val - 1, by have := k.sp.isLt; omega⟩
    some (k.slots[sp], { k with sp := sp, nest := ⟨k.nest.val - 1, by have := k.nest.isLt; omega⟩ })

/-- An instruction marked G has its effect `t` when `A_ADMIT_UNNAMED` holds and raises InvalidOpcode otherwise
(30_encoding.md R136). -/
def admitted (i : Instr) (s : State) (t : Result) : Result :=
  if s.cfg.params.admitUnnamed then t else .next (s.raise (.invalidOpcode i.opcode))

/-- Go on with the value an access answered, or raise its error (60_exceptions.md R348). -/
def onRead (r : Answer Byte × State) (k : Byte → State → State) : Result :=
  match r.1 with
  | .ok v => .next (k v r.2)
  | .error e => .next (r.2.raise e)

/-- Finish after a write access: its error is raised, or discarded under `WRITE_ERR_POLICY = ignore`
(60_exceptions.md R348). -/
def onWrite (r : Answer Unit × State) : Result :=
  match r.1 with
  | .ok _ => .next r.2
  | .error e =>
    match r.2.cfg.params.writeErr with
    | .fault => .next (r.2.raise e)
    | .ignore => .next r.2

/-- Read the RAM cell that `RC` names and go on with its low nibble (42_a_pair_and_ram.md R230, R231). -/
def readRam (s : State) (k : Nibble → State → State) : Result :=
  onRead (busReadMem (ramAddr s) (some .ram) s) fun v t => k (v.extractLsb' 0 4) t

/-- Write the accumulator to the RAM cell that `RC` names (42_a_pair_and_ram.md R230, R231). -/
def writeRam (s : State) : Result :=
  onWrite (busWriteMem (ramAddr s) (s.a.acc.setWidth 8) (some .ram) s)

/-- Read status entry `i` and load its low nibble into the accumulator (42_a_pair_and_ram.md R240). -/
def readStatusToAcc (i : Nat) (s : State) : Result :=
  onRead (busReadStatus (statusAddr s) i (some .ram) s) fun v t => t.setA { t.a with acc := v.extractLsb' 0 4 }

/-- Write the accumulator to status entry `i` (42_a_pair_and_ram.md R236). -/
def writeStatusFromAcc (i : Nat) (s : State) : Result :=
  onWrite (busWriteStatus (statusAddr s) i (s.a.acc.setWidth 8) (some .ram) s)

/-- Write the accumulator of variant A to a port (42_a_pair_and_ram.md R246, R247). -/
def writePortFromAcc (k : PortKind) (s : State) : Result :=
  onWrite (busWritePort (portAddr k s) (s.a.acc.setWidth 8) s)

/-- Read `M` and go on with the byte (10_state.md R41). -/
def readM (s : State) (k : Byte → State → State) : Result := onRead (busReadMem (memAddrB s) none s) k

/-- Write `M` (10_state.md R41). -/
def writeM (v : Byte) (s : State) : Result := onWrite (busWriteMem (memAddrB s) v none s)

/-- Increment a register of variant A modulo 16 (40_a_accumulator_and_register.md R166). -/
def CpuA.incReg (c : CpuA) (r : RegA) : CpuA := c.setReg r (c.reg r + 1)

/-- Set accumulator and carry of variant A. -/
def CpuA.setAccCy (c : CpuA) (p : Nibble × Bool) : CpuA := { c with acc := p.1, cy := p.2 }

/-- Assign the `pc` of variant A. -/
def State.jumpA (s : State) (target : PcA) : State := s.setA { s.a with pc := target }

/-- Assign the `pc` of variant B. -/
def State.jumpB (s : State) (target : PcB) : State := s.setB { s.b with pc := target }

/-- Call of variant A: push the `pc` and jump (41_a_control_transfer.md R204). -/
def State.callA (s : State) (target : PcA) : State := s.setA { s.a with stk := s.a.stk.push s.a.pc, pc := target }

/-- Call of variant B: push the `pc` and jump (47_b_control_io.md R315). -/
def State.callB (s : State) (target : PcB) : State := s.setB { s.b with stk := s.b.stk.push s.b.pc, pc := target }

/-- Return of variant A with a value for the accumulator; an underflow changes nothing but `err`
(41_a_control_transfer.md R205). -/
def State.returnA (s : State) (d : Nibble) : State :=
  match s.a.stk.pop with
  | none => s.raise .stackUnderflow
  | some (v, k) => s.setA { s.a with stk := k, pc := v, acc := d }

/-- Return of variant B; an underflow changes nothing but `err` (47_b_control_io.md R320). -/
def State.returnB (s : State) : State :=
  match s.b.stk.pop with
  | none => s.raise .stackUnderflow
  | some (v, k) => s.setB { s.b with stk := k, pc := v }

/-- The eight accumulator operations of variant B (30_encoding.md R142, 46_b_alu_rotate.md R280). -/
inductive AluOp where
  | ad
  | ac
  | su
  | sb
  | nd
  | xr
  | or
  | cp
  deriving DecidableEq, Repr

/-- Result and carry of an accumulator operation (46_b_alu_rotate.md R283 to R290). -/
def aluCompute (op : AluOp) (a v : Byte) (c : Bool) : Byte × Bool :=
  match op with
  | .ad => addByte a v false
  | .ac => addByte a v c
  | .su => subByte a v false
  | .sb => subByte a v c
  | .nd => (a &&& v, false)
  | .xr => (a ^^^ v, false)
  | .or => (a ||| v, false)
  | .cp => subByte a v false

/-- The operation stores its result; compare does not (46_b_alu_rotate.md R290). -/
def AluOp.stores : AluOp → Bool
  | .cp => false
  | _ => true

/-- Apply an accumulator operation to the second operand `v` (46_b_alu_rotate.md R281 to R290). -/
def CpuB.alu (c : CpuB) (op : AluOp) (v : Byte) : CpuB :=
  let p := aluCompute op (c.reg .A) v c.fC
  let c' := if op.stores then c.setReg .A p.1 else c
  { c'.setZSP p.1 with fC := p.2 }

/-- An accumulator operation with a register operand (46_b_alu_rotate.md R281). -/
def aluReg (op : AluOp) (r : RegB) (s : State) : Result := .next (s.setB (s.b.alu op (s.b.reg r)))

/-- An accumulator operation with the memory operand (46_b_alu_rotate.md R281). -/
def aluMem (op : AluOp) (s : State) : Result := readM s fun v t => t.setB (t.b.alu op v)

/-- An accumulator operation with the immediate operand (46_b_alu_rotate.md R281). -/
def aluImm (op : AluOp) (i8 : Byte) (s : State) : Result := .next (s.setB (s.b.alu op i8))

/-- Write an increment or decrement result: the register and `fZ`, `fS`, `fP`, not `fC` (45_b_move_incdec_halt.md
R267). -/
def CpuB.setIncDec (c : CpuB) (d : RegB) (r : Byte) : CpuB := (c.setReg d r).setZSP r

/-- Write a rotate result: `A` and `fC` only (46_b_alu_rotate.md R294). -/
def CpuB.setRotate (c : CpuB) (p : Byte × Bool) : CpuB := { c.setReg .A p.1 with fC := p.2 }

/-- The bus address of the next fetch of the running variant (10_state.md R28). -/
def fetchAddr (s : State) : Addr :=
  match s.cfg.variant with
  | .A => s.a.pc.setWidth 16
  | .B => s.b.pc.setWidth 16

/-- The kind filter of a fetch (10_state.md R28, 20_memory.md R75). -/
def fetchFilter : Variant → Option DevKind
  | .A => some .rom
  | .B => none

/-- `pc <- (pc + 1) mod 2^PCW` of the running variant (10_state.md R28, R29). -/
def advancePc (s : State) : State :=
  match s.cfg.variant with
  | .A => s.jumpA (s.a.pc + 1)
  | .B => s.jumpB (s.b.pc + 1)

/-- `Fetch()` (10_state.md R28); a fetch that reports an error leaves `pc` (log 10). -/
def fetchByte (s : State) : Answer Byte × State :=
  match busReadMem (fetchAddr s) (fetchFilter s.cfg.variant) s with
  | (.ok b, t) => (.ok b, advancePc t)
  | (.error e, t) => (.error e, t)

/-- Fetch `n` operand bytes in order (30_encoding.md R133, R142). -/
def fetchBytes (s : State) : Nat → Answer (List Byte) × State
  | 0 => (.ok [], s)
  | n + 1 =>
    match fetchByte s with
    | (.error e, t) => (.error e, t)
    | (.ok b, t) =>
      match fetchBytes t n with
      | (.error e, u) => (.error e, u)
      | (.ok bs, u) => (.ok (b :: bs), u)

/-- Fetch and decode one instruction: the opcode byte, the first row that matches it, then the operand bytes the row
asks for (60_exceptions.md R349, R350). A byte that matches no row raises InvalidOpcode (R344). -/
def fetchInstr (s : State) : Answer Instr × State :=
  match fetchByte s with
  | (.error e, t) => (.error e, t)
  | (.ok b, t) =>
    match findRow s.cfg.variant b with
    | none => (.error (.invalidOpcode b), t)
    | some r =>
      match fetchBytes t (r.len - 1) with
      | (.error e, u) => (.error e, u)
      | (.ok bs, u) =>
        match r.instr b bs with
        | none => (.error (.invalidOpcode b), u)
        | some i => (.ok i, u)

end Sys2Proof.Machine
end

