-- ==== Sys2Proof/Machine/AAccumulator.lean ====
section
/-! DEFINITION. Variant A: the register-operand, immediate and accumulator groups (40_a_accumulator_and_register.md) and
the illegal bytes of variant A (30_encoding.md R135). -/

namespace Sys2Proof.Machine

/-- NOP (R162). -/
def execANop (s : State) : Result := admitted .aNop s (.next s)

/-- LDM d (R163). -/
def execALdm (d : Nibble) (s : State) : Result := admitted (.aLdm d) s (.next (s.setA { s.a with acc := d }))

/-- LD Rr (R164). -/
def execALd (r : RegA) (s : State) : Result := admitted (.aLd r) s (.next (s.setA { s.a with acc := s.a.reg r }))

/-- XCH Rr (R165). -/
def execAXch (r : RegA) (s : State) : Result :=
  admitted (.aXch r) s (.next (s.setA { s.a.setReg r s.a.acc with acc := s.a.reg r }))

/-- INC Rr (R166). -/
def execAInc (r : RegA) (s : State) : Result := admitted (.aInc r) s (.next (s.setA (s.a.incReg r)))

/-- ADD Rr (R171). -/
def execAAdd (r : RegA) (s : State) : Result :=
  .next (s.setA (s.a.setAccCy (addNib s.a.acc (s.a.reg r) s.a.cy)))

/-- SUB Rr, with the inverted carry (R172). -/
def execASub (r : RegA) (s : State) : Result :=
  .next (s.setA (s.a.setAccCy (addNib s.a.acc (~~~s.a.reg r) s.a.cy)))

/-- CLB (R180). -/
def execAClb (s : State) : Result := admitted .aClb s (.next (s.setA (s.a.setAccCy (0, false))))

/-- CLC (R181). -/
def execAClc (s : State) : Result := admitted .aClc s (.next (s.setA { s.a with cy := false }))

/-- IAC (R182). -/
def execAIac (s : State) : Result := .next (s.setA (s.a.setAccCy (addNib s.a.acc 1 false)))

/-- CMC (R183). -/
def execACmc (s : State) : Result := admitted .aCmc s (.next (s.setA { s.a with cy := !s.a.cy }))

/-- CMA (R184). -/
def execACma (s : State) : Result := .next (s.setA { s.a with acc := ~~~s.a.acc })

/-- RAL (R185). -/
def execARal (s : State) : Result := .next (s.setA (s.a.setAccCy (rotLeftNib s.a.acc s.a.cy)))

/-- RAR (R186). -/
def execARar (s : State) : Result := .next (s.setA (s.a.setAccCy (rotRightNib s.a.acc s.a.cy)))

/-- TCC (R187). -/
def execATcc (s : State) : Result :=
  admitted .aTcc s (.next (s.setA (s.a.setAccCy ((BitVec.ofBool s.a.cy).setWidth 4, false))))

/-- DAC (R188). -/
def execADac (s : State) : Result := .next (s.setA (s.a.setAccCy (addNib s.a.acc 15 false)))

/-- TCS (R189). -/
def execATcs (s : State) : Result :=
  admitted .aTcs s (.next (s.setA (s.a.setAccCy (if s.a.cy then 10 else 9, false))))

/-- STC (R190). -/
def execAStc (s : State) : Result := admitted .aStc s (.next (s.setA { s.a with cy := true }))

/-- DAA with the open parameter `A_DAA_KEEPS_CARRY` (R191). -/
def execADaa (s : State) : Result :=
  if decide (9 < s.a.acc.toNat) || s.a.cy then
    let p := addNib s.a.acc 6 false
    .next (s.setA (s.a.setAccCy (p.1, p.2 || (s.a.cy && s.cfg.params.daaKeepsCarry))))
  else .next s

/-- KBP through `A_KBP_TABLE` (R192). -/
def execAKbp (s : State) : Result :=
  .next (s.setA { s.a with acc := s.cfg.params.kbpTable[s.a.acc.toNat] })

/-- DCL through `A_DCL_MASK` (R194). -/
def execADcl (s : State) : Result := .next (s.setA { s.a with cl := s.a.acc &&& s.cfg.params.dclMask })

/-- The bytes `0x01` .. `0x0F` raise InvalidOpcode (30_encoding.md R135). -/
def execAIllegalLow (x : Nibble) (s : State) : Result :=
  .next (s.raise (.invalidOpcode (Instr.aIllegalLow x).opcode))

/-- The bytes `0xFE` and `0xFF` raise InvalidOpcode (30_encoding.md R135). -/
def execAIllegalHigh (x : BitVec 1) (s : State) : Result :=
  .next (s.raise (.invalidOpcode (Instr.aIllegalHigh x).opcode))

end Sys2Proof.Machine
end

