-- ==== Sys2Proof/Machine/AControl.lean ====
section
/-! DEFINITION. Variant A: control transfer (41_a_control_transfer.md). The `pc` of the state is the address after the
instruction's bytes (R200). -/

namespace Sys2Proof.Machine

/-- JCN c, a8 (R201). -/
def execAJcn (c : Nibble) (a8 : Byte) (s : State) : Result :=
  if jcnCond c s.a.acc s.a.cy s.a.test then .next (s.jumpA (pageTarget s.a.pc a8)) else .next s

/-- JUN a12 (R203). -/
def execAJun (a12 : PcA) (s : State) : Result := .next (s.jumpA a12)

/-- JMS a12 (R204). -/
def execAJms (a12 : PcA) (s : State) : Result := .next (s.callA a12)

/-- BBL d (R205). -/
def execABbl (d : Nibble) (s : State) : Result := .next (s.returnA d)

/-- ISZ Rr, a8 (R206). -/
def execAIsz (r : RegA) (a8 : Byte) (s : State) : Result :=
  let t := s.setA (s.a.incReg r)
  if t.a.reg r ≠ 0 then .next (t.jumpA (pageTarget t.a.pc a8)) else .next t

/-- JIN Pp (R207). -/
def execAJin (p : PairA) (s : State) : Result :=
  admitted (.aJin p) s (.next (s.jumpA (pageTarget s.a.pc (s.a.pair p))))

end Sys2Proof.Machine
end

