-- ==== Sys2Proof/Machine/APairRam.lean ====
section
/-! DEFINITION. Variant A: register pairs, RAM, status and port instructions (42_a_pair_and_ram.md). -/

namespace Sys2Proof.Machine

/-- FIM Pp, d8 (R221). -/
def execAFim (p : PairA) (d8 : Byte) (s : State) : Result := .next (s.setA (s.a.setPair p d8))

/-- SRC Pp (R222). -/
def execASrc (p : PairA) (s : State) : Result := .next (s.setA { s.a with rc := s.a.pair p })

/-- FIN Pp: read the ROM byte that pair 0 names in the page of the `pc` (R224). -/
def execAFin (p : PairA) (s : State) : Result :=
  admitted (.aFin p) s <|
    onRead (busReadMem ((pageTarget s.a.pc (s.a.pair 0)).setWidth 16) (some .rom) s) fun v t =>
      t.setA (t.a.setPair p v)

/-- WRM (R232). -/
def execAWrm (s : State) : Result := writeRam s

/-- RDM (R233). -/
def execARdm (s : State) : Result := readRam s fun n t => t.setA { t.a with acc := n }

/-- ADM (R234). -/
def execAAdm (s : State) : Result := readRam s fun n t => t.setA (t.a.setAccCy (addNib t.a.acc n t.a.cy))

/-- SBM, with the inverted carry (R235). -/
def execASbm (s : State) : Result := readRam s fun n t => t.setA (t.a.setAccCy (addNib t.a.acc (~~~n) t.a.cy))

/-- WR0 (R236). -/
def execAWr0 (s : State) : Result := writeStatusFromAcc 0 s

/-- WR1 (R237). -/
def execAWr1 (s : State) : Result := writeStatusFromAcc 1 s

/-- WR2 (R238). -/
def execAWr2 (s : State) : Result := writeStatusFromAcc 2 s

/-- WR3 (R239). -/
def execAWr3 (s : State) : Result := writeStatusFromAcc 3 s

/-- RD0 (R240). -/
def execARd0 (s : State) : Result := readStatusToAcc 0 s

/-- RD1 (R241). -/
def execARd1 (s : State) : Result := readStatusToAcc 1 s

/-- RD2 (R242). -/
def execARd2 (s : State) : Result := readStatusToAcc 2 s

/-- RD3 (R243). -/
def execARd3 (s : State) : Result := readStatusToAcc 3 s

/-- WMP (R246). -/
def execAWmp (s : State) : Result := admitted .aWmp s (writePortFromAcc .ramPort s)

/-- WRR (R247). -/
def execAWrr (s : State) : Result := admitted .aWrr s (writePortFromAcc .romPort s)

/-- RDR (R248). -/
def execARdr (s : State) : Result :=
  admitted .aRdr s <|
    onRead (busReadPort (portAddr .romPort s) s) fun v t => t.setA { t.a with acc := v.extractLsb' 0 4 }

/-- WPM raises InvalidOpcode whatever `A_ADMIT_UNNAMED` is (R249). -/
def execAWpm (s : State) : Result := .next (s.raise (.invalidOpcode Instr.aWpm.opcode))

end Sys2Proof.Machine
end

