-- ==== Sys2Proof/Machine/BAlu.lean ====
section
/-! DEFINITION. Variant B: the accumulator ALU group and the rotate group (46_b_alu_rotate.md). -/

namespace Sys2Proof.Machine

/-- ADr (R283). -/
def execBADr (r : RegB) (s : State) : Result := aluReg .ad r s

/-- ADM (R283). -/
def execBADM (s : State) : Result := aluMem .ad s

/-- ADI (R283). -/
def execBADI (i8 : Byte) (s : State) : Result := aluImm .ad i8 s

/-- ACr (R284). -/
def execBACr (r : RegB) (s : State) : Result := aluReg .ac r s

/-- ACM (R284). -/
def execBACM (s : State) : Result := aluMem .ac s

/-- ACI (R284). -/
def execBACI (i8 : Byte) (s : State) : Result := aluImm .ac i8 s

/-- SUr (R285). -/
def execBSUr (r : RegB) (s : State) : Result := aluReg .su r s

/-- SUM (R285). -/
def execBSUM (s : State) : Result := aluMem .su s

/-- SUI (R285). -/
def execBSUI (i8 : Byte) (s : State) : Result := aluImm .su i8 s

/-- SBr (R286). -/
def execBSBr (r : RegB) (s : State) : Result := aluReg .sb r s

/-- SBM (R286). -/
def execBSBM (s : State) : Result := aluMem .sb s

/-- SBI (R286). -/
def execBSBI (i8 : Byte) (s : State) : Result := aluImm .sb i8 s

/-- NDr (R287). -/
def execBNDr (r : RegB) (s : State) : Result := aluReg .nd r s

/-- NDM (R287). -/
def execBNDM (s : State) : Result := aluMem .nd s

/-- NDI (R287). -/
def execBNDI (i8 : Byte) (s : State) : Result := aluImm .nd i8 s

/-- XRr (R288). -/
def execBXRr (r : RegB) (s : State) : Result := aluReg .xr r s

/-- XRM (R288). -/
def execBXRM (s : State) : Result := aluMem .xr s

/-- XRI (R288). -/
def execBXRI (i8 : Byte) (s : State) : Result := aluImm .xr i8 s

/-- ORr (R289). -/
def execBORr (r : RegB) (s : State) : Result := aluReg .or r s

/-- ORM (R289). -/
def execBORM (s : State) : Result := aluMem .or s

/-- ORI (R289). -/
def execBORI (i8 : Byte) (s : State) : Result := aluImm .or i8 s

/-- CPr (R290). -/
def execBCPr (r : RegB) (s : State) : Result := aluReg .cp r s

/-- CPM (R290). -/
def execBCPM (s : State) : Result := aluMem .cp s

/-- CPI (R290). -/
def execBCPI (i8 : Byte) (s : State) : Result := aluImm .cp i8 s

/-- RLC (R295). -/
def execBRLC (s : State) : Result :=
  .next (s.setB (s.b.setRotate (rotLeftByte (s.b.reg .A) ((s.b.reg .A).getLsbD 7))))

/-- RRC (R296). -/
def execBRRC (s : State) : Result :=
  .next (s.setB (s.b.setRotate (rotRightByte (s.b.reg .A) ((s.b.reg .A).getLsbD 0))))

/-- RAL (R297). -/
def execBRAL (s : State) : Result :=
  .next (s.setB (s.b.setRotate (rotLeftByte (s.b.reg .A) s.b.fC)))

/-- RAR (R298). -/
def execBRAR (s : State) : Result :=
  .next (s.setB (s.b.setRotate (rotRightByte (s.b.reg .A) s.b.fC)))

end Sys2Proof.Machine
end

