-- ==== Sys2Proof/Machine/BControl.lean ====
section
/-! DEFINITION. Variant B: control transfer, restart and port I/O (47_b_control_io.md). The `pc` of the state is the
address after the instruction's bytes (R310). -/

namespace Sys2Proof.Machine

/-- JMP a14 (R311). -/
def execBJMP (a14 : PcB) (s : State) : Result := .next (s.jumpB a14)

/-- JFc a14 (R312). -/
def execBJFc (c : FlagB) (a14 : PcB) (s : State) : Result := .next (if s.b.flag c then s else s.jumpB a14)

/-- JTc a14 (R313). -/
def execBJTc (c : FlagB) (a14 : PcB) (s : State) : Result := .next (if s.b.flag c then s.jumpB a14 else s)

/-- CAL a14 (R315). -/
def execBCAL (a14 : PcB) (s : State) : Result := .next (s.callB a14)

/-- CFc a14 (R316). -/
def execBCFc (c : FlagB) (a14 : PcB) (s : State) : Result := .next (if s.b.flag c then s else s.callB a14)

/-- CTc a14 (R317). -/
def execBCTc (c : FlagB) (a14 : PcB) (s : State) : Result := .next (if s.b.flag c then s.callB a14 else s)

/-- RET (R320). -/
def execBRET (s : State) : Result := .next s.returnB

/-- RFc (R321). -/
def execBRFc (c : FlagB) (s : State) : Result := .next (if s.b.flag c then s else s.returnB)

/-- RTc (R322). -/
def execBRTc (c : FlagB) (s : State) : Result := .next (if s.b.flag c then s.returnB else s)

/-- RST n: `Push(pc); pc <- n * 8` (R324). -/
def execBRST (n : BitVec 3) (s : State) : Result := .next (s.callB (n.setWidth 14 <<< 3))

/-- INP n, port address 0..7 (R326). -/
def execBINP (n : BitVec 3) (s : State) : Result :=
  onRead (busReadPort (n.setWidth 16) s) fun v t => t.setB (t.b.setReg .A v)

/-- OUT n, port address 8..31 (R327). -/
def execBOUT (n : BitVec 5) (s : State) : Result := onWrite (busWritePort (n.setWidth 16) (s.b.reg .A) s)

end Sys2Proof.Machine
end

