-- ==== Sys2Proof/Machine/BMove.lean ====
section
/-! DEFINITION. Variant B: halt, moves, increment and decrement (45_b_move_incdec_halt.md) and the illegal bytes of
variant B (30_encoding.md R144). -/

namespace Sys2Proof.Machine

/-- HLT, `0x00` and `0x01` (R261). -/
def execBHltLow (s : State) : Result := .next s.halt

/-- HLT, `0xFF` (R261). -/
def execBHltHigh (s : State) : Result := .next s.halt

/-- Lds, register to register (R262). -/
def execBLr1r2 (d r : RegB) (s : State) : Result := .next (s.setB (s.b.setReg d (s.b.reg r)))

/-- LdM, register from memory (R263). -/
def execBLrM (d : RegB) (s : State) : Result := readM s fun v t => t.setB (t.b.setReg d v)

/-- LMs, register to memory (R264). -/
def execBLMr (r : RegB) (s : State) : Result := writeM (s.b.reg r) s

/-- LdI (R265). -/
def execBLrI (d : RegB) (i8 : Byte) (s : State) : Result := .next (s.setB (s.b.setReg d i8))

/-- LMI (R266). -/
def execBLMI (i8 : Byte) (s : State) : Result := writeM i8 s

/-- INd (R267). -/
def execBINr (d : RegB) (s : State) : Result := .next (s.setB (s.b.setIncDec d (s.b.reg d + 1)))

/-- DCd (R268). -/
def execBDCr (d : RegB) (s : State) : Result := .next (s.setB (s.b.setIncDec d (s.b.reg d - 1)))

/-- The bytes `0x38` and `0x39` raise InvalidOpcode (30_encoding.md R144). -/
def execBIllegalIncDec (x : BitVec 1) (s : State) : Result :=
  .next (s.raise (.invalidOpcode (Instr.bIllegalIncDec x).opcode))

/-- The bytes `0x22`, `0x2A`, `0x32` and `0x3A` raise InvalidOpcode (30_encoding.md R144). -/
def execBIllegalRotate (x : BitVec 2) (s : State) : Result :=
  .next (s.raise (.invalidOpcode (Instr.bIllegalRotate x).opcode))

end Sys2Proof.Machine
end

