-- ==== Sys2Proof/Machine/Dispatch.lean ====
section
/-! DEFINITION. The dispatch of an instruction to its meaning, one arm per constructor of Instr. -/

namespace Sys2Proof.Machine

def exec (i : Instr) (s : State) : Host.Outcome State Fault Refusal :=
  match i with
  | .aNop => Sys2Proof.Machine.execANop s
  | .aJcn c a8 => Sys2Proof.Machine.execAJcn c a8 s
  | .aFim p d8 => Sys2Proof.Machine.execAFim p d8 s
  | .aSrc p => Sys2Proof.Machine.execASrc p s
  | .aFin p => Sys2Proof.Machine.execAFin p s
  | .aJin p => Sys2Proof.Machine.execAJin p s
  | .aJun a12 => Sys2Proof.Machine.execAJun a12 s
  | .aJms a12 => Sys2Proof.Machine.execAJms a12 s
  | .aInc r => Sys2Proof.Machine.execAInc r s
  | .aIsz r a8 => Sys2Proof.Machine.execAIsz r a8 s
  | .aAdd r => Sys2Proof.Machine.execAAdd r s
  | .aSub r => Sys2Proof.Machine.execASub r s
  | .aLd r => Sys2Proof.Machine.execALd r s
  | .aXch r => Sys2Proof.Machine.execAXch r s
  | .aBbl d => Sys2Proof.Machine.execABbl d s
  | .aLdm d => Sys2Proof.Machine.execALdm d s
  | .aWrm => Sys2Proof.Machine.execAWrm s
  | .aWmp => Sys2Proof.Machine.execAWmp s
  | .aWrr => Sys2Proof.Machine.execAWrr s
  | .aWpm => Sys2Proof.Machine.execAWpm s
  | .aWr0 => Sys2Proof.Machine.execAWr0 s
  | .aWr1 => Sys2Proof.Machine.execAWr1 s
  | .aWr2 => Sys2Proof.Machine.execAWr2 s
  | .aWr3 => Sys2Proof.Machine.execAWr3 s
  | .aSbm => Sys2Proof.Machine.execASbm s
  | .aRdm => Sys2Proof.Machine.execARdm s
  | .aRdr => Sys2Proof.Machine.execARdr s
  | .aAdm => Sys2Proof.Machine.execAAdm s
  | .aRd0 => Sys2Proof.Machine.execARd0 s
  | .aRd1 => Sys2Proof.Machine.execARd1 s
  | .aRd2 => Sys2Proof.Machine.execARd2 s
  | .aRd3 => Sys2Proof.Machine.execARd3 s
  | .aClb => Sys2Proof.Machine.execAClb s
  | .aClc => Sys2Proof.Machine.execAClc s
  | .aIac => Sys2Proof.Machine.execAIac s
  | .aCmc => Sys2Proof.Machine.execACmc s
  | .aCma => Sys2Proof.Machine.execACma s
  | .aRal => Sys2Proof.Machine.execARal s
  | .aRar => Sys2Proof.Machine.execARar s
  | .aTcc => Sys2Proof.Machine.execATcc s
  | .aDac => Sys2Proof.Machine.execADac s
  | .aTcs => Sys2Proof.Machine.execATcs s
  | .aStc => Sys2Proof.Machine.execAStc s
  | .aDaa => Sys2Proof.Machine.execADaa s
  | .aKbp => Sys2Proof.Machine.execAKbp s
  | .aDcl => Sys2Proof.Machine.execADcl s
  | .aIllegalLow x => Sys2Proof.Machine.execAIllegalLow x s
  | .aIllegalHigh x => Sys2Proof.Machine.execAIllegalHigh x s
  | .bHltLow => Sys2Proof.Machine.execBHltLow s
  | .bHltHigh => Sys2Proof.Machine.execBHltHigh s
  | .bLr1r2 d r => Sys2Proof.Machine.execBLr1r2 d r s
  | .bLrM d => Sys2Proof.Machine.execBLrM d s
  | .bLMr r => Sys2Proof.Machine.execBLMr r s
  | .bADr r => Sys2Proof.Machine.execBADr r s
  | .bADM => Sys2Proof.Machine.execBADM s
  | .bACr r => Sys2Proof.Machine.execBACr r s
  | .bACM => Sys2Proof.Machine.execBACM s
  | .bSUr r => Sys2Proof.Machine.execBSUr r s
  | .bSUM => Sys2Proof.Machine.execBSUM s
  | .bSBr r => Sys2Proof.Machine.execBSBr r s
  | .bSBM => Sys2Proof.Machine.execBSBM s
  | .bNDr r => Sys2Proof.Machine.execBNDr r s
  | .bNDM => Sys2Proof.Machine.execBNDM s
  | .bXRr r => Sys2Proof.Machine.execBXRr r s
  | .bXRM => Sys2Proof.Machine.execBXRM s
  | .bORr r => Sys2Proof.Machine.execBORr r s
  | .bORM => Sys2Proof.Machine.execBORM s
  | .bCPr r => Sys2Proof.Machine.execBCPr r s
  | .bCPM => Sys2Proof.Machine.execBCPM s
  | .bLrI d i8 => Sys2Proof.Machine.execBLrI d i8 s
  | .bLMI i8 => Sys2Proof.Machine.execBLMI i8 s
  | .bADI i8 => Sys2Proof.Machine.execBADI i8 s
  | .bACI i8 => Sys2Proof.Machine.execBACI i8 s
  | .bSUI i8 => Sys2Proof.Machine.execBSUI i8 s
  | .bSBI i8 => Sys2Proof.Machine.execBSBI i8 s
  | .bNDI i8 => Sys2Proof.Machine.execBNDI i8 s
  | .bXRI i8 => Sys2Proof.Machine.execBXRI i8 s
  | .bORI i8 => Sys2Proof.Machine.execBORI i8 s
  | .bCPI i8 => Sys2Proof.Machine.execBCPI i8 s
  | .bRST n => Sys2Proof.Machine.execBRST n s
  | .bINr d => Sys2Proof.Machine.execBINr d s
  | .bDCr d => Sys2Proof.Machine.execBDCr d s
  | .bRLC => Sys2Proof.Machine.execBRLC s
  | .bRRC => Sys2Proof.Machine.execBRRC s
  | .bRAL => Sys2Proof.Machine.execBRAL s
  | .bRAR => Sys2Proof.Machine.execBRAR s
  | .bRET => Sys2Proof.Machine.execBRET s
  | .bRFc c => Sys2Proof.Machine.execBRFc c s
  | .bRTc c => Sys2Proof.Machine.execBRTc c s
  | .bJMP a14 => Sys2Proof.Machine.execBJMP a14 s
  | .bJFc c a14 => Sys2Proof.Machine.execBJFc c a14 s
  | .bJTc c a14 => Sys2Proof.Machine.execBJTc c a14 s
  | .bCAL a14 => Sys2Proof.Machine.execBCAL a14 s
  | .bCFc c a14 => Sys2Proof.Machine.execBCFc c a14 s
  | .bCTc c a14 => Sys2Proof.Machine.execBCTc c a14 s
  | .bINP n => Sys2Proof.Machine.execBINP n s
  | .bOUT n => Sys2Proof.Machine.execBOUT n s
  | .bIllegalIncDec x => Sys2Proof.Machine.execBIllegalIncDec x s
  | .bIllegalRotate x => Sys2Proof.Machine.execBIllegalRotate x s

end Sys2Proof.Machine
end

