-- ==== Sys2Proof/Machine/HostAccess.lean ====
section
/-! DEFINITION. What the host does to the machine: events between two instructions (10_state.md R25, 60_exceptions.md
R351, 70_reset_and_hazards.md R370) and range-checked access to the register file (00_scope.md R11, 60_exceptions.md
R341). -/

namespace Sys2Proof.Machine

/-- The host's reset: the reset state of the same configuration; the model's own fields go on (log 4). -/
def State.hostReset (s : State) : State :=
  { State.resetWith s.cfg with tick := s.tick, hostQueue := s.hostQueue }

/-- A host event lands between two instructions; `go` changes nothing. -/
def HostEvent.land (s : State) : HostEvent → State
  | .go => s
  | .setTest v => s.setA { s.a with test := v }
  | .setCancel v => { s with cancel := v }
  | .reset => s.hostReset

/-- Host read of register number `i` of the running variant, as a byte (00_scope.md R11). Number 7 of variant B is the
pseudo-register `M`: one Bus read at `hl` (10_state.md R41), whose error, like that of an index out of range, is the
answer to the host (log 19). -/
def hostReadReg (s : State) (i : Nat) : Answer Byte × State :=
  match s.cfg.variant with
  | .A => if h : i < 16 then (.ok (s.a.x[i].setWidth 8), s) else (.error .invalidRegisterIndex, s)
  | .B =>
    if h : i < 7 then (.ok s.b.x[i], s)
    else if i = 7 then busReadMem (memAddrB s) none s
    else (.error .invalidRegisterIndex, s)

/-- Host write of register number `i` of the running variant (00_scope.md R11); variant A takes the low nibble. Number 7
of variant B is the pseudo-register `M`: one Bus write at `hl` (10_state.md R41), whose error, like that of an index out
of range, is the answer to the host (log 19). -/
def hostWriteReg (s : State) (i : Nat) (v : Byte) : Answer Unit × State :=
  match s.cfg.variant with
  | .A =>
    if h : i < 16 then (.ok (), s.setA { s.a with x := s.a.x.set i (v.extractLsb' 0 4) })
    else (.error .invalidRegisterIndex, s)
  | .B =>
    if h : i < 7 then (.ok (), s.setB { s.b with x := s.b.x.set i v })
    else if i = 7 then busWriteMem (memAddrB s) v none s
    else (.error .invalidRegisterIndex, s)

/-- Host read of register pair `p`; variant B has no pairs (10_state.md R22). -/
def hostReadPair (s : State) (p : Nat) : Answer Byte :=
  match s.cfg.variant with
  | .A => if h : p < 8 then .ok (s.a.pair ⟨p, h⟩) else .error .invalidRegisterIndex
  | .B => .error .invalidRegisterIndex

/-- Host write of register pair `p`; variant B has no pairs (10_state.md R22). -/
def hostWritePair (s : State) (p : Nat) (v : Byte) : Answer State :=
  match s.cfg.variant with
  | .A => if h : p < 8 then .ok (s.setA (s.a.setPair ⟨p, h⟩ v)) else .error .invalidRegisterIndex
  | .B => .error .invalidRegisterIndex

/-- Flag number `k` of variant A: `CY` and the test-input flag (10_state.md R24, R25; numbered by log 19). -/
def CpuA.hostFlag (c : CpuA) : Nat → Option Bool
  | 0 => some c.cy
  | 1 => some c.test
  | _ => none

/-- Set flag number `k` of variant A. -/
def CpuA.setHostFlag (c : CpuA) (v : Bool) : Nat → Option CpuA
  | 0 => some { c with cy := v }
  | 1 => some { c with test := v }
  | _ => none

/-- Flag number `k` of variant B, numbered as in a condition field (30_encoding.md R141). -/
def CpuB.hostFlag (c : CpuB) : Nat → Option Bool
  | 0 => some c.fC
  | 1 => some c.fZ
  | 2 => some c.fS
  | 3 => some c.fP
  | _ => none

/-- Set flag number `k` of variant B. -/
def CpuB.setHostFlag (c : CpuB) (v : Bool) : Nat → Option CpuB
  | 0 => some { c with fC := v }
  | 1 => some { c with fZ := v }
  | 2 => some { c with fS := v }
  | 3 => some { c with fP := v }
  | _ => none

/-- What an index that may be out of range answers the host (60_exceptions.md R341). -/
def inRange {α : Type} : Option α → Answer α
  | some x => .ok x
  | none => .error .invalidRegisterIndex

/-- Host read of flag number `k` of the running variant. -/
def hostReadFlag (s : State) (k : Nat) : Answer Bool :=
  match s.cfg.variant with
  | .A => inRange (s.a.hostFlag k)
  | .B => inRange (s.b.hostFlag k)

/-- Host write of flag number `k` of the running variant. -/
def hostWriteFlag (s : State) (k : Nat) (v : Bool) : Answer State :=
  match s.cfg.variant with
  | .A => inRange ((s.a.setHostFlag v k).map s.setA)
  | .B => inRange ((s.b.setHostFlag v k).map s.setB)

end Sys2Proof.Machine
end

