-- ==== Sys2Proof/Machine/Validity.lean ====
section
/-! DEFINITION. The configurations the model runs (10_state.md R57, 92_eei_decisions.md D28). -/

namespace Sys2Proof

/-- The latch an Enabler names exists. -/
def Enabler.ok (nLatches : Nat) : Enabler → Bool
  | .flag k _ => decide (k < nLatches)
  | _ => true

/-- A window is `start <= end` (10_state.md R52) and its Enabler names an existing latch. -/
def Gate.ok (nLatches : Nat) (g : Gate) : Bool :=
  decide (g.start ≤ g.last) && g.enabler.ok nLatches

/-- No two rewrite slots name the same destination bit. -/
def distinctDsts : List (Option Slot) → Bool
  | [] => true
  | none :: ws => distinctDsts ws
  | some w :: ws => (ws.all fun o => o.all fun w' => w'.dst != w.dst) && distinctDsts ws

/-- A mapper configuration the model accepts (10_state.md R57; 93_implementation_defined.md U7): the page index is at
most 15, at most 4 rewrite slots, no two of them with the same destination bit, at most 8 latch slots, and every latch
named exists. -/
def MapperCfg.ok (nLatches : Nat) (m : MapperCfg) : Bool :=
  decide (12 ≤ m.sourceBit) && decide (m.sourceBit ≤ 15) && decide (m.slots.length ≤ 4) && distinctDsts m.slots &&
    decide (m.lat.length ≤ 8) && m.lat.all fun r => r.all fun k => decide (k < nLatches)

/-- The mapper a memory-list register window names exists. -/
def MemBody.ok (nMappers : Nat) : MemBody → Bool
  | .mapperWindow m => decide (m < nMappers)
  | _ => true

/-- The mapper a port-list register window names exists. -/
def PortBody.ok (nMappers : Nat) : PortBody → Bool
  | .mapperWindow m => decide (m < nMappers)
  | .foreign => true

/-- The configurations the model runs; others are refused (92_eei_decisions.md D28). Overlapping windows are accepted
(20_memory.md R72). -/
def MachineConfig.ok (c : MachineConfig) : Bool :=
  c.mappers.all (MapperCfg.ok c.nLatches) &&
    c.memList.all (fun e => e.gate.ok c.nLatches && e.body.ok c.mappers.length) &&
    c.portList.all (fun e => e.gate.ok c.nLatches && e.body.ok c.mappers.length)

end Sys2Proof
end

