-- ==== Sys2Proof/Machine/RunLoop.lean ====
section
/-! DEFINITION. The checks of the run loop (60_exceptions.md R350), and placing an instruction where the next fetch
finds it. -/

namespace Sys2Proof.Machine

/-- The machine's configuration is one the model accepts (92_eei_decisions.md D28). -/
def configOk (s : State) : Bool := s.cfg.ok

/-- Why the run loop takes no step, if it does not: an error that has been raised wins over a cancellation
(60_exceptions.md R349), which is looked at before `halted` (R350). -/
def runEnd (s : State) : Option Fault :=
  match s.err with
  | some e => some (.error e)
  | none => if s.cancel then some .cancelled else if s.halted then some .halted else none

/-- Store a byte where the `k`-th fetch from now finds it and let that fetch's translation take place: `Load` puts it
into the MemoryDevice that answers. Where no MemoryDevice answers, nothing is stored. -/
def placeByte (v : Byte) (s : State) : State :=
  let (a, t) := mapChain (fetchAddr s) s
  let t := advancePc t.ticked
  match scanMem (fetchFilter s.cfg.variant) a (mapChain (fetchAddr s) s).2 with
  | some (dev, ⟨_, g, .memory _ _ _⟩) => { t with mem := t.mem.write (contentKey dev (offsetIn g a)) v }
  | _ => t

/-- Store bytes where the coming fetches find them. -/
def placeBytes (s : State) : List Byte → State
  | [] => s
  | v :: vs => placeBytes (placeByte v s) vs

/-- `s` with these bytes where the coming fetches find them; only the contents of memory differ. -/
def placeInstr (s : State) (bytes : List Byte) : State := { s with mem := (placeBytes s bytes).mem }

/-- A machine of variant `v` whose next step fetches: `s` with no pending host event and a run that has not ended, or
the plain machine of variant `v` after reset when `s` is one of the other variant. -/
def readyFor (v : Variant) (s : State) : State :=
  if s.cfg.variant = v then { s with hostQueue := [], err := none, cancel := false, halted := false }
  else State.resetWith (MachineConfig.plain v)

end Sys2Proof.Machine
end

