-- ==== Sys2Proof/Machine/Step.lean ====
section
/-! DEFINITION. One step of the machine, and a state whose next step fetches a given word of the opcode table. -/

namespace Sys2Proof.Machine

/-- One CPU step: fetch and decode, then the instruction's meaning; an error of the fetch is raised (60_exceptions.md
R348, R350). -/
def cpuStep (s : State) : Host.Outcome State Fault Refusal :=
  match fetchInstr s with
  | (.ok i, t) => exec i t
  | (.error e, t) => .next (t.raise e)

/-- One turn of the run loop (60_exceptions.md R350): a configuration the model does not accept is refused, a run that
has ended stops, otherwise the CPU takes a step. -/
def runTurn (s : State) : Host.Outcome State Fault Refusal :=
  if configOk s then
    match runEnd s with
    | some f => .fault f
    | none => cpuStep s
  else .refused .badConfiguration

/-- One step: the host's next event lands (DESIGN CHOICE, log 4), or the run loop takes a turn. -/
def step (s : State) : Host.Outcome State Fault Refusal :=
  match s.hostQueue with
  | [] => runTurn s
  | .go :: q => runTurn { s with hostQueue := q }
  | e :: q => .next (HostEvent.land { s with hostQueue := q } e)

/-- `s` with the instruction of this word stored where the next step fetches it (log 3): the machine is one of the
word's variant (`s` itself, or a freshly reset plain machine of the other variant), its run has not ended, no host event
is pending, and the bytes stand where the fetches go. -/
def State.withFetchWord (s : State) (nbits w : Nat) : State :=
  let v := tableVariant nbits w
  placeInstr (readyFor v s) (tableBytes v nbits w)

end Sys2Proof.Machine
end

