-- ==== Sys2Proof/Safety.lean ====
section
/-! DEFINITION. The words the claims use: when a step runs an instruction, what a fetch may change, the invariants, and
what the spec's prose lists (bytes that are illegal, who owns a cell). -/

namespace Sys2Proof.Machine

/-- The next step runs an instruction: no host event is pending, the configuration is accepted, and the run has not
ended (60_exceptions.md R350). -/
def Ready (s : State) : Prop :=
  s.hostQueue = [] ∧ s.cfg.ok = true ∧ s.err = none ∧ s.cancel = false ∧ s.halted = false

/-- Two states agree but for latches, the tick and the program counters: what a fetch may change. -/
def FetchFrame (s t : State) : Prop :=
  t = { s with latch := t.latch, tick := t.tick, a := { s.a with pc := t.a.pc }, b := { s.b with pc := t.b.pc } }

/-- Two states agree but for latches and the tick: what a Bus read may change (20_memory.md R112). -/
def ReadFrame (s t : State) : Prop := t = { s with latch := t.latch, tick := t.tick }

/-- Contents and status memory have the canonical form. -/
def Canonical (s : State) : Prop := s.mem.wf = true ∧ s.stat.wf = true

/-- Page registers 4 to 15 of every mapper hold 0 (10_state.md R55). -/
def UpperPagesZero (s : State) : Prop := ∀ pr ∈ s.pages, ∀ k : Fin 16, 4 ≤ k.val → pr[k] = 0

/-- There are as many page-register files as mappers and as many latches as the configuration has. -/
def ShapeOk (s : State) : Prop := s.pages.length = s.cfg.mappers.length ∧ s.latch.length = s.cfg.nLatches

/-- The contents cell at this key belongs to a read-only MemoryDevice. -/
def readOnlyCell (c : MachineConfig) (key : Nat) : Bool :=
  match c.memList[key / 65536]? with
  | some ⟨_, _, .memory ro _ _⟩ => ro
  | _ => false

/-- The contents cell at this key belongs to a ROM-kind entry. -/
def romCell (c : MachineConfig) (key : Nat) : Bool :=
  match c.memList[key / 65536]? with
  | some e => decide (e.kind = .rom)
  | none => false

/-- The first bytes of the variant-A rows marked G (30_encoding.md R134, R136), but for WPM. -/
def unnamedByte (b : Byte) : Bool :=
  let n := b.toNat
  n == 0 || (0x30 ≤ n && n ≤ 0x3F) || (0x60 ≤ n && n ≤ 0x6F) || (0xA0 ≤ n && n ≤ 0xBF) || (0xD0 ≤ n && n ≤ 0xDF) ||
    [0xE1, 0xE2, 0xEA, 0xF0, 0xF1, 0xF3, 0xF7, 0xF9, 0xFA].contains n

/-- The first bytes that raise InvalidOpcode (60_exceptions.md R344). -/
def invalidByte (c : MachineConfig) (b : Byte) : Bool :=
  let n := b.toNat
  match c.variant with
  | .A => (1 ≤ n && n ≤ 0x0F) || n == 0xFE || n == 0xFF || n == 0xE3 || (!c.params.admitUnnamed && unnamedByte b)
  | .B => [0x22, 0x2A, 0x32, 0x3A, 0x38, 0x39].contains n

/-- The value of an Enabler, as 10_state.md R60 defines it: a latch that does not exist is 0 (log 20). -/
def EnablerHolds (s : State) : Enabler → Prop
  | .always => True
  | .never => False
  | .flag k false => s.latch[k]? = some true
  | .flag k true => s.latch[k]? ≠ some true
  | .regEqCL m => s.a.cl.toNat = m.toNat
  | .regEqForeign r m => Config.foreignReg r s.tick = m

/-- `u` is `s` after `n` fetches that answered: the running `pc` is advanced by `n`, and beyond that only latches and
the tick differ (10_state.md R28, 20_memory.md R112). -/
def AfterFetches (s : State) (n : Nat) (u : State) : Prop :=
  FetchFrame s u ∧
  (s.cfg.variant = .A → u.a.pc = s.a.pc + BitVec.ofNat 12 n ∧ u.b.pc = s.b.pc) ∧
  (s.cfg.variant = .B → u.b.pc = s.b.pc + BitVec.ofNat 14 n ∧ u.a.pc = s.a.pc)

/-- The number of 1 bits of a byte. -/
def onesCount (r : Byte) : Nat := ((List.finRange 8).map fun i => (r[i]).toNat).sum

/-- Zero, sign and parity of a result, as 10_state.md R43 defines them, are in the flags. -/
def FlagsOf (c : CpuB) (r : Byte) : Prop :=
  (c.fZ = true ↔ r = 0) ∧ (c.fS = true ↔ 128 ≤ r.toNat) ∧ (c.fP = true ↔ onesCount r % 2 = 0)

/-- The state after pushing the listed return addresses in order. -/
def CallStack.pushAll {w d : Nat} (k : CallStack w d) : List (BitVec w) → CallStack w d
  | [] => k
  | v :: vs => (k.push v).pushAll vs

/-- The addresses that `n` pops answer, ending early at an underflow. -/
def CallStack.popMany {w d : Nat} (k : CallStack w d) : Nat → List (BitVec w)
  | 0 => []
  | n + 1 =>
    match k.pop with
    | none => []
    | some (v, k') => v :: k'.popMany n

/-- The state after `n` fetches on a machine without mappers: the running variant's `pc` and the tick moved on. -/
def fetched (s : State) (n : Nat) : State :=
  match s.cfg.variant with
  | .A => { s with a := { s.a with pc := s.a.pc + BitVec.ofNat 12 n }, tick := s.tick + n }
  | .B => { s with b := { s.b with pc := s.b.pc + BitVec.ofNat 14 n }, tick := s.tick + n }

/-- The byte that the `k`-th fetch from now reads on a machine without mappers, where a MemoryDevice or no device
answers it. -/
def programByte (s : State) (k : Nat) : Option Byte :=
  let t := fetched s k
  match scanMem (fetchFilter s.cfg.variant) (fetchAddr t) t with
  | none => some 0
  | some (dev, e) =>
    match e.body with
    | .memory _ _ _ => some (s.mem.read (contentKey dev (offsetIn e.gate (fetchAddr t))))
    | _ => none

/-- The next `n` program bytes are these. -/
def ProgramBytes (s : State) (bs : List Byte) : Prop :=
  ∀ k, k < bs.length → programByte s k = bs[k]?

/-- Run a meaning `n` times, giving up at a stop. -/
def iterate (f : State → Result) : Nat → State → Option State
  | 0, s => some s
  | n + 1, s =>
    match f s with
    | .next t => iterate f n t
    | _ => none

/-- The state after the translation that a memory or status access at this address begins with: latches driven, one
more access counted (20_memory.md R104, R105). -/
def translated (s : State) (a : Addr) : State := { s with latch := (mapChain a s).2.latch, tick := s.tick + 1 }

/-- The memory-list entry that answers an access at this address, with its device number (20_memory.md R73). -/
def answering (s : State) (a : Addr) (f : Option DevKind) : Option (Nat × MemEntry) :=
  scanMem f (mapChain a s).1 (mapChain a s).2

/-- The key of the contents cell that an access at this address reaches in an entry. -/
def cellKey (s : State) (a : Addr) (dev : Nat) (e : MemEntry) : Nat :=
  contentKey dev (offsetIn e.gate (mapChain a s).1)

/-- What a memory read at this address answers: 0 on open bus, the cell of a MemoryDevice, the free answer of a foreign
device; `none` is NotImplemented (20_memory.md R73, R78, R81, R96, R101). -/
def readAnswer (s : State) (a : Addr) (f : Option DevKind) : Option Byte :=
  match answering s a f with
  | none => some 0
  | some (dev, e) =>
    match e.body with
    | .memory _ _ _ => some (s.mem.read (cellKey s a dev e))
    | .foreign => Config.foreignRead s.tick
    | .mapperWindow _ => none

/-- What a read of status entry `i` at this address answers; `none` is NotImplemented (20_memory.md R77, R83). -/
def statusAnswer (s : State) (a : Addr) (i : Nat) (f : Option DevKind) : Option Byte :=
  match answering s a f with
  | none => some 0
  | some (dev, e) =>
    match e.body with
    | .memory _ true _ => some (s.stat.read (cellKey s a dev e * 4 + i))
    | .memory _ false _ => none
    | .foreign => Config.foreignRead s.tick
    | .mapperWindow _ => none

/-- What a port read answers; `none` is NotImplemented (20_memory.md R76, R96, R101). -/
def portAnswer (s : State) (p : Addr) : Option Byte :=
  match scanPort p s with
  | none => some 0
  | some e =>
    match e.body with
    | .foreign => Config.foreignRead s.tick
    | .mapperWindow _ => none

/-- Where an instruction stands whose write access reported an error, in the state `u` after that access
(60_exceptions.md R348). -/
def writeError (u : State) (e : TypedError) : State :=
  match u.cfg.params.writeErr with
  | .fault => { u with err := some e }
  | .ignore => u

/-- An instruction whose only effect is to load what the answer says: it goes on with the byte, or raises
NotImplemented, in the state `u` after the access. -/
def LoadsAnswer (r : Result) (ans : Option Byte) (u : State) (k : Byte → State) : Prop :=
  (∀ v, ans = some v → r = .next (k v)) ∧ (ans = none → r = .next { u with err := some .notImplemented })

/-- An instruction whose only effect is one memory write of `v` at address `a`: nothing on open bus; the one cell of a
writable MemoryDevice and no other; ReadOnly from a read-only one; what a foreign device decides, with no state of the
core changed; one page register of a mapper (20_memory.md R74, R78, R82, R96, R100). -/
def StoresByte (r : Result) (s : State) (a : Addr) (f : Option DevKind) (v : Byte) : Prop :=
  (answering s a f = none → r = .next (translated s a)) ∧
  ∀ dev e, answering s a f = some (dev, e) →
    (∀ st img, e.body = .memory false st img → ∃ t, r = .next t ∧ t = { translated s a with mem := t.mem } ∧
      t.mem.read (cellKey s a dev e) = v ∧ ∀ k, k ≠ cellKey s a dev e → t.mem.read k = s.mem.read k) ∧
    (∀ st img, e.body = .memory true st img → r = .next (writeError (translated s a) .readOnly)) ∧
    (e.body = .foreign → r = .next (
      if Config.foreignWriteOk s.tick then translated s a else writeError (translated s a) .notImplemented)) ∧
    ∀ m, e.body = .mapperWindow m → r = .next { translated s a with
      pages := s.pages.modify m fun pr => pr.set (offsetIn e.gate (mapChain a s).1 % 4) v (by omega) }

/-- An instruction whose only effect is one write of `v` to status entry `i` at address `a` (20_memory.md R77, R84). -/
def StoresStatus (r : Result) (s : State) (a : Addr) (i : Nat) (f : Option DevKind) (v : Byte) : Prop :=
  (answering s a f = none → r = .next (translated s a)) ∧
  ∀ dev e, answering s a f = some (dev, e) →
    (∀ img, e.body = .memory false true img → ∃ t, r = .next t ∧ t = { translated s a with stat := t.stat } ∧
      t.stat.read (cellKey s a dev e * 4 + i) = v ∧
      ∀ k, k ≠ cellKey s a dev e * 4 + i → t.stat.read k = s.stat.read k) ∧
    (∀ img, e.body = .memory true true img → r = .next (writeError (translated s a) .readOnly)) ∧
    (∀ ro img, e.body = .memory ro false img → r = .next (writeError (translated s a) .notImplemented)) ∧
    (e.body = .foreign → r = .next (
      if Config.foreignWriteOk s.tick then translated s a else writeError (translated s a) .notImplemented)) ∧
    ∀ m, e.body = .mapperWindow m → r = .next (writeError (translated s a) .notImplemented)

/-- An instruction whose only effect is one port write of `v` (20_memory.md R76). -/
def StoresPort (r : Result) (s : State) (p : Addr) (v : Byte) : Prop :=
  (scanPort p s = none → r = .next { s with tick := s.tick + 1 }) ∧
  ∀ e, scanPort p s = some e →
    (e.body = .foreign → r = .next (
      if Config.foreignWriteOk s.tick then { s with tick := s.tick + 1 }
      else writeError { s with tick := s.tick + 1 } .notImplemented)) ∧
    ∀ m, e.body = .mapperWindow m → r = .next { s with
      tick := s.tick + 1
      pages := s.pages.modify m fun pr => pr.set (offsetIn e.gate p % 4) v (by omega) }

/-- A one-byte instruction with this byte whose effect in `s` is to end in `t`. -/
def RunsAs (i : Instr) (s : State) (b : Nat) (t : State) : Prop :=
  encode i = [BitVec.ofNat 8 b] ∧ exec i s = .next t

/-- A one-byte instruction marked G with this byte: it ends in `t` under `A_ADMIT_UNNAMED`, and raises
`InvalidOpcode(b)` otherwise (30_encoding.md R136). -/
def UnnamedRunsAs (i : Instr) (s : State) (b : Nat) (t : State) : Prop :=
  encode i = [BitVec.ofNat 8 b] ∧
  (s.cfg.params.admitUnnamed = true → exec i s = .next t) ∧
  (s.cfg.params.admitUnnamed = false → exec i s = .next { s with err := some (.invalidOpcode (BitVec.ofNat 8 b)) })

/-- A register number of variant B as a number (30_encoding.md R142). -/
def regNumber (r : RegB) : Nat := (regIndex r).val

/-- The zero, sign and parity flags of a result in the CPU of variant B (10_state.md R43). -/
def CpuB.withZSP (c : CpuB) (r : Byte) : CpuB :=
  { c with fZ := decide (r.toNat = 0), fS := decide (128 ≤ r.toNat), fP := decide (onesCount r % 2 = 0) }

/-- `u` with result and carry of an accumulator operation (46_b_alu_rotate.md R280). -/
def aluEnd (u : State) (r : Byte) (c : Bool) : State :=
  { u with b := { ({ u.b with x := u.b.x.set 0 r } : CpuB).withZSP r with fC := c } }

/-- The three forms of an accumulator operation with number `ppp`: encodings, where the second operand comes from, and
the end `k u v` for the operand `v` in the state `u` after it was obtained (46_b_alu_rotate.md R281). -/
def AluForms (ppp : Nat) (reg : RegB → Instr) (mem : Instr) (imm : Byte → Instr) (k : State → Byte → State) : Prop :=
  (∀ r s, RunsAs (reg r) s (0x80 + 8 * ppp + regNumber r) (k s s.b.x[regIndex r])) ∧
  (∀ i8, encode (imm i8) = [BitVec.ofNat 8 (8 * ppp + 4), i8]) ∧
  (∀ i8 s, exec (imm i8) s = .next (k s i8)) ∧
  encode mem = [BitVec.ofNat 8 (0x80 + 8 * ppp + 7)] ∧
  ∀ s, LoadsAnswer (exec mem s) (readAnswer s (memAddrB s) none) (translated s (memAddrB s)) fun v =>
    k (translated s (memAddrB s)) v

/-- The operand bytes of a 14-bit target (20_memory.md R110). -/
def targetBytes (a14 : PcB) : List Byte := [BitVec.ofNat 8 (a14.toNat % 256), BitVec.ofNat 8 (a14.toNat / 256)]

/-- This first byte with any two operand bytes decodes to `k` of the target `hi[5:0] :: lo` (30_encoding.md R142). -/
def DecodesTarget (b : Nat) (k : PcB → Instr) : Prop :=
  ∀ lo hi : Byte,
    decode .B [BitVec.ofNat 8 b, lo, hi] = .ok (k (BitVec.ofNat 14 (hi.toNat % 64 * 256 + lo.toNat)), [])

/-- `k'` is `k` after `Push(v)` (10_state.md R32). -/
def PushedStack {w d : Nat} (k k' : CallStack w d) (v : BitVec w) : Prop :=
  k'.slots = k.slots.set k.sp v ∧ k'.sp.val = (k.sp.val + 1) % d ∧ k'.nest.val = min (k.nest.val + 1) d

/-- `k'` is `k` after a `Pop()` that answers `v` (10_state.md R33). -/
def PoppedStack {w d : Nat} (k k' : CallStack w d) (v : BitVec w) : Prop :=
  k'.slots = k.slots ∧ k'.sp.val = (k.sp.val + d - 1) % d ∧ k'.nest.val = k.nest.val - 1 ∧ v = k.slots[k'.sp]

/-- A call that is taken: it completes in the state with the return address pushed and the `pc` at the target. -/
def CallsB (r : Result) (s : State) (target : PcB) : Prop :=
  ∃ k, PushedStack s.b.stk k s.b.pc ∧ r = .next { s with b := { s.b with stk := k, pc := target } }

/-- A return that is taken: StackUnderflow on an empty stack with nothing else changed, otherwise the popped address
goes to the `pc`. -/
def ReturnsB (r : Result) (s : State) : Prop :=
  (s.b.stk.sp.val = 0 → s.b.stk.nest.val = 0 → r = .next { s with err := some .stackUnderflow }) ∧
  (s.b.stk.sp.val ≠ 0 ∨ s.b.stk.nest.val ≠ 0 →
    ∃ k v, PoppedStack s.b.stk k v ∧ r = .next { s with b := { s.b with stk := k, pc := v } })

end Sys2Proof.Machine

namespace Sys2Proof

/-- The instructions that may change `CY` (10_state.md R24). -/
def Instr.writesCy : Instr → Bool
  | .aAdd _ | .aSub _ | .aAdm | .aSbm | .aIac | .aDac | .aRal | .aRar | .aDaa | .aClb | .aClc | .aCmc | .aStc | .aTcc
  | .aTcs => true
  | _ => false

/-- The instructions that may change `ACC` (10_state.md R35). -/
def Instr.writesAcc : Instr → Bool
  | .aAdd _ | .aSub _ | .aLd _ | .aXch _ | .aLdm _ | .aBbl _ | .aAdm | .aSbm | .aRdm | .aRd0 | .aRd1 | .aRd2 | .aRd3
  | .aRdr | .aClb | .aIac | .aDac | .aCma | .aRal | .aRar | .aTcc | .aTcs | .aDaa | .aKbp => true
  | _ => false

/-- The instructions that may change a register of variant A (10_state.md R35). -/
def Instr.writesRegA : Instr → Bool
  | .aXch _ | .aInc _ | .aIsz _ _ | .aFim _ _ | .aFin _ => true
  | _ => false

/-- The instructions of variant A that may assign `pc` (10_state.md R35). -/
def Instr.writesPcA : Instr → Bool
  | .aJcn _ _ | .aJun _ | .aJms _ | .aJin _ | .aIsz _ _ | .aBbl _ => true
  | _ => false

/-- The accumulator group of variant B (46_b_alu_rotate.md R280). -/
def Instr.isAluB : Instr → Bool
  | .bADr _ | .bADM | .bADI _ | .bACr _ | .bACM | .bACI _ | .bSUr _ | .bSUM | .bSUI _ | .bSBr _ | .bSBM | .bSBI _
  | .bNDr _ | .bNDM | .bNDI _ | .bXRr _ | .bXRM | .bXRI _ | .bORr _ | .bORM | .bORI _ | .bCPr _ | .bCPM
  | .bCPI _ => true
  | _ => false

/-- The rotates of variant B (46_b_alu_rotate.md R294). -/
def Instr.isRotateB : Instr → Bool
  | .bRLC | .bRRC | .bRAL | .bRAR => true
  | _ => false

/-- The increments and decrements of variant B (45_b_move_incdec_halt.md R267, R268). -/
def Instr.isIncDecB : Instr → Bool
  | .bINr _ | .bDCr _ => true
  | _ => false

/-- The calls, returns and the restart of variant B (10_state.md R45). -/
def Instr.usesStackB : Instr → Bool
  | .bCAL _ | .bCFc _ _ | .bCTc _ _ | .bRST _ | .bRET | .bRFc _ | .bRTc _ => true
  | _ => false

/-- The jumps of variant B. -/
def Instr.isJumpB : Instr → Bool
  | .bJMP _ | .bJFc _ _ | .bJTc _ _ => true
  | _ => false

/-- The instructions that may write a contents cell (20_memory.md R74). -/
def Instr.writesContents : Instr → Bool
  | .aWrm | .bLMr _ | .bLMI _ => true
  | _ => false

/-- The instructions that may write a status cell (20_memory.md R77). -/
def Instr.writesStatus : Instr → Bool
  | .aWr0 | .aWr1 | .aWr2 | .aWr3 => true
  | _ => false

/-- The instructions that may write a port (20_memory.md R76). -/
def Instr.writesPort : Instr → Bool
  | .aWmp | .aWrr | .bOUT _ => true
  | _ => false

/-- The instructions that make a memory or status access of their own, and so run the mapper chain (20_memory.md
R105). -/
def Instr.accessesMemory : Instr → Bool
  | .aFin _ | .aRdm | .aAdm | .aSbm | .aRd0 | .aRd1 | .aRd2 | .aRd3 | .aWrm | .aWr0 | .aWr1 | .aWr2 | .aWr3 | .bLrM _
  | .bLMr _ | .bLMI _ | .bADM | .bACM | .bSUM | .bSBM | .bNDM | .bXRM | .bORM | .bCPM => true
  | _ => false

end Sys2Proof

namespace Sys2Proof

/-- The instructions that make a port access (20_memory.md R76). -/
def Instr.accessesPort : Instr → Bool
  | .aWmp | .aWrr | .aRdr | .bINP _ | .bOUT _ => true
  | _ => false

/-- The rows of variant A marked G (30_encoding.md R136). -/
def Instr.isUnnamed : Instr → Bool
  | .aNop | .aFin _ | .aJin _ | .aInc _ | .aLd _ | .aXch _ | .aLdm _ | .aWmp | .aWrr | .aWpm | .aRdr | .aClb | .aClc
  | .aCmc | .aTcc | .aTcs | .aStc => true
  | _ => false

namespace Machine

/-- The bus address of the memory or status access that an instruction makes, if it makes one: FIN reads the page of the
`pc`, WR0 to RD3 make a status access, the others of variant A the data access at `RC`, those of variant B one at `M`. -/
def accessAddr (i : Instr) (s : State) : Addr :=
  match i with
  | .aFin _ => (pageTarget s.a.pc (s.a.pair 0)).setWidth 16
  | .aRd0 | .aRd1 | .aRd2 | .aRd3 | .aWr0 | .aWr1 | .aWr2 | .aWr3 => statusAddr s
  | .aRdm | .aAdm | .aSbm | .aWrm => ramAddr s
  | _ => memAddrB s

/-- `s` after the one Bus access of an instruction, but for what a write stores: the latches that its translation drives
and one more access counted; a port access drives no latch (20_memory.md R76, R105). -/
def afterAccess (i : Instr) (s : State) : State :=
  if i.accessesMemory then translated s (accessAddr i s)
  else if i.accessesPort then { s with tick := s.tick + 1 }
  else s

end Machine

end Sys2Proof
end

