-- ==== Sys2Proof/Certificates/Slice0/Obligations.lean ====
section
/-! DEFINITION. The statements for the provers, one definition each, in the words of Sys2Proof/Safety.lean. -/

open Sys2Proof Sys2Proof.Machine

/-- Decoding an encoded well-formed instruction gives it back, whatever bytes follow (30_encoding.md R132,
30_encoding.md R133, 30_encoding.md R134, 30_encoding.md R141, 30_encoding.md R142, 30_encoding.md R143). -/
def Obligations.DecodeEncodeAgree : Prop :=
  ∀ (i : Instr) (rest : List Byte), i.WellFormed = true → decode i.variant (encode i ++ rest) = .ok (i, rest)

/-- What the decoder answers is well-formed, of the right variant, as long as its encoding; for variant A its bytes
are the encoding (30_encoding.md R131, 30_encoding.md R134, 30_encoding.md R143). -/
def Obligations.DecodedInstructionsAreWellFormed : Prop :=
  ∀ (v : Variant) (bs rest : List Byte) (i : Instr), decode v bs = .ok (i, rest) →
    i.WellFormed = true ∧ i.variant = v ∧ bs.length = (encode i).length + rest.length ∧
      (v = .A → bs = encode i ++ rest) ∧ ∀ b, (findRow .B b).isSome = true

/-- Words written out from the encoding tables decode to the instructions they stand for (30_encoding.md R134,
30_encoding.md R143, 95_test_vectors.md V-ENC-3, V-ENC-4). -/
def Obligations.SampleWordsDecode : Prop :=
  decode .A [0b01110101, 0xAA] = .ok (.aIsz 5 0xAA, []) ∧ decode .A [0b00100110, 0xA7] = .ok (.aFim 3 0xA7, []) ∧
    decode .A [0b01000010, 0x50] = .ok (.aJun 0x250, []) ∧ decode .A [0b10010100] = .ok (.aSub 4, []) ∧
    decode .B [0b01111100, 0x34, 0xFF] = .ok (.bJMP 0x3F34, []) ∧ decode .B [0b11001000] = .ok (.bLr1r2 .B .A, []) ∧
    decode .B [0b01011011] = .ok (.bOUT 13, []) ∧ decode .B [0b00110000] = .ok (.bINr .L, [])

/-- A step raises InvalidOpcode(b) for exactly the first bytes the spec lists, with pc one past the byte (R344). -/
def Obligations.InvalidOpcodesRaise : Prop :=
  ∀ (s t : State) (b : Byte), Ready s → fetchByte s = (.ok b, t) →
    (s.cfg.variant = .A → t.a.pc = s.a.pc + 1) ∧ (s.cfg.variant = .B → t.b.pc = s.b.pc + 1) ∧
    (invalidByte s.cfg b = true → step s = .next { t with err := some (.invalidOpcode b) }) ∧
    ∀ u c, step s = .next u → u.err = some (.invalidOpcode c) → invalidByte s.cfg b = true ∧ c = b

/-- A step runs the instruction that the bytes at pc decode to, in the state after their fetches (10_state.md R28,
60_exceptions.md R350). -/
def Obligations.StepRunsTheDecodedInstruction : Prop :=
  ∀ (s t : State) (bs : List Byte) (i : Instr), Ready s → decode s.cfg.variant bs = .ok (i, []) →
    fetchBytes s bs.length = (.ok bs, t) →
    step s = exec i t ∧ i.WellFormed = true ∧ i.variant = s.cfg.variant ∧ FetchFrame s t ∧
      (s.cfg.variant = .A → t.a.pc = s.a.pc + BitVec.ofNat 12 bs.length ∧ t.b = s.b) ∧
      (s.cfg.variant = .B → t.b.pc = s.b.pc + BitVec.ofNat 14 bs.length ∧ t.a = s.a)

/-- Without mappers a step runs the instruction whose bytes stand at pc in the memory that answers (10_state.md R28,
10_state.md R29, 20_memory.md R104, 60_exceptions.md R350). -/
def Obligations.StepWithoutMappers : Prop :=
  ∀ (s : State) (bs : List Byte) (i : Instr), Ready s → s.cfg.mappers = [] →
    decode s.cfg.variant bs = .ok (i, []) → ProgramBytes s bs → step s = exec i (fetched s bs.length)

/-- A run that has ended takes no step: error first, then cancellation, then halt (60_exceptions.md R346,
60_exceptions.md R350, 60_exceptions.md R351). -/
def Obligations.RunLoopEnds : Prop :=
  ∀ s : State, s.hostQueue = [] →
    (s.cfg.ok = false → step s = .refused .badConfiguration) ∧
    (s.cfg.ok = true → ∀ e, s.err = some e → step s = .fault (.error e)) ∧
    (s.cfg.ok = true → s.err = none → s.cancel = true → step s = .fault .cancelled) ∧
    (s.cfg.ok = true → s.err = none → s.cancel = false → s.halted = true → step s = .fault .halted)

/-- The host sets TEST, sets the cancellation flag or resets between two instructions, whatever state the run is in
(10_state.md R25, 60_exceptions.md R351, 70_reset_and_hazards.md R370, 70_reset_and_hazards.md R372). -/
def Obligations.HostEventsLand : Prop :=
  ∀ (s : State) (q : List HostEvent),
    (∀ v, s.hostQueue = .setTest v :: q → step s = .next { s with hostQueue := q, a := { s.a with test := v } }) ∧
    (∀ v, s.hostQueue = .setCancel v :: q → step s = .next { s with hostQueue := q, cancel := v }) ∧
    (s.hostQueue = .reset :: q → step s = .next { State.resetWith s.cfg with tick := s.tick, hostQueue := q }) ∧
    (s.hostQueue = .go :: q → step s = runTurn { s with hostQueue := q }) ∧
    (s.hostQueue = [] → step s = runTurn s)

/-- Reset puts every piece of state at zero and copies each image into its device (R65, R86). -/
def Obligations.ResetState : Prop :=
  ∀ c : MachineConfig,
    let s := State.resetWith c
    s.cfg = c ∧ (∀ r : Fin 16, s.a.x[r] = 0) ∧ s.a.acc = 0 ∧ s.a.cy = false ∧ s.a.test = false ∧ s.a.cl = 0 ∧
    s.a.rc = 0 ∧ s.a.pc = 0 ∧ (∀ j : Fin 3, s.a.stk.slots[j] = 0) ∧ s.a.stk.sp = 0 ∧ s.a.stk.nest = 0 ∧
    (∀ r : Fin 7, s.b.x[r] = 0) ∧ s.b.fC = false ∧ s.b.fZ = false ∧ s.b.fS = false ∧ s.b.fP = false ∧ s.b.pc = 0 ∧
    (∀ j : Fin 8, s.b.stk.slots[j] = 0) ∧ s.b.stk.sp = 0 ∧ s.b.stk.nest = 0 ∧
    s.halted = false ∧ s.err = none ∧ s.cancel = false ∧ (∀ m k, s.pageReg m k = 0) ∧ (∀ k, s.latchAt k = false) ∧
    (∀ k, s.stat.read k = 0) ∧ fetchAddr s = 0 ∧
    ∀ dev e ro st img, c.memList[dev]? = some e → e.body = .memory ro st img → ∀ k, k < 65536 →
      s.mem.read (contentKey dev k) = if k ≤ e.gate.last.toNat - e.gate.start.toNat then img.getD k 0 else 0

/-- Every step keeps contents and status memory in canonical form (10_state.md R51, 20_memory.md R82, 20_memory.md
R84). -/
def Obligations.MemoryStaysCanonical : Prop :=
  ∀ s t : State, Canonical s → step s = .next t → Canonical t

/-- Page registers 4 to 15 of every mapper hold 0 for ever (10_state.md R55, 20_memory.md R100). -/
def Obligations.UpperPageRegistersStayZero : Prop :=
  ∀ s t : State, UpperPagesZero s → step s = .next t → UpperPagesZero t

/-- The reset state has the invariants: canonical memory, upper page registers zero, as many pages and latches as
configured (10_state.md R55, 10_state.md R59, 10_state.md R65). -/
def Obligations.InvariantsHoldAtReset : Prop :=
  (∀ c, Canonical (State.resetWith c) ∧ UpperPagesZero (State.resetWith c) ∧ ShapeOk (State.resetWith c)) ∧
    Canonical State.reset ∧ UpperPagesZero State.reset ∧ ShapeOk State.reset

/-- No step changes the configuration, and an instruction never touches the other engine (00_scope.md R3, 00_scope.md
R12). -/
def Obligations.ConfigurationAndIdleEngineStay : Prop :=
  ∀ s t : State, step s = .next t →
    t.cfg = s.cfg ∧ (ShapeOk s → ShapeOk t) ∧
    (s.hostQueue = [] → s.cfg.variant = .A → t.b = s.b) ∧ (s.hostQueue = [] → s.cfg.variant = .B → t.a = s.a)

/-- No step but a host reset changes a cell of a read-only MemoryDevice (20_memory.md R82, 20_memory.md R114,
60_exceptions.md R343). -/
def Obligations.ReadOnlyDevicesKeepTheirContents : Prop :=
  ∀ s t : State, Canonical s → s.hostQueue.head? ≠ some .reset → step s = .next t →
    ∀ key, readOnlyCell s.cfg key = true → t.mem.read key = s.mem.read key

/-- A variant-A program cannot change a cell of any ROM-kind device (20_memory.md R75, 20_memory.md R123,
42_a_pair_and_ram.md R230). -/
def Obligations.VariantACannotWriteRom : Prop :=
  ∀ s t : State, s.cfg.variant = .A → Canonical s → s.hostQueue.head? ≠ some .reset → step s = .next t →
    ∀ key, romCell s.cfg key = true → t.mem.read key = s.mem.read key

/-- A step that raises has changed only pc, advanced past the bytes fetched, and the latches of its accesses
(60_exceptions.md R354, 60_exceptions.md R346, 60_exceptions.md R348, 60_exceptions.md R349). -/
def Obligations.ErrorsArePrecise : Prop :=
  ∀ s t : State, Ready s → step s = .next t → t.err ≠ none →
    (∃ n e u, fetchBytes s (n + 1) = (.error e, u) ∧ AfterFetches s n u ∧
      (n = 0 ∨ ∃ bs b, (fetchBytes s n).1 = .ok bs ∧ decode s.cfg.variant bs = .error (.missingOperand b)) ∧
      t = { u with err := some e }) ∨
    ∃ bs i u, fetchBytes s bs.length = (.ok bs, u) ∧ decode s.cfg.variant bs = .ok (i, []) ∧
      AfterFetches s bs.length u ∧
      (((t.err = some .stackUnderflow ∨ ∃ b, t.err = some (.invalidOpcode b)) ∧ t = { u with err := t.err }) ∨
        ((t.err = some .readOnly ∨ t.err = some .notImplemented) ∧ t = { afterAccess i u with err := t.err }))

/-- Only the halt opcodes of variant B set halted; no instruction touches cancel or the configuration (10_state.md
R34, 45_b_move_incdec_halt.md R261). -/
def Obligations.OnlyHaltHalts : Prop :=
  ∀ (i : Instr) (s t : State), exec i s = .next t →
    (t.halted = true ↔ s.halted = true ∨ i = .bHltLow ∨ i = .bHltHigh) ∧
    t.cancel = s.cancel ∧ t.cfg = s.cfg ∧ t.hostQueue = s.hostQueue

/-- Every instruction answers a next state in every state: an error is a next state with err set, the model's choice
(log 9) (60_exceptions.md R346, 60_exceptions.md R360). -/
def Obligations.EveryInstructionAnswersNext : Prop :=
  ∀ (i : Instr) (s : State), ∃ t, exec i s = .next t

/-- Which instructions may change ACC, CY, TEST, CL, RC, the registers, pc and the stack of variant A (10_state.md
R24, 10_state.md R25, 10_state.md R26, 10_state.md R27, 10_state.md R35). -/
def Obligations.VariantAWriters : Prop :=
  ∀ (i : Instr) (s t : State), exec i s = .next t →
    t.a.test = s.a.test ∧ (t.a.cl ≠ s.a.cl → i = .aDcl) ∧ (t.a.rc ≠ s.a.rc → ∃ p, i = .aSrc p) ∧
    (t.a.stk ≠ s.a.stk → (∃ a, i = .aJms a) ∨ ∃ d, i = .aBbl d) ∧ (i.writesPcA = false → t.a.pc = s.a.pc) ∧
    (i.writesCy = false → t.a.cy = s.a.cy) ∧ (i.writesAcc = false → t.a.acc = s.a.acc) ∧
    (i.writesRegA = false → t.a.x = s.a.x)

/-- Which instructions may change the flags, pc and stack of variant B (10_state.md R42, 10_state.md R45). -/
def Obligations.VariantBWriters : Prop :=
  ∀ (i : Instr) (s t : State), exec i s = .next t →
    (i.isAluB = false → i.isRotateB = false → t.b.fC = s.b.fC) ∧
    (i.isAluB = false → i.isIncDecB = false → t.b.fZ = s.b.fZ ∧ t.b.fS = s.b.fS ∧ t.b.fP = s.b.fP) ∧
    (i.usesStackB = false → t.b.stk = s.b.stk) ∧ (i.usesStackB = false → i.isJumpB = false → t.b.pc = s.b.pc)

/-- Which instructions may change contents cells, status cells, page registers and latches (20_memory.md R70,
20_memory.md R76, 20_memory.md R84, 20_memory.md R105). -/
def Obligations.MemoryWriters : Prop :=
  ∀ (i : Instr) (s t : State), exec i s = .next t →
    (i.writesContents = false → t.mem = s.mem) ∧ (i.writesStatus = false → t.stat = s.stat) ∧
    (i.writesContents = false → i.writesPort = false → t.pages = s.pages) ∧
    (i.accessesMemory = false → t.latch = s.latch)

/-- Map rewrites the slot bits from the selected page register and drives the connected latches; MapChain runs every
mapper in order (R102, R104). -/
def Obligations.MapRewritesAndDrives : Prop :=
  (∀ (m : Nat) (c : MapperCfg) (a : Addr) (s : State), 12 ≤ c.sourceBit →
    ∃ k : Fin 16, k.val = a.toNat / 2 ^ c.sourceBit ∧
      (mapOne m c a s).2 = { s with latch := (mapOne m c a s).2.latch } ∧
      (∀ j : Fin 16,
        ((∀ w, some w ∈ c.slots → w.dst ≠ j) → (mapOne m c a s).1[j] = a[j]) ∧
        ∀ (i : Nat) (w : Slot), c.slots[i]? = some (some w) → w.dst = j →
          (∀ (i' : Nat) (w' : Slot), i < i' → c.slots[i']? = some (some w') → w'.dst ≠ j) →
          (mapOne m c a s).1[j] = (s.pageReg m k)[w.src]) ∧
      ∀ n, n < s.latch.length →
        (some n ∉ c.lat → (mapOne m c a s).2.latchAt n = s.latchAt n) ∧
        ∀ j, c.lat[j]? = some (some n) → (∀ j', j < j' → c.lat[j']? ≠ some (some n)) →
          (mapOne m c a s).2.latchAt n = (s.pageReg m k).getLsbD j) ∧
  ∀ (a : Addr) (s : State), ∃ (addr : Nat → Addr) (st : Nat → State), addr 0 = a ∧ st 0 = s ∧
    (∀ m c, s.cfg.mappers[m]? = some c → (addr (m + 1), st (m + 1)) = mapOne m c (addr m) (st m)) ∧
    mapChain a s = (addr s.cfg.mappers.length, st s.cfg.mappers.length)

/-- Map depends on the address and the page registers only, is idempotent on unchanged inputs, and never changes them
(R103). -/
def Obligations.MapIsDeterministic : Prop :=
  (∀ (m : Nat) (c : MapperCfg) (a : Addr) (s t : State), s.pages = t.pages → s.latch.length = t.latch.length →
    (mapOne m c a s).1 = (mapOne m c a t).1 ∧ (mapOne m c a s).2.pages = s.pages ∧
    mapOne m c a (mapOne m c a s).2 = mapOne m c a s ∧
    ∀ n, some n ∈ c.lat → (mapOne m c a s).2.latchAt n = (mapOne m c a t).2.latchAt n) ∧
  ∃ (c : MapperCfg) (a : Addr) (s : State), c.ok 0 = true ∧
    (mapOne 0 c (mapOne 0 c a s).1 (mapOne 0 c a s).2).1 ≠ (mapOne 0 c a s).1

/-- The scans of both lists find the first registered entry that is shown, whose Enabler holds and whose window has
the address (10_state.md R60, 20_memory.md R72, 20_memory.md R73, 20_memory.md R75, 20_memory.md R76, 20_memory.md
R80, 20_memory.md R90). -/
def Obligations.FirstRegisteredDeviceAnswers : Prop :=
  ∀ (a : Addr) (s : State),
    let inside := fun g : Gate => EnablerHolds s g.enabler ∧ g.start.toNat ≤ a.toNat ∧ a.toNat ≤ g.last.toNat
    (∀ f : Option DevKind,
      let seen := fun e : MemEntry => (f = none ∨ f = some e.kind) ∧ inside e.gate
      (∀ n e, scanMem f a s = some (n, e) ↔
        s.cfg.memList[n]? = some e ∧ seen e ∧ ∀ m, m < n → ∀ d, s.cfg.memList[m]? = some d → ¬seen d) ∧
      (scanMem f a s = none ↔ ∀ e ∈ s.cfg.memList, ¬seen e)) ∧
    (∀ e, scanPort a s = some e ↔ ∃ n : Nat, s.cfg.portList[n]? = some e ∧ inside e.gate ∧
      ∀ m, m < n → ∀ d : PortEntry, s.cfg.portList[m]? = some d → ¬inside d.gate) ∧
    (scanPort a s = none ↔ ∀ e ∈ s.cfg.portList, ¬inside e.gate)

/-- An access that no device answers reads 0x00 or drops the write, with no error, fetches included (R78). -/
def Obligations.OpenBus : Prop :=
  (∀ (a : Addr) (f : Option DevKind) (s : State), answering s a f = none →
    busReadMem a f s = (.ok 0x00, translated s a) ∧ (∀ v, busWriteMem a v f s = (.ok (), translated s a)) ∧
    (∀ i, busReadStatus a i f s = (.ok 0x00, translated s a)) ∧
    ∀ i v, busWriteStatus a i v f s = (.ok (), translated s a)) ∧
  (∀ (p : Addr) (s : State), scanPort p s = none →
    busReadPort p s = (.ok 0x00, { s with tick := s.tick + 1 }) ∧
    ∀ v, busWritePort p v s = (.ok (), { s with tick := s.tick + 1 })) ∧
  ∀ s : State, answering s (fetchAddr s) (fetchFilter s.cfg.variant) = none →
    fetchByte s = (.ok 0x00, advancePc (translated s (fetchAddr s)))

/-- What the Bus can see of a MemoryDevice's errors: ReadOnly and NotImplemented, InvalidAddress only for a status
index above 3 (R88). -/
def Obligations.NoInvalidAddressThroughTheBus : Prop :=
  ∀ (a : Addr) (f : Option DevKind) (s : State) (dev : Nat) (e : MemEntry) (ro st : Bool) (img : List Byte),
    answering s a f = some (dev, e) → e.body = .memory ro st img →
    (∃ v, (busReadMem a f s).1 = .ok v) ∧
    (∀ v, (busWriteMem a v f s).1 = if ro then .error .readOnly else .ok ()) ∧
    (∀ i, (st = false → (busReadStatus a i f s).1 = .error .notImplemented) ∧
      (st = true → 3 < i → (busReadStatus a i f s).1 = .error .invalidAddress) ∧
      (st = true → i ≤ 3 → ∃ v, (busReadStatus a i f s).1 = .ok v)) ∧
    ∀ i v, (st = false → (busWriteStatus a i v f s).1 = .error .notImplemented) ∧
      (st = true → 3 < i → (busWriteStatus a i v f s).1 = .error .invalidAddress) ∧
      (st = true → i ≤ 3 → (busWriteStatus a i v f s).1 = if ro then .error .readOnly else .ok ())

/-- Read, Write, ReadStatus and WriteStatus of a MemoryDevice: the checks in order, and the one cell they reach (R81,
R82, R83, R84). -/
def Obligations.MemoryDeviceOperations : Prop :=
  ∀ (dev : Nat) (g : Gate) (a : Addr) (s : State), Canonical s →
    let key := contentKey dev (a.toNat - g.start.toNat)
    (hasAddress g a s = false → devRead dev g a s = .error .invalidAddress ∧
      (∀ ro v, devWrite dev g ro a v s = .error .invalidAddress) ∧
      ∀ i, devReadStatus dev g true a i s = .error .invalidAddress ∧
        ∀ ro v, devWriteStatus dev g ro true a i v s = .error .invalidAddress) ∧
    (∀ i, devReadStatus dev g false a i s = .error .notImplemented ∧
      ∀ ro v, devWriteStatus dev g ro false a i v s = .error .notImplemented) ∧
    (hasAddress g a s = true → devRead dev g a s = .ok (s.mem.read key) ∧
      (∀ v, devWrite dev g true a v s = .error .readOnly) ∧
      (∀ v, ∃ t, devWrite dev g false a v s = .ok t ∧ t = { s with mem := t.mem } ∧ t.mem.read key = v ∧
        ∀ k, k ≠ key → t.mem.read k = s.mem.read k) ∧
      (∀ i, 3 < i → devReadStatus dev g true a i s = .error .invalidAddress ∧
        ∀ ro v, devWriteStatus dev g ro true a i v s = .error .invalidAddress) ∧
      ∀ i, i ≤ 3 → devReadStatus dev g true a i s = .ok (s.stat.read (key * 4 + i)) ∧
        (∀ v, devWriteStatus dev g true true a i v s = .error .readOnly) ∧
        ∀ v, ∃ t, devWriteStatus dev g false true a i v s = .ok t ∧ t = { s with stat := t.stat } ∧
          t.stat.read (key * 4 + i) = v ∧ ∀ k, k ≠ key * 4 + i → t.stat.read k = s.stat.read k)

/-- A load after a store to the same address, with the same filter, returns the stored byte (20_memory.md R73,
20_memory.md R74, 20_memory.md R104, 20_memory.md R120). -/
def Obligations.StoreThenLoad : Prop :=
  ∀ (a : Addr) (f : Option DevKind) (v : Byte) (s : State) (dev : Nat) (e : MemEntry) (st : Bool) (img : List Byte),
    Canonical s → (∀ d ∈ s.cfg.memList, ∀ r w, d.gate.enabler ≠ .regEqForeign r w) →
    answering s a f = some (dev, e) → e.body = .memory false st img →
    ∃ t u, busWriteMem a v f s = (.ok (), t) ∧ busReadMem a f t = (.ok v, u)

/-- A write into a mapper's register window stores one of PR[0] to PR[3] and nothing else (20_memory.md R100,
20_memory.md R101). -/
def Obligations.MapperRegisterWrite : Prop :=
  ∀ (m dev : Nat) (e : MemEntry) (a : Addr) (v : Byte) (s : State), e.body = .mapperWindow m → m < s.pages.length →
    e.gate.start.toNat ≤ a.toNat →
    ∃ t, entryWrite e dev a v s = .ok t ∧ t = { s with pages := t.pages } ∧
      ∀ n k, t.pageReg n k =
        if n = m ∧ k.val = (a.toNat - e.gate.start.toNat) % 4 then v else s.pageReg n k

/-- Host access to the register file is range-checked; register 7 of variant B is M; flag numbers and byte width are
the model's choice (log 19) (00_scope.md R11, 10_state.md R41, 60_exceptions.md R341). -/
def Obligations.HostRegisterAccess : Prop :=
  ∀ s : State,
    (s.cfg.variant = .A →
      (∀ (i : Fin 16) (v : Byte), hostReadReg s i = (.ok (s.a.x[i].setWidth 8), s) ∧
        hostWriteReg s i v = (.ok (), { s with a := { s.a with x := s.a.x.set i (v.extractLsb' 0 4) } })) ∧
      (∀ i v, 16 ≤ i → hostReadReg s i = (.error .invalidRegisterIndex, s) ∧
        hostWriteReg s i v = (.error .invalidRegisterIndex, s)) ∧
      (∀ (p : Fin 8) (v : Byte), hostReadPair s p = .ok (s.a.pair p) ∧
        hostWritePair s p v = .ok { s with a := s.a.setPair p v }) ∧
      (∀ p v, 8 ≤ p → hostReadPair s p = .error .invalidRegisterIndex ∧
        hostWritePair s p v = .error .invalidRegisterIndex) ∧
      (∀ v : Bool, hostReadFlag s 0 = .ok s.a.cy ∧ hostReadFlag s 1 = .ok s.a.test ∧
        hostWriteFlag s 0 v = .ok { s with a := { s.a with cy := v } } ∧
        hostWriteFlag s 1 v = .ok { s with a := { s.a with test := v } }) ∧
      ∀ k v, 2 ≤ k → hostReadFlag s k = .error .invalidRegisterIndex ∧
        hostWriteFlag s k v = .error .invalidRegisterIndex) ∧
    (s.cfg.variant = .B →
      (∀ (i : Fin 7) (v : Byte), hostReadReg s i = (.ok s.b.x[i], s) ∧
        hostWriteReg s i v = (.ok (), { s with b := { s.b with x := s.b.x.set i v } })) ∧
      (let m : Addr := BitVec.ofNat 16 (s.b.x[5].toNat % 64 * 256 + s.b.x[6].toNat)
       hostReadReg s 7 = busReadMem m none s ∧ ∀ v, hostWriteReg s 7 v = busWriteMem m v none s) ∧
      (∀ i v, 8 ≤ i → hostReadReg s i = (.error .invalidRegisterIndex, s) ∧
        hostWriteReg s i v = (.error .invalidRegisterIndex, s)) ∧
      (∀ p v, hostReadPair s p = .error .invalidRegisterIndex ∧ hostWritePair s p v = .error .invalidRegisterIndex) ∧
      (∀ v : Bool, hostReadFlag s 0 = .ok s.b.fC ∧ hostReadFlag s 1 = .ok s.b.fZ ∧ hostReadFlag s 2 = .ok s.b.fS ∧
        hostReadFlag s 3 = .ok s.b.fP ∧ hostWriteFlag s 0 v = .ok { s with b := { s.b with fC := v } } ∧
        hostWriteFlag s 1 v = .ok { s with b := { s.b with fZ := v } } ∧
        hostWriteFlag s 2 v = .ok { s with b := { s.b with fS := v } } ∧
        hostWriteFlag s 3 v = .ok { s with b := { s.b with fP := v } }) ∧
      ∀ k v, 4 ≤ k → hostReadFlag s k = .error .invalidRegisterIndex ∧
        hostWriteFlag s k v = .error .invalidRegisterIndex)

/-- As many pops as pushes, up to the depth, answer the pushed addresses in reverse order (10_state.md R32,
10_state.md R33, 10_state.md R44, 41_a_control_transfer.md R204). -/
def Obligations.StackIsLastInFirstOut : Prop :=
  ∀ (w d : Nat) (k : CallStack w d) (vs : List (BitVec w)), vs.length ≤ d →
    (k.pushAll vs).popMany vs.length = vs.reverse

/-- After DEPTH + 1 pushes, DEPTH + 1 pops deliver all but the oldest address, then the newest again (R383). -/
def Obligations.StackOverflowLosesTheOldest : Prop :=
  (∀ (k : CallStack 12 3) (v0 v1 v2 v3 : BitVec 12), k.sp.val = 0 →
    (k.pushAll [v0, v1, v2, v3]).popMany 4 = [v3, v2, v1, v3]) ∧
  ∀ (k : CallStack 14 8) (v0 : BitVec 14) (vs : List (BitVec 14)) (v8 : BitVec 14), k.sp.val = 0 → vs.length = 7 →
    (k.pushAll (v0 :: vs ++ [v8])).popMany 9 = v8 :: vs.reverse ++ [v8]

/-- NOP, LDM, LD, XCH and INC of variant A, and every row marked G when A_ADMIT_UNNAMED is false (R136, R162, R163,
R164, R165, R166). -/
def Obligations.ALoadsExchangeIncrement : Prop :=
  ∀ s : State,
    UnnamedRunsAs .aNop s 0x00 s ∧
    (∀ d, UnnamedRunsAs (.aLdm d) s (0xD0 + d.toNat) { s with a := { s.a with acc := d } }) ∧
    (∀ r, UnnamedRunsAs (.aLd r) s (0xA0 + r.val) { s with a := { s.a with acc := s.a.x[r] } }) ∧
    (∀ r, UnnamedRunsAs (.aXch r) s (0xB0 + r.val)
      { s with a := { s.a with acc := s.a.x[r], x := s.a.x.set r s.a.acc } }) ∧
    (∀ r, UnnamedRunsAs (.aInc r) s (0x60 + r.val)
      { s with a := { s.a with x := s.a.x.set r (BitVec.ofNat 4 ((s.a.x[r].toNat + 1) % 16)) } }) ∧
    ({} : Params).admitUnnamed = true ∧
    ∀ i : Instr, i.isUnnamed = true → ∃ b, encode i = [b] ∧
      (s.cfg.params.admitUnnamed = false → exec i s = .next { s with err := some (.invalidOpcode b) })

/-- ADD, SUB, IAC and DAC of variant A: result, carry polarity and frame (R171, R172, R182, R188). -/
def Obligations.AAddSubtract : Prop :=
  ∀ s : State,
    (∀ r, RunsAs (.aAdd r) s (0x80 + r.val) { s with a := { s.a with
      acc := BitVec.ofNat 4 (s.a.acc.toNat + s.a.x[r].toNat + s.a.cy.toNat)
      cy := decide (16 ≤ s.a.acc.toNat + s.a.x[r].toNat + s.a.cy.toNat) } }) ∧
    (∀ r, RunsAs (.aSub r) s (0x90 + r.val) { s with a := { s.a with
      acc := BitVec.ofInt 4 ((s.a.acc.toNat : Int) - s.a.x[r].toNat - (1 - s.a.cy.toNat))
      cy := decide (s.a.x[r].toNat + (1 - s.a.cy.toNat) ≤ s.a.acc.toNat) } }) ∧
    RunsAs .aIac s 0xF2 { s with a := { s.a with
      acc := BitVec.ofNat 4 (s.a.acc.toNat + 1), cy := decide (s.a.acc.toNat = 15) } } ∧
    RunsAs .aDac s 0xF8 { s with a := { s.a with
      acc := BitVec.ofInt 4 ((s.a.acc.toNat : Int) - 1), cy := decide (s.a.acc.toNat ≠ 0) } }

/-- RAL and RAR of variant A: a 5-bit ring through the carry, restored by five applications (R185, R186). -/
def Obligations.ARotates : Prop :=
  ∀ s : State,
    (∃ n c, RunsAs .aRal s 0xF5 { s with a := { s.a with acc := n, cy := c } } ∧
      n.toNat = 2 * (s.a.acc.toNat % 8) + s.a.cy.toNat ∧ c = s.a.acc[3]) ∧
    (∃ n c, RunsAs .aRar s 0xF6 { s with a := { s.a with acc := n, cy := c } } ∧
      n.toNat = 8 * s.a.cy.toNat + s.a.acc.toNat / 2 ∧ c = s.a.acc[0]) ∧
    iterate (exec .aRal) 5 s = some s ∧ iterate (exec .aRar) 5 s = some s

/-- CLB, CLC, CMC, CMA, TCC, TCS and STC of variant A (R180, R181, R183, R184, R187, R189, R190). -/
def Obligations.ACarryAndClear : Prop :=
  ∀ s : State,
    UnnamedRunsAs .aClb s 0xF0 { s with a := { s.a with acc := 0, cy := false } } ∧
    UnnamedRunsAs .aClc s 0xF1 { s with a := { s.a with cy := false } } ∧
    UnnamedRunsAs .aCmc s 0xF3 { s with a := { s.a with cy := !s.a.cy } } ∧
    RunsAs .aCma s 0xF4 { s with a := { s.a with acc := BitVec.ofNat 4 (15 - s.a.acc.toNat) } } ∧
    UnnamedRunsAs .aTcc s 0xF7 { s with a := { s.a with acc := BitVec.ofNat 4 s.a.cy.toNat, cy := false } } ∧
    UnnamedRunsAs .aTcs s 0xF9 { s with a := { s.a with
      acc := BitVec.ofNat 4 (9 + s.a.cy.toNat), cy := false } } ∧
    UnnamedRunsAs .aStc s 0xFA { s with a := { s.a with cy := true } }

/-- DAA, KBP and DCL of variant A, with their open parameters (R191, R192, R194). -/
def Obligations.ADecimalKeyboardDcl : Prop :=
  ∀ s : State,
    (s.a.acc.toNat ≤ 9 → s.a.cy = false → RunsAs .aDaa s 0xFB s) ∧
    (9 < s.a.acc.toNat ∨ s.a.cy = true → RunsAs .aDaa s 0xFB { s with a := { s.a with
      acc := BitVec.ofNat 4 (s.a.acc.toNat + 6)
      cy := if 16 ≤ s.a.acc.toNat + 6 then true else s.cfg.params.daaKeepsCarry && s.a.cy } }) ∧
    RunsAs .aKbp s 0xFC { s with a := { s.a with acc := s.cfg.params.kbpTable[s.a.acc.toNat] } } ∧
    (∀ n : Fin 16, ({} : Params).kbpTable[n].toNat = if n.val ≤ 4 then n.val else 15) ∧
    ({} : Params).daaKeepsCarry = true ∧ ({} : Params).dclMask = 0xF ∧
    RunsAs .aDcl s 0xFD { s with a := { s.a with cl := s.a.acc &&& s.cfg.params.dclMask } } ∧
    ∀ t m, exec .aDcl s = .next t → (evalEnabler t (.regEqCL m) = true ↔
      m.toNat = (s.a.acc &&& s.cfg.params.dclMask).toNat)

/-- JCN jumps within the page of pc iff the OR of the selected conditions, inverted by bit 3, holds (R201). -/
def Obligations.AConditionalJump : Prop :=
  ∀ (f : Nibble) (a8 : Byte) (s : State),
    let hit := (f[2] = true ∧ s.a.acc = 0) ∨ (f[1] = true ∧ s.a.cy = true) ∨ (f[0] = true ∧ s.a.test = false)
    let taken := if f[3] = true then ¬hit else hit
    encode (.aJcn f a8) = [BitVec.ofNat 8 (0x10 + f.toNat), a8] ∧
    (taken → exec (.aJcn f a8) s = .next { s with a := { s.a with
      pc := BitVec.ofNat 12 (s.a.pc.toNat / 256 * 256 + a8.toNat) } }) ∧
    (¬taken → exec (.aJcn f a8) s = .next s)

/-- JUN, JMS and BBL of variant A (R203, R204, R205). -/
def Obligations.AJumpCallReturn : Prop :=
  ∀ s : State,
    (∀ a12, encode (.aJun a12) = [BitVec.ofNat 8 (0x40 + a12.toNat / 256), BitVec.ofNat 8 (a12.toNat % 256)] ∧
      exec (.aJun a12) s = .next { s with a := { s.a with pc := a12 } }) ∧
    (∀ a12, encode (.aJms a12) = [BitVec.ofNat 8 (0x50 + a12.toNat / 256), BitVec.ofNat 8 (a12.toNat % 256)] ∧
      ∃ k, PushedStack s.a.stk k s.a.pc ∧
        exec (.aJms a12) s = .next { s with a := { s.a with stk := k, pc := a12 } }) ∧
    ∀ d, encode (.aBbl d) = [BitVec.ofNat 8 (0xC0 + d.toNat)] ∧
      (s.a.stk.sp.val = 0 → s.a.stk.nest.val = 0 →
        exec (.aBbl d) s = .next { s with err := some .stackUnderflow }) ∧
      (s.a.stk.sp.val ≠ 0 ∨ s.a.stk.nest.val ≠ 0 → ∃ k v, PoppedStack s.a.stk k v ∧
        exec (.aBbl d) s = .next { s with a := { s.a with stk := k, pc := v, acc := d } })

/-- ISZ and JIN of variant A, relative to the page of pc after the fetches (R206, R207). -/
def Obligations.AIszAndJin : Prop :=
  ∀ s : State,
    (∀ r a8, encode (.aIsz r a8) = [BitVec.ofNat 8 (0x70 + r.val), a8] ∧
      (s.a.x[r].toNat = 15 → exec (.aIsz r a8) s = .next { s with a := { s.a with x := s.a.x.set r 0 } }) ∧
      (s.a.x[r].toNat ≠ 15 → exec (.aIsz r a8) s = .next { s with a := { s.a with
        x := s.a.x.set r (s.a.x[r] + 1)
        pc := BitVec.ofNat 12 (s.a.pc.toNat / 256 * 256 + a8.toNat) } })) ∧
    ∀ p, UnnamedRunsAs (.aJin p) s (0x31 + 2 * p.val) { s with a := { s.a with
      pc := BitVec.ofNat 12 (s.a.pc.toNat / 256 * 256 + 16 * s.a.x[evenReg p].toNat + s.a.x[oddReg p].toNat) } }

/-- FIM writes both nibbles of a pair; SRC copies a pair into RC (R221, R222). -/
def Obligations.APairsAndLatch : Prop :=
  ∀ (p : PairA) (s : State),
    (∀ d8, encode (.aFim p d8) = [BitVec.ofNat 8 (0x20 + 2 * p.val), d8] ∧
      ∃ t, exec (.aFim p d8) s = .next t ∧ t = { s with a := { s.a with x := t.a.x } } ∧ t.a.pair p = d8 ∧
        t.a.x[evenReg p].toNat = d8.toNat / 16 ∧ t.a.x[oddReg p].toNat = d8.toNat % 16 ∧
        ∀ r : RegA, r ≠ evenReg p → r ≠ oddReg p → t.a.x[r] = s.a.x[r]) ∧
    RunsAs (.aSrc p) s (0x21 + 2 * p.val) { s with a := { s.a with
      rc := BitVec.ofNat 8 (16 * s.a.x[evenReg p].toNat + s.a.x[oddReg p].toNat) } }

/-- FIN reads the ROM-kind byte that pair 0 names in the page of pc into a pair (R224). -/
def Obligations.AFetchIndirect : Prop :=
  ∀ (p : PairA) (s : State),
    let a : Addr := BitVec.ofNat 16 (s.a.pc.toNat / 256 * 256 + 16 * s.a.x[evenReg 0].toNat + s.a.x[oddReg 0].toNat)
    encode (.aFin p) = [BitVec.ofNat 8 (0x30 + 2 * p.val)] ∧
    (s.cfg.params.admitUnnamed = true →
      LoadsAnswer (exec (.aFin p) s) (readAnswer s a (some .rom)) (translated s a) fun v =>
        { translated s a with a := { s.a with x :=
          (s.a.x.set (evenReg p) (BitVec.ofNat 4 (v.toNat / 16))).set (oddReg p) (BitVec.ofNat 4 (v.toNat % 16)) } }) ∧
    (s.cfg.params.admitUnnamed = false →
      exec (.aFin p) s = .next { s with err := some (.invalidOpcode (BitVec.ofNat 8 (0x30 + 2 * p.val))) })

/-- WRM stores the accumulator, high nibble 0, into the RAM-kind cell that RC names, and nowhere else (R232). -/
def Obligations.AWriteRam : Prop :=
  ∀ s : State, Canonical s → encode .aWrm = [0xE0] ∧
    StoresByte (exec .aWrm s) s (s.a.rc.setWidth 16) (some .ram) (s.a.acc.setWidth 8)

/-- RDM, ADM and SBM read the low nibble of the RAM-kind cell that RC names (R233, R234, R235). -/
def Obligations.AReadRam : Prop :=
  ∀ s : State,
    let a : Addr := s.a.rc.setWidth 16
    let u := translated s a
    let ans := readAnswer s a (some .ram)
    encode .aRdm = [0xE9] ∧ encode .aAdm = [0xEB] ∧ encode .aSbm = [0xE8] ∧
    (LoadsAnswer (exec .aRdm s) ans u fun v => { u with a := { s.a with acc := BitVec.ofNat 4 (v.toNat % 16) } }) ∧
    (LoadsAnswer (exec .aAdm s) ans u fun v => { u with a := { s.a with
      acc := BitVec.ofNat 4 (s.a.acc.toNat + v.toNat % 16 + s.a.cy.toNat)
      cy := decide (16 ≤ s.a.acc.toNat + v.toNat % 16 + s.a.cy.toNat) } }) ∧
    LoadsAnswer (exec .aSbm s) ans u fun v => { u with a := { s.a with
      acc := BitVec.ofInt 4 ((s.a.acc.toNat : Int) - (v.toNat % 16 : Nat) - (1 - s.a.cy.toNat))
      cy := decide (v.toNat % 16 + (1 - s.a.cy.toNat) ≤ s.a.acc.toNat) } }

/-- WR0 to WR3 store the accumulator into one status entry of the RAM-kind cell that RC names (R236, R237, R238,
R239). -/
def Obligations.AWriteStatus : Prop :=
  ∀ s : State, Canonical s →
    let a : Addr := (s.a.rc &&& s.cfg.params.statusAddrMask).setWidth 16
    let v : Byte := s.a.acc.setWidth 8
    encode .aWr0 = [0xE4] ∧ encode .aWr1 = [0xE5] ∧ encode .aWr2 = [0xE6] ∧ encode .aWr3 = [0xE7] ∧
    StoresStatus (exec .aWr0 s) s a 0 (some .ram) v ∧ StoresStatus (exec .aWr1 s) s a 1 (some .ram) v ∧
    StoresStatus (exec .aWr2 s) s a 2 (some .ram) v ∧ StoresStatus (exec .aWr3 s) s a 3 (some .ram) v

/-- RD0 to RD3 load the low nibble of one status entry of the RAM-kind cell that RC names (R240, R241, R242, R243). -/
def Obligations.AReadStatus : Prop :=
  ∀ s : State,
    let a : Addr := (s.a.rc &&& s.cfg.params.statusAddrMask).setWidth 16
    let u := translated s a
    let k : Byte → State := fun v => { u with a := { s.a with acc := BitVec.ofNat 4 (v.toNat % 16) } }
    encode .aRd0 = [0xEC] ∧ encode .aRd1 = [0xED] ∧ encode .aRd2 = [0xEE] ∧ encode .aRd3 = [0xEF] ∧
    LoadsAnswer (exec .aRd0 s) (statusAnswer s a 0 (some .ram)) u k ∧
    LoadsAnswer (exec .aRd1 s) (statusAnswer s a 1 (some .ram)) u k ∧
    LoadsAnswer (exec .aRd2 s) (statusAnswer s a 2 (some .ram)) u k ∧
    LoadsAnswer (exec .aRd3 s) (statusAnswer s a 3 (some .ram)) u k

/-- WMP, WRR and RDR of variant A at the port addresses of A_PORT_ADDR, any function or the suggested one (model's
choice, log 8) (00_scope.md R10, 42_a_pair_and_ram.md R245, 42_a_pair_and_ram.md R246, 42_a_pair_and_ram.md R247,
42_a_pair_and_ram.md R248). -/
def Obligations.APorts : Prop :=
  (∀ f : PortKind → Nibble → Byte → Addr, ∃ c : PortAddrChoice, ∀ (s : State) (k : PortKind),
    s.cfg.params.portAddr = c → portAddr k s = f k s.a.cl s.a.rc) ∧
  ∀ s : State,
    let u : State := { s with tick := s.tick + 1 }
    encode .aWmp = [0xE1] ∧ encode .aWrr = [0xE2] ∧ encode .aRdr = [0xEA] ∧
    (s.cfg.params.admitUnnamed = true →
      StoresPort (exec .aWmp s) s (portAddr .ramPort s) (s.a.acc.setWidth 8) ∧
      StoresPort (exec .aWrr s) s (portAddr .romPort s) (s.a.acc.setWidth 8) ∧
      LoadsAnswer (exec .aRdr s) (portAnswer s (portAddr .romPort s)) u fun v =>
        { u with a := { s.a with acc := BitVec.ofNat 4 (v.toNat % 16) } }) ∧
    (s.cfg.params.admitUnnamed = false →
      exec .aWmp s = .next { s with err := some (.invalidOpcode 0xE1) } ∧
      exec .aWrr s = .next { s with err := some (.invalidOpcode 0xE2) } ∧
      exec .aRdr s = .next { s with err := some (.invalidOpcode 0xEA) }) ∧
    (s.cfg.params.portAddr = .suggested →
      (portAddr .ramPort s).toNat = 16 + s.a.cl.toNat % 8 * 4 + s.a.rc.toNat / 64 ∧
      (portAddr .romPort s).toNat = s.a.rc.toNat / 16)

/-- WPM and the illegal bytes of both variants raise InvalidOpcode with nothing else changed (30_encoding.md R135,
30_encoding.md R144, 42_a_pair_and_ram.md R249, 60_exceptions.md R344). -/
def Obligations.IllegalInstructionsRaise : Prop :=
  ∀ s : State,
    let raises := fun (v : Variant) (i : Instr) (b : Nat) => decode v [BitVec.ofNat 8 b] = .ok (i, []) ∧
      RunsAs i s b { s with err := some (.invalidOpcode (BitVec.ofNat 8 b)) }
    raises .A .aWpm 0xE3 ∧
    (∀ x : Nibble, x ≠ 0 → raises .A (.aIllegalLow x) x.toNat) ∧
    (∀ x, raises .A (.aIllegalHigh x) (0xFE + x.toNat)) ∧
    (∀ x, raises .B (.bIllegalIncDec x) (0x38 + x.toNat)) ∧
    ∀ x, raises .B (.bIllegalRotate x) (0x22 + 8 * x.toNat)

/-- HLT sets halted and changes nothing else; 0x00, 0x01 and 0xFF encode it; the halted run ends in a fault (model's
choice, log 9) (45_b_move_incdec_halt.md R261, 60_exceptions.md R350). -/
def Obligations.BHalt : Prop :=
  decode .B [0x00] = .ok (.bHltLow, []) ∧ decode .B [0x01] = .ok (.bHltLow, []) ∧
  decode .B [0xFF] = .ok (.bHltHigh, []) ∧
  ∀ s : State, exec .bHltLow s = .next { s with halted := true } ∧ exec .bHltHigh s = .next { s with halted := true } ∧
    (Ready s → step { s with halted := true } = .fault .halted) ∧
    ∀ i t, exec i s = .next t → s.halted = true → t.halted = true

/-- Lr1r2, LrI and LrM of variant B (R262, R263, R265). -/
def Obligations.BMovesIntoRegisters : Prop :=
  ∀ (d : RegB) (s : State),
    (∀ r, RunsAs (.bLr1r2 d r) s (0xC0 + 8 * regNumber d + regNumber r)
      { s with b := { s.b with x := s.b.x.set (regIndex d) s.b.x[regIndex r] } }) ∧
    (∀ i8, encode (.bLrI d i8) = [BitVec.ofNat 8 (8 * regNumber d + 6), i8] ∧
      exec (.bLrI d i8) s = .next { s with b := { s.b with x := s.b.x.set (regIndex d) i8 } }) ∧
    encode (.bLrM d) = [BitVec.ofNat 8 (0xC0 + 8 * regNumber d + 7)] ∧
    let a : Addr := BitVec.ofNat 16 (s.b.x[5].toNat % 64 * 256 + s.b.x[6].toNat)
    LoadsAnswer (exec (.bLrM d) s) (readAnswer s a none) (translated s a) fun v =>
      { translated s a with b := { s.b with x := s.b.x.set (regIndex d) v } }

/-- LMr and LMI of variant B store one byte at H[5:0] :: L and nowhere else (R264, R266). -/
def Obligations.BStores : Prop :=
  ∀ s : State, Canonical s →
    let a : Addr := BitVec.ofNat 16 (s.b.x[5].toNat % 64 * 256 + s.b.x[6].toNat)
    (∀ r, encode (.bLMr r) = [BitVec.ofNat 8 (0xF8 + regNumber r)] ∧
      StoresByte (exec (.bLMr r) s) s a none s.b.x[regIndex r]) ∧
    ∀ i8, encode (.bLMI i8) = [0x3E, i8] ∧ StoresByte (exec (.bLMI i8) s) s a none i8

/-- INr and DCr of variant B: result, zero, sign and parity, not carry (R267, R268). -/
def Obligations.BIncrementDecrement : Prop :=
  ∀ (d : RegB) (s : State), d ≠ .A →
    let up : Byte := BitVec.ofNat 8 ((s.b.x[regIndex d].toNat + 1) % 256)
    let down : Byte := BitVec.ofNat 8 ((s.b.x[regIndex d].toNat + 255) % 256)
    RunsAs (.bINr d) s (8 * regNumber d)
      { s with b := ({ s.b with x := s.b.x.set (regIndex d) up } : CpuB).withZSP up } ∧
    RunsAs (.bDCr d) s (8 * regNumber d + 1)
      { s with b := ({ s.b with x := s.b.x.set (regIndex d) down } : CpuB).withZSP down } ∧
    decode .B [0x00] = .ok (.bHltLow, []) ∧ decode .B [0x01] = .ok (.bHltLow, []) ∧
    decode .B [0x38] = .ok (.bIllegalIncDec 0, []) ∧ decode .B [0x39] = .ok (.bIllegalIncDec 1, [])

/-- AD, AC, SU and SB of variant B in their register, memory and immediate forms (R281, R282, R283, R284, R285, R286).
-/
def Obligations.BArithmetic : Prop :=
  AluForms 0 .bADr .bADM .bADI (fun u v =>
    aluEnd u (BitVec.ofNat 8 (u.b.x[0].toNat + v.toNat)) (decide (256 ≤ u.b.x[0].toNat + v.toNat))) ∧
  AluForms 1 .bACr .bACM .bACI (fun u v =>
    aluEnd u (BitVec.ofNat 8 (u.b.x[0].toNat + v.toNat + u.b.fC.toNat))
      (decide (256 ≤ u.b.x[0].toNat + v.toNat + u.b.fC.toNat))) ∧
  AluForms 2 .bSUr .bSUM .bSUI (fun u v =>
    aluEnd u (BitVec.ofInt 8 ((u.b.x[0].toNat : Int) - v.toNat)) (decide (u.b.x[0].toNat < v.toNat))) ∧
  AluForms 3 .bSBr .bSBM .bSBI (fun u v =>
    aluEnd u (BitVec.ofInt 8 ((u.b.x[0].toNat : Int) - v.toNat - u.b.fC.toNat))
      (decide (u.b.x[0].toNat < v.toNat + u.b.fC.toNat)))

/-- ND, XR, OR and CP of variant B in their register, memory and immediate forms (R287, R288, R289, R290). -/
def Obligations.BLogicAndCompare : Prop :=
  AluForms 4 .bNDr .bNDM .bNDI (fun u v => aluEnd u (u.b.x[0] &&& v) false) ∧
  AluForms 5 .bXRr .bXRM .bXRI (fun u v => aluEnd u (u.b.x[0] ^^^ v) false) ∧
  AluForms 6 .bORr .bORM .bORI (fun u v => aluEnd u (u.b.x[0] ||| v) false) ∧
  AluForms 7 .bCPr .bCPM .bCPI (fun u v =>
    { u with b := { u.b.withZSP (BitVec.ofInt 8 ((u.b.x[0].toNat : Int) - v.toNat)) with
      fC := decide (u.b.x[0].toNat < v.toNat), fZ := decide (u.b.x[0] = v) } })

/-- RLC, RRC, RAL and RAR of variant B: A and fC only (R295, R296, R297, R298). -/
def Obligations.BRotates : Prop :=
  ∀ s : State,
    let A := s.b.x[0].toNat
    let k : Nat → Bool → State := fun r c => { s with b := { s.b with x := s.b.x.set 0 (BitVec.ofNat 8 r), fC := c } }
    RunsAs .bRLC s 0x02 (k (2 * (A % 128) + A / 128) (decide (128 ≤ A))) ∧
    RunsAs .bRRC s 0x0A (k (128 * (A % 2) + A / 2) (decide (A % 2 = 1))) ∧
    RunsAs .bRAL s 0x12 (k (2 * (A % 128) + s.b.fC.toNat) (decide (128 ≤ A))) ∧
    RunsAs .bRAR s 0x1A (k (128 * s.b.fC.toNat + A / 2) (decide (A % 2 = 1))) ∧
    (∃ t, iterate (exec .bRLC) 8 s = some t ∧ t.b.x = s.b.x) ∧ iterate (exec .bRAL) 9 s = some s

/-- JMP, JFc and JTc of variant B (R311, R312, R313). -/
def Obligations.BJumps : Prop :=
  ∀ (a14 : PcB) (s : State),
    encode (.bJMP a14) = 0x44 :: targetBytes a14 ∧ (∀ x : Fin 8, DecodesTarget (0x44 + 8 * x.val) .bJMP) ∧
    exec (.bJMP a14) s = .next { s with b := { s.b with pc := a14 } } ∧
    ∀ c, encode (.bJFc c a14) = BitVec.ofNat 8 (0x40 + 8 * c.bits.toNat) :: targetBytes a14 ∧
      encode (.bJTc c a14) = BitVec.ofNat 8 (0x60 + 8 * c.bits.toNat) :: targetBytes a14 ∧
      DecodesTarget (0x40 + 8 * c.bits.toNat) (.bJFc c) ∧ DecodesTarget (0x60 + 8 * c.bits.toNat) (.bJTc c) ∧
      (s.b.flag c = false → exec (.bJFc c a14) s = .next { s with b := { s.b with pc := a14 } } ∧
        exec (.bJTc c a14) s = .next s) ∧
      (s.b.flag c = true → exec (.bJTc c a14) s = .next { s with b := { s.b with pc := a14 } } ∧
        exec (.bJFc c a14) s = .next s)

/-- CAL, CFc, CTc and RST of variant B (R315, R316, R317, R324). -/
def Obligations.BCallsAndRestart : Prop :=
  ∀ s : State,
    (∀ a14, encode (.bCAL a14) = 0x46 :: targetBytes a14 ∧ CallsB (exec (.bCAL a14) s) s a14) ∧
    (∀ x : Fin 8, DecodesTarget (0x46 + 8 * x.val) .bCAL) ∧
    (∀ c a14, encode (.bCFc c a14) = BitVec.ofNat 8 (0x42 + 8 * c.bits.toNat) :: targetBytes a14 ∧
      encode (.bCTc c a14) = BitVec.ofNat 8 (0x62 + 8 * c.bits.toNat) :: targetBytes a14 ∧
      DecodesTarget (0x42 + 8 * c.bits.toNat) (.bCFc c) ∧ DecodesTarget (0x62 + 8 * c.bits.toNat) (.bCTc c) ∧
      (s.b.flag c = false → CallsB (exec (.bCFc c a14) s) s a14 ∧ exec (.bCTc c a14) s = .next s) ∧
      (s.b.flag c = true → CallsB (exec (.bCTc c a14) s) s a14 ∧ exec (.bCFc c a14) s = .next s)) ∧
    ∀ n, encode (.bRST n) = [BitVec.ofNat 8 (5 + 8 * n.toNat)] ∧
      CallsB (exec (.bRST n) s) s (BitVec.ofNat 14 (8 * n.toNat))

/-- RET, RFc and RTc of variant B (R320, R321, R322). -/
def Obligations.BReturns : Prop :=
  ∀ s : State,
    encode .bRET = [0x07] ∧ (∀ x : Fin 8, decode .B [BitVec.ofNat 8 (7 + 8 * x.val)] = .ok (.bRET, [])) ∧
    ReturnsB (exec .bRET s) s ∧
    ∀ c, encode (.bRFc c) = [BitVec.ofNat 8 (0x03 + 8 * c.bits.toNat)] ∧
      encode (.bRTc c) = [BitVec.ofNat 8 (0x23 + 8 * c.bits.toNat)] ∧
      (s.b.flag c = false → ReturnsB (exec (.bRFc c) s) s ∧ exec (.bRTc c) s = .next s) ∧
      (s.b.flag c = true → ReturnsB (exec (.bRTc c) s) s ∧ exec (.bRFc c) s = .next s)

/-- INP and OUT of variant B (R326, R327). -/
def Obligations.BInputOutput : Prop :=
  ∀ s : State,
    (∀ n, encode (.bINP n) = [BitVec.ofNat 8 (0x41 + 2 * n.toNat)] ∧
      LoadsAnswer (exec (.bINP n) s) (portAnswer s (BitVec.ofNat 16 n.toNat)) { s with tick := s.tick + 1 } fun v =>
        { s with tick := s.tick + 1, b := { s.b with x := s.b.x.set 0 v } }) ∧
    ∀ n, 8 ≤ n.toNat → encode (.bOUT n) = [BitVec.ofNat 8 (0x41 + 2 * n.toNat)] ∧
      StoresPort (exec (.bOUT n) s) s (BitVec.ofNat 16 n.toNat) s.b.x[0]
end

