-- ==== Sys2Proof/Laws/Memory.lean ====
section
/-! SUPPORT. Memory reads what was written and keeps its canonical form. -/

namespace Sys2Proof.Machine

theorem Memory.wf_cons (a : Nat) (v : Byte) (m : Memory) :
    Memory.wf ((a, v) :: m) = true ↔ v ≠ Memory.unlisted ∧ (∀ c ∈ m, a < c.1) ∧ Memory.wf m = true := by
  simp [Memory.wf, and_assoc]

/-- A key below every listed address is unlisted. -/
theorem Memory.read_below (m : Memory) (k : Nat) (h : ∀ c ∈ m, k < c.1) : m.read k = Memory.unlisted := by
  induction m with
  | nil => rfl
  | cons c m ih =>
    have hk := h c (List.mem_cons_self ..)
    simp only [Memory.read, Nat.ne_of_lt hk, if_false]
    exact ih fun d hd => h d (List.mem_cons_of_mem _ hd)

/-- A write adds no address but its own. -/
theorem Memory.mem_write {m : Memory} {k : Nat} {v : Byte} {c : Host.Cell} (h : c ∈ m.write k v) :
    c ∈ m ∨ c = (k, v) := by
  induction m with
  | nil =>
    simp only [Memory.write] at h
    split at h
    · exact absurd h (List.not_mem_nil)
    · exact .inr (List.mem_singleton.mp h)
  | cons d m ih =>
    obtain ⟨a, w⟩ := d
    simp only [Memory.write] at h
    split_ifs at h with h1 h2 h3 h4
    · exact .inl h
    · rcases List.mem_cons.mp h with rfl | h
      · exact .inr rfl
      · exact .inl h
    · exact .inl (List.mem_cons_of_mem _ h)
    · rcases List.mem_cons.mp h with rfl | h
      · exact .inr (by rw [h3])
      · exact .inl (List.mem_cons_of_mem _ h)
    · rcases List.mem_cons.mp h with rfl | h
      · exact .inl (List.mem_cons_self ..)
      · exact (ih h).imp (List.mem_cons_of_mem _) id

theorem Memory.wf_write {m : Memory} (h : m.wf = true) (k : Nat) (v : Byte) : (m.write k v).wf = true := by
  induction m with
  | nil =>
    simp only [Memory.write]
    split <;> simp_all [Memory.wf]
  | cons d m ih =>
    obtain ⟨a, w⟩ := d
    obtain ⟨hw, hlt, hm⟩ := (Memory.wf_cons a w m).mp h
    simp only [Memory.write]
    split_ifs with h1 h2 h3 h4
    · exact h
    · refine (Memory.wf_cons k v _).mpr ⟨h2, ?_, h⟩
      intro c hc
      rcases List.mem_cons.mp hc with rfl | hc
      · exact h1
      · exact Nat.lt_trans h1 (hlt c hc)
    · exact hm
    · exact (Memory.wf_cons a v m).mpr ⟨h4, hlt, hm⟩
    · refine (Memory.wf_cons a w _).mpr ⟨hw, ?_, ih hm⟩
      intro c hc
      rcases Memory.mem_write hc with hc | rfl
      · exact hlt c hc
      · show a < k
        omega

theorem Memory.read_write {m : Memory} (h : m.wf = true) (k j : Nat) (v : Byte) :
    (m.write k v).read j = if j = k then v else m.read j := by
  induction m with
  | nil =>
    simp only [Memory.write]
    split_ifs with h1 h2 <;> simp_all [Memory.read]
  | cons d m ih =>
    obtain ⟨a, w⟩ := d
    obtain ⟨hw, hlt, hm⟩ := (Memory.wf_cons a w m).mp h
    simp only [Memory.write]
    split_ifs with h1 h2 h3 h4 h5 h6 h7 h8 h9
    · subst h3
      rw [h2]
      refine Memory.read_below _ _ fun c hc => ?_
      rcases List.mem_cons.mp hc with rfl | hc
      · exact h1
      · exact Nat.lt_trans h1 (hlt c hc)
    · rfl
    all_goals first
      | (subst_vars; rw [Memory.read_below _ _ hlt])
      | skip
    all_goals simp_all [Memory.read]

theorem Memory.wf_load {m : Memory} (h : m.wf = true) (k : Nat) (vs : List Byte) : (m.load k vs).wf = true := by
  induction vs generalizing m k with
  | nil => exact h
  | cons v vs ih => exact ih (Memory.wf_write h k v) (k + 1)

theorem Memory.wf_loadImage {m : Memory} (h : m.wf = true) (dev : Nat) (g : Gate) (image : List Byte) :
    (m.loadImage dev g image).wf = true := Memory.wf_load h _ _

theorem Memory.wf_ofImages {m : Memory} (h : m.wf = true) (dev : Nat) (es : List MemEntry) :
    (Memory.ofImages m dev es).wf = true := by
  induction es generalizing m dev with
  | nil => exact h
  | cons e es ih =>
    unfold Memory.ofImages
    split
    · exact ih (Memory.wf_loadImage h _ _ _) _
    · exact ih h _

/-- The memory of a reset machine has the canonical form, whatever its configuration. -/
theorem State.resetWith_wf (c : MachineConfig) :
    (State.resetWith c).mem.wf = true ∧ (State.resetWith c).stat.wf = true :=
  ⟨Memory.wf_ofImages rfl _ _, rfl⟩

end Sys2Proof.Machine
end

