-- ==== Sys2Proof/Laws/State.lean ====
section
/-! SUPPORT. The fields of a state after each named update: one lemma per field per update. -/

namespace Sys2Proof.Machine

@[simp] theorem State.setA_cfg (s : State) (c : CpuA) : (s.setA c).cfg = s.cfg := rfl
@[simp] theorem State.setA_a (s : State) (c : CpuA) : (s.setA c).a = c := rfl
@[simp] theorem State.setA_b (s : State) (c : CpuA) : (s.setA c).b = s.b := rfl
@[simp] theorem State.setA_halted (s : State) (c : CpuA) : (s.setA c).halted = s.halted := rfl
@[simp] theorem State.setA_err (s : State) (c : CpuA) : (s.setA c).err = s.err := rfl
@[simp] theorem State.setA_cancel (s : State) (c : CpuA) : (s.setA c).cancel = s.cancel := rfl
@[simp] theorem State.setA_mem (s : State) (c : CpuA) : (s.setA c).mem = s.mem := rfl
@[simp] theorem State.setA_stat (s : State) (c : CpuA) : (s.setA c).stat = s.stat := rfl
@[simp] theorem State.setA_pages (s : State) (c : CpuA) : (s.setA c).pages = s.pages := rfl
@[simp] theorem State.setA_latch (s : State) (c : CpuA) : (s.setA c).latch = s.latch := rfl
@[simp] theorem State.setA_tick (s : State) (c : CpuA) : (s.setA c).tick = s.tick := rfl
@[simp] theorem State.setA_hostQueue (s : State) (c : CpuA) : (s.setA c).hostQueue = s.hostQueue := rfl

@[simp] theorem State.setB_cfg (s : State) (c : CpuB) : (s.setB c).cfg = s.cfg := rfl
@[simp] theorem State.setB_a (s : State) (c : CpuB) : (s.setB c).a = s.a := rfl
@[simp] theorem State.setB_b (s : State) (c : CpuB) : (s.setB c).b = c := rfl
@[simp] theorem State.setB_halted (s : State) (c : CpuB) : (s.setB c).halted = s.halted := rfl
@[simp] theorem State.setB_err (s : State) (c : CpuB) : (s.setB c).err = s.err := rfl
@[simp] theorem State.setB_cancel (s : State) (c : CpuB) : (s.setB c).cancel = s.cancel := rfl
@[simp] theorem State.setB_mem (s : State) (c : CpuB) : (s.setB c).mem = s.mem := rfl
@[simp] theorem State.setB_stat (s : State) (c : CpuB) : (s.setB c).stat = s.stat := rfl
@[simp] theorem State.setB_pages (s : State) (c : CpuB) : (s.setB c).pages = s.pages := rfl
@[simp] theorem State.setB_latch (s : State) (c : CpuB) : (s.setB c).latch = s.latch := rfl
@[simp] theorem State.setB_tick (s : State) (c : CpuB) : (s.setB c).tick = s.tick := rfl
@[simp] theorem State.setB_hostQueue (s : State) (c : CpuB) : (s.setB c).hostQueue = s.hostQueue := rfl

@[simp] theorem State.halt_cfg (s : State) : s.halt.cfg = s.cfg := rfl
@[simp] theorem State.halt_a (s : State) : s.halt.a = s.a := rfl
@[simp] theorem State.halt_b (s : State) : s.halt.b = s.b := rfl
@[simp] theorem State.halt_halted (s : State) : s.halt.halted = true := rfl
@[simp] theorem State.halt_err (s : State) : s.halt.err = s.err := rfl
@[simp] theorem State.halt_cancel (s : State) : s.halt.cancel = s.cancel := rfl
@[simp] theorem State.halt_mem (s : State) : s.halt.mem = s.mem := rfl
@[simp] theorem State.halt_stat (s : State) : s.halt.stat = s.stat := rfl
@[simp] theorem State.halt_pages (s : State) : s.halt.pages = s.pages := rfl
@[simp] theorem State.halt_latch (s : State) : s.halt.latch = s.latch := rfl
@[simp] theorem State.halt_tick (s : State) : s.halt.tick = s.tick := rfl
@[simp] theorem State.halt_hostQueue (s : State) : s.halt.hostQueue = s.hostQueue := rfl

@[simp] theorem State.raise_cfg (s : State) (e : TypedError) : (s.raise e).cfg = s.cfg := rfl
@[simp] theorem State.raise_a (s : State) (e : TypedError) : (s.raise e).a = s.a := rfl
@[simp] theorem State.raise_b (s : State) (e : TypedError) : (s.raise e).b = s.b := rfl
@[simp] theorem State.raise_halted (s : State) (e : TypedError) : (s.raise e).halted = s.halted := rfl
@[simp] theorem State.raise_err (s : State) (e : TypedError) : (s.raise e).err = some e := rfl
@[simp] theorem State.raise_cancel (s : State) (e : TypedError) : (s.raise e).cancel = s.cancel := rfl
@[simp] theorem State.raise_mem (s : State) (e : TypedError) : (s.raise e).mem = s.mem := rfl
@[simp] theorem State.raise_stat (s : State) (e : TypedError) : (s.raise e).stat = s.stat := rfl
@[simp] theorem State.raise_pages (s : State) (e : TypedError) : (s.raise e).pages = s.pages := rfl
@[simp] theorem State.raise_latch (s : State) (e : TypedError) : (s.raise e).latch = s.latch := rfl
@[simp] theorem State.raise_tick (s : State) (e : TypedError) : (s.raise e).tick = s.tick := rfl
@[simp] theorem State.raise_hostQueue (s : State) (e : TypedError) : (s.raise e).hostQueue = s.hostQueue := rfl

@[simp] theorem State.ticked_cfg (s : State) : s.ticked.cfg = s.cfg := rfl
@[simp] theorem State.ticked_a (s : State) : s.ticked.a = s.a := rfl
@[simp] theorem State.ticked_b (s : State) : s.ticked.b = s.b := rfl
@[simp] theorem State.ticked_halted (s : State) : s.ticked.halted = s.halted := rfl
@[simp] theorem State.ticked_err (s : State) : s.ticked.err = s.err := rfl
@[simp] theorem State.ticked_cancel (s : State) : s.ticked.cancel = s.cancel := rfl
@[simp] theorem State.ticked_mem (s : State) : s.ticked.mem = s.mem := rfl
@[simp] theorem State.ticked_stat (s : State) : s.ticked.stat = s.stat := rfl
@[simp] theorem State.ticked_pages (s : State) : s.ticked.pages = s.pages := rfl
@[simp] theorem State.ticked_latch (s : State) : s.ticked.latch = s.latch := rfl
@[simp] theorem State.ticked_tick (s : State) : s.ticked.tick = s.tick + 1 := rfl
@[simp] theorem State.ticked_hostQueue (s : State) : s.ticked.hostQueue = s.hostQueue := rfl

theorem State.jumpA_eq (s : State) (p : PcA) : s.jumpA p = s.setA { s.a with pc := p } := rfl
theorem State.jumpB_eq (s : State) (p : PcB) : s.jumpB p = s.setB { s.b with pc := p } := rfl
theorem State.callA_eq (s : State) (p : PcA) : s.callA p = s.setA { s.a with stk := s.a.stk.push s.a.pc, pc := p } := rfl
theorem State.callB_eq (s : State) (p : PcB) : s.callB p = s.setB { s.b with stk := s.b.stk.push s.b.pc, pc := p } := rfl

@[simp] theorem CpuA.setReg_x (c : CpuA) (r : RegA) (v : Nibble) : (c.setReg r v).x = c.x.set r v := rfl
@[simp] theorem CpuA.setReg_acc (c : CpuA) (r : RegA) (v : Nibble) : (c.setReg r v).acc = c.acc := rfl
@[simp] theorem CpuA.setReg_cy (c : CpuA) (r : RegA) (v : Nibble) : (c.setReg r v).cy = c.cy := rfl
@[simp] theorem CpuA.setReg_test (c : CpuA) (r : RegA) (v : Nibble) : (c.setReg r v).test = c.test := rfl
@[simp] theorem CpuA.setReg_cl (c : CpuA) (r : RegA) (v : Nibble) : (c.setReg r v).cl = c.cl := rfl
@[simp] theorem CpuA.setReg_rc (c : CpuA) (r : RegA) (v : Nibble) : (c.setReg r v).rc = c.rc := rfl
@[simp] theorem CpuA.setReg_pc (c : CpuA) (r : RegA) (v : Nibble) : (c.setReg r v).pc = c.pc := rfl
@[simp] theorem CpuA.setReg_stk (c : CpuA) (r : RegA) (v : Nibble) : (c.setReg r v).stk = c.stk := rfl

@[simp] theorem CpuA.setAccCy_x (c : CpuA) (p : Nibble × Bool) : (c.setAccCy p).x = c.x := rfl
@[simp] theorem CpuA.setAccCy_acc (c : CpuA) (p : Nibble × Bool) : (c.setAccCy p).acc = p.1 := rfl
@[simp] theorem CpuA.setAccCy_cy (c : CpuA) (p : Nibble × Bool) : (c.setAccCy p).cy = p.2 := rfl
@[simp] theorem CpuA.setAccCy_test (c : CpuA) (p : Nibble × Bool) : (c.setAccCy p).test = c.test := rfl
@[simp] theorem CpuA.setAccCy_cl (c : CpuA) (p : Nibble × Bool) : (c.setAccCy p).cl = c.cl := rfl
@[simp] theorem CpuA.setAccCy_rc (c : CpuA) (p : Nibble × Bool) : (c.setAccCy p).rc = c.rc := rfl
@[simp] theorem CpuA.setAccCy_pc (c : CpuA) (p : Nibble × Bool) : (c.setAccCy p).pc = c.pc := rfl
@[simp] theorem CpuA.setAccCy_stk (c : CpuA) (p : Nibble × Bool) : (c.setAccCy p).stk = c.stk := rfl

@[simp] theorem CpuA.incReg_x (c : CpuA) (r : RegA) : (c.incReg r).x = c.x.set r (c.reg r + 1) := rfl
@[simp] theorem CpuA.incReg_acc (c : CpuA) (r : RegA) : (c.incReg r).acc = c.acc := rfl
@[simp] theorem CpuA.incReg_cy (c : CpuA) (r : RegA) : (c.incReg r).cy = c.cy := rfl
@[simp] theorem CpuA.incReg_test (c : CpuA) (r : RegA) : (c.incReg r).test = c.test := rfl
@[simp] theorem CpuA.incReg_cl (c : CpuA) (r : RegA) : (c.incReg r).cl = c.cl := rfl
@[simp] theorem CpuA.incReg_rc (c : CpuA) (r : RegA) : (c.incReg r).rc = c.rc := rfl
@[simp] theorem CpuA.incReg_pc (c : CpuA) (r : RegA) : (c.incReg r).pc = c.pc := rfl
@[simp] theorem CpuA.incReg_stk (c : CpuA) (r : RegA) : (c.incReg r).stk = c.stk := rfl

@[simp] theorem CpuA.setPair_x (c : CpuA) (p : PairA) (v : Byte) : (c.setPair p v).x = (c.x.set (evenReg p) (v.extractLsb' 4 4)).set (oddReg p) (v.extractLsb' 0 4) := rfl
@[simp] theorem CpuA.setPair_acc (c : CpuA) (p : PairA) (v : Byte) : (c.setPair p v).acc = c.acc := rfl
@[simp] theorem CpuA.setPair_cy (c : CpuA) (p : PairA) (v : Byte) : (c.setPair p v).cy = c.cy := rfl
@[simp] theorem CpuA.setPair_test (c : CpuA) (p : PairA) (v : Byte) : (c.setPair p v).test = c.test := rfl
@[simp] theorem CpuA.setPair_cl (c : CpuA) (p : PairA) (v : Byte) : (c.setPair p v).cl = c.cl := rfl
@[simp] theorem CpuA.setPair_rc (c : CpuA) (p : PairA) (v : Byte) : (c.setPair p v).rc = c.rc := rfl
@[simp] theorem CpuA.setPair_pc (c : CpuA) (p : PairA) (v : Byte) : (c.setPair p v).pc = c.pc := rfl
@[simp] theorem CpuA.setPair_stk (c : CpuA) (p : PairA) (v : Byte) : (c.setPair p v).stk = c.stk := rfl

@[simp] theorem CpuB.setReg_x (c : CpuB) (r : RegB) (v : Byte) : (c.setReg r v).x = c.x.set (regIndex r) v := rfl
@[simp] theorem CpuB.setReg_fC (c : CpuB) (r : RegB) (v : Byte) : (c.setReg r v).fC = c.fC := rfl
@[simp] theorem CpuB.setReg_fZ (c : CpuB) (r : RegB) (v : Byte) : (c.setReg r v).fZ = c.fZ := rfl
@[simp] theorem CpuB.setReg_fS (c : CpuB) (r : RegB) (v : Byte) : (c.setReg r v).fS = c.fS := rfl
@[simp] theorem CpuB.setReg_fP (c : CpuB) (r : RegB) (v : Byte) : (c.setReg r v).fP = c.fP := rfl
@[simp] theorem CpuB.setReg_pc (c : CpuB) (r : RegB) (v : Byte) : (c.setReg r v).pc = c.pc := rfl
@[simp] theorem CpuB.setReg_stk (c : CpuB) (r : RegB) (v : Byte) : (c.setReg r v).stk = c.stk := rfl

@[simp] theorem CpuB.setZSP_x (c : CpuB) (r : Byte) : (c.setZSP r).x = c.x := rfl
@[simp] theorem CpuB.setZSP_fC (c : CpuB) (r : Byte) : (c.setZSP r).fC = c.fC := rfl
@[simp] theorem CpuB.setZSP_fZ (c : CpuB) (r : Byte) : (c.setZSP r).fZ = zeroFlag r := rfl
@[simp] theorem CpuB.setZSP_fS (c : CpuB) (r : Byte) : (c.setZSP r).fS = signFlag r := rfl
@[simp] theorem CpuB.setZSP_fP (c : CpuB) (r : Byte) : (c.setZSP r).fP = parityFlag r := rfl
@[simp] theorem CpuB.setZSP_pc (c : CpuB) (r : Byte) : (c.setZSP r).pc = c.pc := rfl
@[simp] theorem CpuB.setZSP_stk (c : CpuB) (r : Byte) : (c.setZSP r).stk = c.stk := rfl

@[simp] theorem CpuB.setIncDec_x (c : CpuB) (d : RegB) (r : Byte) : (c.setIncDec d r).x = c.x.set (regIndex d) r := rfl
@[simp] theorem CpuB.setIncDec_fC (c : CpuB) (d : RegB) (r : Byte) : (c.setIncDec d r).fC = c.fC := rfl
@[simp] theorem CpuB.setIncDec_fZ (c : CpuB) (d : RegB) (r : Byte) : (c.setIncDec d r).fZ = zeroFlag r := rfl
@[simp] theorem CpuB.setIncDec_fS (c : CpuB) (d : RegB) (r : Byte) : (c.setIncDec d r).fS = signFlag r := rfl
@[simp] theorem CpuB.setIncDec_fP (c : CpuB) (d : RegB) (r : Byte) : (c.setIncDec d r).fP = parityFlag r := rfl
@[simp] theorem CpuB.setIncDec_pc (c : CpuB) (d : RegB) (r : Byte) : (c.setIncDec d r).pc = c.pc := rfl
@[simp] theorem CpuB.setIncDec_stk (c : CpuB) (d : RegB) (r : Byte) : (c.setIncDec d r).stk = c.stk := rfl

@[simp] theorem CpuB.setRotate_x (c : CpuB) (p : Byte × Bool) : (c.setRotate p).x = c.x.set (regIndex .A) p.1 := rfl
@[simp] theorem CpuB.setRotate_fC (c : CpuB) (p : Byte × Bool) : (c.setRotate p).fC = p.2 := rfl
@[simp] theorem CpuB.setRotate_fZ (c : CpuB) (p : Byte × Bool) : (c.setRotate p).fZ = c.fZ := rfl
@[simp] theorem CpuB.setRotate_fS (c : CpuB) (p : Byte × Bool) : (c.setRotate p).fS = c.fS := rfl
@[simp] theorem CpuB.setRotate_fP (c : CpuB) (p : Byte × Bool) : (c.setRotate p).fP = c.fP := rfl
@[simp] theorem CpuB.setRotate_pc (c : CpuB) (p : Byte × Bool) : (c.setRotate p).pc = c.pc := rfl
@[simp] theorem CpuB.setRotate_stk (c : CpuB) (p : Byte × Bool) : (c.setRotate p).stk = c.stk := rfl

theorem CpuB.alu_eq (c : CpuB) (op : AluOp) (v : Byte) :
    c.alu op v =
      { c with
        x := if op.stores then c.x.set (regIndex .A) (aluCompute op (c.reg .A) v c.fC).1 else c.x
        fC := (aluCompute op (c.reg .A) v c.fC).2
        fZ := zeroFlag (aluCompute op (c.reg .A) v c.fC).1
        fS := signFlag (aluCompute op (c.reg .A) v c.fC).1
        fP := parityFlag (aluCompute op (c.reg .A) v c.fC).1 } := by
  cases op <;> rfl

@[simp] theorem CpuB.alu_pc (c : CpuB) (op : AluOp) (v : Byte) : (c.alu op v).pc = c.pc := by cases op <;> rfl
@[simp] theorem CpuB.alu_stk (c : CpuB) (op : AluOp) (v : Byte) : (c.alu op v).stk = c.stk := by cases op <;> rfl

theorem CpuA.reg_setReg (c : CpuA) (r q : RegA) (v : Nibble) :
    (c.setReg r v).reg q = if r = q then v else c.reg q := by
  simp [CpuA.reg, CpuA.setReg, Vector.getElem_set, Fin.ext_iff]

theorem regIndex_injective {r q : RegB} (h : regIndex r = regIndex q) : r = q := by
  cases r <;> cases q <;> first | rfl | (exact absurd h (by decide))

theorem CpuB.reg_setReg (c : CpuB) (r q : RegB) (v : Byte) :
    (c.setReg r v).reg q = if r = q then v else c.reg q := by
  by_cases h : r = q
  · subst h; simp [CpuB.reg, CpuB.setReg]
  · have : (regIndex r).val ≠ (regIndex q).val := fun e => h (regIndex_injective (Fin.ext e))
    simp [CpuB.reg, CpuB.setReg, h, this]

end Sys2Proof.Machine
end

