-- ==== Sys2Proof/Laws/Bus.lean ====
section
/-! SUPPORT. What the operations of the Bus can do: one lemma for each shared operation. -/

namespace Sys2Proof.Machine

/-- Driving latches makes and removes none. -/
@[simp] theorem driveLatches_length (p : Byte) (j : Nat) (latch : List Bool) (rs : List (Option Nat)) :
    (driveLatches p j latch rs).length = latch.length := by
  induction rs generalizing j latch with
  | nil => rfl
  | cons r rs ih => cases r <;> simp [driveLatches, ih]

/-- The mappers change nothing but latches. -/
theorem mapFrom_state (m : Nat) (a : Addr) (s : State) (cs : List MapperCfg) :
    (mapFrom m a s cs).2 = { s with latch := (mapFrom m a s cs).2.latch } := by
  induction cs generalizing m a s with
  | nil => rfl
  | cons c cs ih =>
    simp only [mapFrom]
    rw [ih]
    simp [mapOne]

theorem mapFrom_latch_length (m : Nat) (a : Addr) (s : State) (cs : List MapperCfg) :
    (mapFrom m a s cs).2.latch.length = s.latch.length := by
  induction cs generalizing m a s with
  | nil => rfl
  | cons c cs ih => simp [mapFrom, ih, mapOne]

/-- The mapper chain changes nothing but latches. -/
theorem mapChain_state (a : Addr) (s : State) :
    (mapChain a s).2 = { s with latch := (mapChain a s).2.latch } := mapFrom_state 0 a s _

theorem mapChain_latch_length (a : Addr) (s : State) : (mapChain a s).2.latch.length = s.latch.length :=
  mapFrom_latch_length 0 a s _

/-- With no mapper an address passes unchanged. -/
theorem mapChain_no_mappers {s : State} (h : s.cfg.mappers = []) (a : Addr) : mapChain a s = (a, s) := by
  simp [mapChain, h, mapFrom]

/-- What a scan finds stands in the list at its number, is shown by the filter and answers the address. -/
theorem scanMemFrom_found {f : Option DevKind} {a : Addr} {s : State} {dev n : Nat} {es : List MemEntry} {e : MemEntry}
    (h : scanMemFrom f a s dev es = some (n, e)) :
    dev ≤ n ∧ es[n - dev]? = some e ∧ kindVisible f e.kind = true ∧ hasAddress e.gate a s = true := by
  induction es generalizing dev with
  | nil => simp [scanMemFrom] at h
  | cons d es ih =>
    simp only [scanMemFrom] at h
    split at h
    · rename_i hd
      obtain ⟨rfl, rfl⟩ := by simpa using h
      simp only [Bool.and_eq_true] at hd
      exact ⟨Nat.le_refl _, by simp, hd.1, hd.2⟩
    · obtain ⟨h1, h2, h3⟩ := ih h
      refine ⟨by omega, ?_, h3⟩
      rw [show n - dev = (n - (dev + 1)) + 1 by omega]
      simpa using h2

theorem scanMem_found {f : Option DevKind} {a : Addr} {s : State} {n : Nat} {e : MemEntry}
    (h : scanMem f a s = some (n, e)) :
    s.cfg.memList[n]? = some e ∧ kindVisible f e.kind = true ∧ hasAddress e.gate a s = true := by
  obtain ⟨-, h2, h3, h4⟩ := scanMemFrom_found h
  exact ⟨by simpa using h2, h3, h4⟩

/-- An address in a window has an offset below 2^16. -/
theorem offsetIn_lt (g : Gate) (a : Addr) : offsetIn g a < 65536 := by
  have := a.isLt
  simp only [offsetIn]
  omega

/-- The state after a `Write` that an entry accepts: one contents cell of a writable MemoryDevice, nothing for a foreign
device, or one page register. -/
theorem entryWrite_ok {e : MemEntry} {dev : Nat} {a : Addr} {v : Byte} {s t : State}
    (h : entryWrite e dev a v s = .ok t) :
    (∃ st img, e.body = .memory false st img ∧ hasAddress e.gate a s = true ∧
      t = { s with mem := s.mem.write (contentKey dev (offsetIn e.gate a)) v }) ∨
    (e.body = .foreign ∧ t = s) ∨
    ∃ m, e.body = .mapperWindow m ∧ t = mapperWrite m e.gate a v s := by
  unfold entryWrite at h
  split at h
  · rename_i ro st img hb
    unfold devWrite at h
    split_ifs at h with h1 h2
    refine .inl ⟨st, img, ?_, by simpa using h1, ?_⟩
    · rw [hb]; simpa using h2
    · exact (Except.ok.inj h).symm
  · rename_i hb
    unfold foreignWrite at h
    split_ifs at h
    exact .inr (.inl ⟨hb, (Except.ok.inj h).symm⟩)
  · rename_i m hb
    exact .inr (.inr ⟨m, hb, (Except.ok.inj h).symm⟩)

/-- The state after a `WriteStatus` that an entry accepts: one status cell of a writable MemoryDevice that has a status
array, or nothing for a foreign device. -/
theorem entryWriteStatus_ok {e : MemEntry} {dev : Nat} {a : Addr} {i : Nat} {v : Byte} {s t : State}
    (h : entryWriteStatus e dev a i v s = .ok t) :
    (∃ img, e.body = .memory false true img ∧ hasAddress e.gate a s = true ∧ i ≤ 3 ∧
      t = { s with stat := s.stat.write (statusKey dev (offsetIn e.gate a) i) v }) ∨
    (e.body = .foreign ∧ t = s) := by
  unfold entryWriteStatus at h
  split at h
  · rename_i ro st img hb
    unfold devWriteStatus at h
    split_ifs at h with h1 h2 h3
    simp only [Bool.not_eq_true, Bool.or_eq_false_iff, Bool.not_eq_false', decide_eq_false_iff_not] at h1 h2 h3
    refine .inl ⟨img, ?_, h2.1, by omega, (Except.ok.inj h).symm⟩
    rw [hb, h3]
    simp [h1]
  · rename_i hb
    unfold foreignWrite at h
    split_ifs at h
    exact .inr ⟨hb, (Except.ok.inj h).symm⟩
  · exact absurd h (by simp)

/-- A memory read changes latches and the tick only. -/
theorem busReadMem_state (a : Addr) (f : Option DevKind) (s : State) :
    (busReadMem a f s).2 = { s with latch := (mapChain a s).2.latch, tick := s.tick + 1 } := by
  have h : (busReadMem a f s).2 = (mapChain a s).2.ticked := by
    simp only [busReadMem]
    split <;> rfl
  rw [h, mapChain_state]
  rfl

/-- A status read changes latches and the tick only. -/
theorem busReadStatus_state (a : Addr) (i : Nat) (f : Option DevKind) (s : State) :
    (busReadStatus a i f s).2 = { s with latch := (mapChain a s).2.latch, tick := s.tick + 1 } := by
  have h : (busReadStatus a i f s).2 = (mapChain a s).2.ticked := by
    simp only [busReadStatus]
    split <;> rfl
  rw [h, mapChain_state]
  rfl

/-- A port read changes the tick only. -/
theorem busReadPort_state (p : Addr) (s : State) : (busReadPort p s).2 = { s with tick := s.tick + 1 } := by
  unfold busReadPort
  split
  · rfl
  · split <;> rfl

/-- Everything a memory write can do: beside latches and the tick, nothing (open bus, a foreign device, an error), one
contents cell of a writable MemoryDevice, or one page register. -/
theorem busWriteMem_state (a : Addr) (v : Byte) (f : Option DevKind) (s : State) :
    let l := (mapChain a s).2.latch
    let a' := (mapChain a s).1
    (busWriteMem a v f s).2 = { s with latch := l, tick := s.tick + 1 } ∨
    (∃ dev e st img, (busWriteMem a v f s).1 = .ok () ∧ scanMem f a' (mapChain a s).2 = some (dev, e) ∧
      e.body = .memory false st img ∧ (busWriteMem a v f s).2 =
        { s with latch := l, tick := s.tick + 1, mem := s.mem.write (contentKey dev (offsetIn e.gate a')) v }) ∨
    ∃ dev e m, (busWriteMem a v f s).1 = .ok () ∧ scanMem f a' (mapChain a s).2 = some (dev, e) ∧
      e.body = .mapperWindow m ∧ (busWriteMem a v f s).2 =
        { mapperWrite m e.gate a' v s with latch := l, tick := s.tick + 1 } := by
  have hm := mapChain_state a s
  simp only [busWriteMem]
  split
  · refine .inl ?_
    rw [hm]; rfl
  · rename_i dev e hs
    cases hw : entryWrite e dev (mapChain a s).1 v (mapChain a s).2 with
    | error err =>
      refine .inl ?_
      simp only [finishWrite]
      rw [hm]; rfl
    | ok t =>
      rcases entryWrite_ok hw with ⟨st, img, hb, -, rfl⟩ | ⟨hb, rfl⟩ | ⟨m, hb, rfl⟩
      · refine .inr (.inl ⟨dev, e, st, img, rfl, hs, hb, ?_⟩)
        simp only [finishWrite, State.ticked]
        rw [hm]
      · refine .inl ?_
        simp only [finishWrite]
        rw [hm]; rfl
      · refine .inr (.inr ⟨dev, e, m, rfl, hs, hb, ?_⟩)
        simp only [finishWrite, State.ticked, mapperWrite]
        rw [hm]

/-- Everything a status write can do: beside latches and the tick, nothing, or one status cell of a writable
MemoryDevice. -/
theorem busWriteStatus_state (a : Addr) (i : Nat) (v : Byte) (f : Option DevKind) (s : State) :
    let l := (mapChain a s).2.latch
    let a' := (mapChain a s).1
    (busWriteStatus a i v f s).2 = { s with latch := l, tick := s.tick + 1 } ∨
    ∃ dev e img, (busWriteStatus a i v f s).1 = .ok () ∧ scanMem f a' (mapChain a s).2 = some (dev, e) ∧
      e.body = .memory false true img ∧ (busWriteStatus a i v f s).2 =
        { s with latch := l, tick := s.tick + 1, stat := s.stat.write (statusKey dev (offsetIn e.gate a') i) v } := by
  have hm := mapChain_state a s
  simp only [busWriteStatus]
  split
  · refine .inl ?_
    rw [hm]; rfl
  · rename_i dev e hs
    cases hw : entryWriteStatus e dev (mapChain a s).1 i v (mapChain a s).2 with
    | error err =>
      refine .inl ?_
      simp only [finishWrite]
      rw [hm]; rfl
    | ok t =>
      rcases entryWriteStatus_ok hw with ⟨img, hb, -, -, rfl⟩ | ⟨hb, rfl⟩
      · refine .inr ⟨dev, e, img, rfl, hs, hb, ?_⟩
        simp only [finishWrite, State.ticked]
        rw [hm]
      · refine .inl ?_
        simp only [finishWrite]
        rw [hm]; rfl

/-- Everything a port write can do: beside the tick, nothing, or one page register. -/
theorem busWritePort_state (p : Addr) (v : Byte) (s : State) :
    (busWritePort p v s).2 = { s with tick := s.tick + 1 } ∨
    ∃ e m, (busWritePort p v s).1 = .ok () ∧ scanPort p s = some e ∧ e.body = .mapperWindow m ∧
      (busWritePort p v s).2 = { mapperWrite m e.gate p v s with tick := s.tick + 1 } := by
  unfold busWritePort
  split
  · exact .inl rfl
  · rename_i e he
    split
    · refine .inl ?_
      unfold foreignWrite
      split <;> rfl
    · rename_i m hb
      exact .inr ⟨e, m, rfl, he, hb, rfl⟩

end Sys2Proof.Machine
end

