-- ==== Sys2Proof/Laws/Ops.lean ====
section
/-! SUPPORT. What the shared operations of the meanings can do, and the frames of the fetch and of a step. -/

namespace Sys2Proof

/-- Whether a row's handler answers depends on the first byte only. -/
theorem DecodeRow.build_isSome {v : Variant} {r : DecodeRow} (h : r ∈ decodeRom v) (b x y x' y' : Byte) :
    (r.build b x y).isSome = (r.build b x' y').isSome := by
  revert r
  cases v <;> simp only [decodeRom, romA, romB, romA1, romA2, romA3, romA4, romB1, romB2, romB3, romB4, List.cons_append,
    List.nil_append, List.forall_mem_cons]
  · simp
  · simp

/-- Every first byte matches a row of either decode ROM, the illegal rows included (30_encoding.md R135, R144). -/
theorem findRow_isSome (v : Variant) (b : Byte) : (findRow v b).isSome = true := by
  revert b
  cases v <;> decide

/-- A first byte has a row that asks for at most two more bytes and reads an instruction from any operand bytes. -/
theorem findRow_reads (v : Variant) (b : Byte) :
    ∃ r, findRow v b = some r ∧ r.len ≤ 3 ∧ 1 ≤ r.len ∧ ∀ ops, ∃ i, r.instr b ops = some i := by
  obtain ⟨r, h⟩ := Option.isSome_iff_exists.mp (findRow_isSome v b)
  have hm : r ∈ decodeRom v := List.mem_of_find?_eq_some h
  have hl : ∀ r ∈ decodeRom v, r.len ≤ 3 ∧ 1 ≤ r.len := by cases v <;> decide
  have ha : r.accepts b = true := by
    unfold findRow at h
    exact (List.find?_some h :)
  refine ⟨r, h, (hl r hm).1, (hl r hm).2, fun ops => Option.isSome_iff_exists.mp ?_⟩
  unfold DecodeRow.instr
  rw [DecodeRow.build_isSome hm b _ _ 0 0]
  simp only [DecodeRow.accepts, Bool.and_eq_true] at ha
  exact ha.2

end Sys2Proof

namespace Sys2Proof.Machine

/-- A pop undoes the last push: it answers the pushed address, and pointer and slots are as the push left them but for
the pointer, which is back. -/
theorem CallStack.pop_push {w d : Nat} (k : CallStack w d) (v : BitVec w) :
    ∃ n, (k.push v).pop = some (v, { slots := k.slots.set k.sp v, sp := k.sp, nest := n }) ∧
      n.val = min (k.nest.val + 1) d - 1 := by
  have hs := k.sp.isLt
  have hd : ¬(min (k.nest.val + 1) d = 0) := by omega
  by_cases h : k.sp.val + 1 < d
  · refine ⟨⟨min (k.nest.val + 1) d - 1, by omega⟩, ?_, rfl⟩
    simp [CallStack.push, CallStack.pop, h]
  · have e : d - 1 = k.sp.val := by omega
    have hz : d ≠ 0 := by omega
    refine ⟨⟨min (k.nest.val + 1) d - 1, by omega⟩, ?_, rfl⟩
    simp [CallStack.push, CallStack.pop, h, e, hz]

/-- A pop keeps the slots and answers the slot the pointer then names. -/
theorem CallStack.pop_some {w d : Nat} {k k' : CallStack w d} {v : BitVec w} (h : k.pop = some (v, k')) :
    ¬(k.sp.val = 0 ∧ k.nest.val = 0) ∧ k'.slots = k.slots ∧ v = k.slots[k'.sp] ∧
      k'.nest.val = k.nest.val - 1 ∧ k'.sp.val = if k.sp.val = 0 then d - 1 else k.sp.val - 1 := by
  unfold CallStack.pop at h
  split at h
  · exact absurd h (by simp)
  · rename_i hne
    simp only [Option.some.injEq, Prod.mk.injEq] at h
    obtain ⟨rfl, rfl⟩ := h
    refine ⟨hne, rfl, rfl, rfl, ?_⟩
    split <;> rfl

/-- Both ends of an access that is read: the continuation's state, or the error raised. -/
theorem onRead_next (r : Answer Byte × State) (k : Byte → State → State) :
    (∃ v, r.1 = .ok v ∧ onRead r k = .next (k v r.2)) ∨ (∃ e, r.1 = .error e ∧ onRead r k = .next (r.2.raise e)) := by
  unfold onRead
  cases h : r.1 with
  | ok v => exact .inl ⟨v, rfl, rfl⟩
  | error e => exact .inr ⟨e, rfl, rfl⟩

/-- Both ends of an access that is written: its state, or under `WRITE_ERR_POLICY = fault` the error raised. -/
theorem onWrite_next (r : Answer Unit × State) :
    onWrite r = .next r.2 ∨
      ∃ e, r.1 = .error e ∧ r.2.cfg.params.writeErr = .fault ∧ onWrite r = .next (r.2.raise e) := by
  unfold onWrite
  cases h : r.1 with
  | ok v => exact .inl rfl
  | error e =>
    cases hp : r.2.cfg.params.writeErr with
    | fault => exact .inr ⟨e, rfl, rfl, rfl⟩
    | ignore => exact .inl rfl

/-- An instruction marked G: its effect, or InvalidOpcode. -/
theorem admitted_cases (i : Instr) (s : State) (t : Result) :
    (s.cfg.params.admitUnnamed = true ∧ admitted i s t = t) ∨
      (s.cfg.params.admitUnnamed = false ∧ admitted i s t = .next (s.raise (.invalidOpcode i.opcode))) := by
  unfold admitted
  cases h : s.cfg.params.admitUnnamed <;> simp

theorem State.returnA_cases (s : State) (d : Nibble) :
    (s.a.stk.pop = none ∧ s.returnA d = s.raise .stackUnderflow) ∨
      ∃ v k, s.a.stk.pop = some (v, k) ∧ s.returnA d = s.setA { s.a with stk := k, pc := v, acc := d } := by
  unfold State.returnA
  cases h : s.a.stk.pop with
  | none => exact .inl ⟨rfl, rfl⟩
  | some p => exact .inr ⟨p.1, p.2, rfl, rfl⟩

theorem State.returnB_cases (s : State) :
    (s.b.stk.pop = none ∧ s.returnB = s.raise .stackUnderflow) ∨
      ∃ v k, s.b.stk.pop = some (v, k) ∧ s.returnB = s.setB { s.b with stk := k, pc := v } := by
  unfold State.returnB
  cases h : s.b.stk.pop with
  | none => exact .inl ⟨rfl, rfl⟩
  | some p => exact .inr ⟨p.1, p.2, rfl, rfl⟩

/-- Advancing the `pc` changes the running variant's `pc` only. -/
theorem advancePc_eq (s : State) :
    advancePc s = match s.cfg.variant with
      | .A => s.setA { s.a with pc := s.a.pc + 1 }
      | .B => s.setB { s.b with pc := s.b.pc + 1 } := rfl

theorem FetchFrame.refl (s : State) : FetchFrame s s := rfl

theorem FetchFrame.trans {s t u : State} (h : FetchFrame s t) (g : FetchFrame t u) : FetchFrame s u := by
  unfold FetchFrame at *
  rw [g, h]

theorem advancePc_frame (s : State) : FetchFrame s (advancePc s) := by
  rw [advancePc_eq]
  cases s.cfg.variant <;> rfl

/-- A fetch changes latches, the tick and the running variant's `pc` only. -/
theorem fetchByte_frame (s : State) : FetchFrame s (fetchByte s).2 := by
  have h : FetchFrame s (busReadMem (fetchAddr s) (fetchFilter s.cfg.variant) s).2 := by
    rw [busReadMem_state]
    rfl
  unfold fetchByte
  generalize busReadMem (fetchAddr s) (fetchFilter s.cfg.variant) s = r at h ⊢
  obtain ⟨⟨e⟩ | ⟨b⟩, t⟩ := r
  · exact h
  · exact h.trans (advancePc_frame t)

theorem fetchBytes_frame (s : State) (n : Nat) : FetchFrame s (fetchBytes s n).2 := by
  induction n generalizing s with
  | zero => rfl
  | succ n ih =>
    have h := fetchByte_frame s
    unfold fetchBytes
    generalize fetchByte s = r at h ⊢
    obtain ⟨⟨e⟩ | ⟨b⟩, t⟩ := r
    · exact h
    · have g := ih t
      simp only
      generalize fetchBytes t n = q at g ⊢
      obtain ⟨⟨e⟩ | ⟨bs⟩, u⟩ := q <;> exact h.trans g

/-- Fetching an instruction changes latches, the tick and the program counters only. -/
theorem fetchInstr_frame (s : State) : FetchFrame s (fetchInstr s).2 := by
  have h := fetchByte_frame s
  unfold fetchInstr
  generalize fetchByte s = r at h ⊢
  obtain ⟨⟨e⟩ | ⟨b⟩, t⟩ := r
  · exact h
  · simp only
    cases findRow s.cfg.variant b with
    | none => exact h
    | some row =>
      have g := fetchBytes_frame t (row.len - 1)
      simp only
      generalize fetchBytes t (row.len - 1) = q at g ⊢
      obtain ⟨⟨e⟩ | ⟨bs⟩, u⟩ := q
      · exact h.trans g
      · simp only
        cases row.instr b bs <;> exact h.trans g

/-- A fetch that answers leaves what the Bus read left, with the running `pc` advanced by one; one that reports an error
leaves the `pc` (10_state.md R28, log 10). -/
theorem fetchByte_afterFetches (s : State) :
    (∃ b t, fetchByte s = (.ok b, t) ∧ AfterFetches s 1 t) ∨ ∃ e t, fetchByte s = (.error e, t) ∧ AfterFetches s 0 t := by
  have h := busReadMem_state (fetchAddr s) (fetchFilter s.cfg.variant) s
  unfold fetchByte
  generalize busReadMem (fetchAddr s) (fetchFilter s.cfg.variant) s = r at h ⊢
  obtain ⟨⟨e⟩ | ⟨b⟩, t⟩ := r <;> simp only at h <;> subst h
  · refine .inr ⟨e, _, rfl, rfl, ?_, ?_⟩ <;> intro _ <;> simp
  · refine .inl ⟨b, _, rfl, ?_⟩
    rw [advancePc_eq]
    cases hv : s.cfg.variant <;> refine ⟨?_, ?_, ?_⟩ <;> simp [hv, FetchFrame, State.setA, State.setB]

theorem AfterFetches.trans {s t u : State} {m n : Nat} (h : AfterFetches s m t) (g : AfterFetches t n u) :
    AfterFetches s (m + n) u := by
  obtain ⟨h1, h2, h3⟩ := h
  obtain ⟨g1, g2, g3⟩ := g
  have hc : t.cfg = s.cfg := by rw [h1]
  rw [hc] at g2 g3
  refine ⟨h1.trans g1, fun hv => ?_, fun hv => ?_⟩
  · rw [(g2 hv).1, (g2 hv).2, (h2 hv).1, (h2 hv).2, BitVec.ofNat_add, BitVec.add_assoc]
    exact ⟨rfl, rfl⟩
  · rw [(g3 hv).1, (g3 hv).2, (h3 hv).1, (h3 hv).2, BitVec.ofNat_add, BitVec.add_assoc]
    exact ⟨rfl, rfl⟩

/-- Either all `n` fetches answer, or exactly the first `k` of them do and the next reports an error. -/
theorem fetchBytes_cases (s : State) (n : Nat) :
    (∃ bs t, fetchBytes s n = (.ok bs, t) ∧ bs.length = n ∧ AfterFetches s n t) ∨
    ∃ k e t bs u, k < n ∧ fetchBytes s n = (.error e, t) ∧ fetchBytes s (k + 1) = (.error e, t) ∧ AfterFetches s k t ∧
      fetchBytes s k = (.ok bs, u) ∧ bs.length = k := by
  induction n generalizing s with
  | zero => exact .inl ⟨[], s, rfl, rfl, FetchFrame.refl s, fun _ => by simp, fun _ => by simp⟩
  | succ n ih =>
    rcases fetchByte_afterFetches s with ⟨b, t, h, ht⟩ | ⟨e, t, h, ht⟩
    · rcases ih t with ⟨bs, u, g, gl, gu⟩ | ⟨k, e, u, bs, w, hk, g, g', gu, gk, gl⟩
      · refine .inl ⟨b :: bs, u, by simp [fetchBytes, h, g], by simp [gl], ?_⟩
        rw [Nat.add_comm]
        exact ht.trans gu
      · refine .inr ⟨k + 1, e, u, b :: bs, w, by omega, by simp [fetchBytes, h, g], ?_, ?_, by simp [fetchBytes, h, gk],
          by simp [gl]⟩
        · rw [fetchBytes]
          simp only [h, g']
        · rw [Nat.add_comm]
          exact ht.trans gu
    · exact .inr ⟨0, e, t, [], s, by omega, by simp [fetchBytes, h], by simp [fetchBytes, h], ht, rfl, rfl⟩

/-- Fetching and decoding: the fetches of exactly the bytes that decode to the instruction, or an error of the Bus in one
of them; no byte fails to decode, the illegal bytes being instructions. -/
theorem fetchInstr_cases (s : State) :
    (∃ bs i t, fetchBytes s bs.length = (.ok bs, t) ∧ decode s.cfg.variant bs = .ok (i, []) ∧ bs.length ≤ 3 ∧
      AfterFetches s bs.length t ∧ fetchInstr s = (.ok i, t)) ∨
    ∃ k e t bs u, k < 3 ∧ fetchBytes s (k + 1) = (.error e, t) ∧ AfterFetches s k t ∧ fetchInstr s = (.error e, t) ∧
      fetchBytes s k = (.ok bs, u) ∧ bs.length = k ∧ (k = 0 ∨ ∃ b, decode s.cfg.variant bs = .error (.missingOperand b)) := by
  unfold fetchInstr
  rcases fetchByte_afterFetches s with ⟨b, t, h, ht⟩ | ⟨e, t, h, ht⟩
  · obtain ⟨r, hr, hl, hl', hi⟩ := findRow_reads s.cfg.variant b
    simp only [h, hr]
    rcases fetchBytes_cases t (r.len - 1) with ⟨bs, u, g, gl, gu⟩ | ⟨k, e, u, bs, w, hk, g, g', gu, gk, gl⟩
    · obtain ⟨i, hi⟩ := hi bs
      refine .inl ⟨b :: bs, i, u, by simp [fetchBytes, h, g, gl], ?_, by simp [gl]; omega, ?_, by simp [g, hi]⟩
      · simp only [decode, hr]
        rw [if_neg (by omega), List.take_of_length_le (by omega), hi, List.drop_of_length_le (by omega)]
      · rw [List.length_cons, Nat.add_comm, gl]
        exact ht.trans gu
    · refine .inr ⟨k + 1, e, u, b :: bs, w, by omega, ?_, ?_, by simp [g], by simp [fetchBytes, h, gk], by simp [gl],
        .inr ⟨b, by simp only [decode, hr, gl, hk, if_true]⟩⟩
      · rw [fetchBytes]
        simp only [h, g']
      · rw [Nat.add_comm]
        exact ht.trans gu
  · exact .inr ⟨0, e, t, [], s, by omega, by simp [fetchBytes, h], ht, by simp [h], rfl, rfl, .inl rfl⟩

/-- Everything a step of a machine can be: a refused configuration, the end of the run, a host event, a fetch error
raised, or the meaning of the fetched instruction. -/
theorem runTurn_cases (s : State) :
    (configOk s = false ∧ runTurn s = .refused .badConfiguration) ∨
    (∃ f, runEnd s = some f ∧ runTurn s = .fault f) ∨
    (∃ e t, fetchInstr s = (.error e, t) ∧ runTurn s = .next (t.raise e)) ∨
    ∃ i t, fetchInstr s = (.ok i, t) ∧ runTurn s = exec i t := by
  unfold runTurn
  cases hc : configOk s with
  | false => exact .inl ⟨rfl, by simp⟩
  | true =>
    simp only [if_true]
    cases hr : runEnd s with
    | some f => exact .inr (.inl ⟨f, rfl, rfl⟩)
    | none =>
      simp only [cpuStep]
      generalize fetchInstr s = q
      obtain ⟨⟨e⟩ | ⟨i⟩, t⟩ := q
      · exact .inr (.inr (.inl ⟨e, t, rfl, rfl⟩))
      · exact .inr (.inr (.inr ⟨i, t, rfl, rfl⟩))

end Sys2Proof.Machine
end

