-- ==== Sys2Proof/Laws/Exec.lean ====
section
/-! SUPPORT. What the meaning of any instruction can do: the case split that the invariants of a step rest on. -/

namespace Sys2Proof.Machine

/-- `t` differs from `s` in the two engines, `halted`, latches and the tick only, and `err` is as it was. -/
def LocalEffect (s t : State) : Prop :=
  t = { s with a := t.a, b := t.b, halted := t.halted, latch := t.latch, tick := t.tick }

/-- `t` is `s` with an error raised; latches and the tick may differ. -/
def RaisedEffect (s t : State) : Prop :=
  (∃ e, t.err = some e) ∧ t = { s with err := t.err, latch := t.latch, tick := t.tick }

/-- What `exec` can do to a state. -/
def ExecEffect (i : Instr) (s t : State) : Prop :=
  LocalEffect s t ∨ RaisedEffect s t ∨
  (∃ a v f, i.writesContents = true ∧ (i.variant = .A → f = some .ram) ∧ onWrite (busWriteMem a v f s) = .next t) ∨
  (∃ a j v f, i.writesStatus = true ∧ onWrite (busWriteStatus a j v f s) = .next t) ∨
  ∃ p v, i.writesPort = true ∧ onWrite (busWritePort p v s) = .next t

theorem ExecEffect.ofLocal {i : Instr} {s t u : State} (h : (Host.Outcome.next u : Result) = .next t)
    (hu : LocalEffect s u) : ExecEffect i s t := by
  cases h
  exact .inl hu

theorem ExecEffect.ofRaise {i : Instr} {s t : State} {e : TypedError}
    (h : (Host.Outcome.next (s.raise e) : Result) = .next t) : ExecEffect i s t := by
  cases h
  exact .inr (.inl ⟨⟨e, rfl⟩, rfl⟩)

/-- An instruction that reads through the Bus and then updates the engines. -/
theorem ExecEffect.ofRead {i : Instr} {s t : State} {r : Answer Byte × State} {k : Byte → State → State}
    (h : onRead r k = .next t) (hr : ReadFrame s r.2) (hk : ∀ v u, LocalEffect u (k v u)) : ExecEffect i s t := by
  rcases onRead_next r k with ⟨v, -, g⟩ | ⟨e, -, g⟩
  · rw [g] at h
    cases h
    have := hk v r.2
    unfold LocalEffect at this
    unfold ReadFrame at hr
    refine .inl ?_
    unfold LocalEffect
    rw [this, hr]
  · rw [g] at h
    cases h
    unfold ReadFrame at hr
    exact .inr (.inl ⟨⟨e, rfl⟩, by rw [hr]; rfl⟩)

theorem ExecEffect.ofAdmitted {i j : Instr} {s t : State} {r : Result} (h : admitted j s r = .next t)
    (hr : r = .next t → ExecEffect i s t) : ExecEffect i s t := by
  rcases admitted_cases j s r with ⟨-, g⟩ | ⟨-, g⟩
  · exact hr (g ▸ h)
  · exact .ofRaise (g ▸ h)

theorem busReadMem_frame (a : Addr) (f : Option DevKind) (s : State) : ReadFrame s (busReadMem a f s).2 := by
  rw [busReadMem_state]; rfl

theorem busReadStatus_frame (a : Addr) (i : Nat) (f : Option DevKind) (s : State) :
    ReadFrame s (busReadStatus a i f s).2 := by
  rw [busReadStatus_state]; rfl

theorem busReadPort_frame (p : Addr) (s : State) : ReadFrame s (busReadPort p s).2 := by
  rw [busReadPort_state]; rfl

/-- The call of a variant-B return: local, or an underflow raised. -/
theorem ExecEffect.ofReturnB {i : Instr} {s t : State} (h : (Host.Outcome.next s.returnB : Result) = .next t) :
    ExecEffect i s t := by
  rcases s.returnB_cases with ⟨-, g⟩ | ⟨v, k, -, g⟩ <;> rw [g] at h
  · exact .ofRaise h
  · exact .ofLocal h rfl

/-- The accesses of the instructions that only read. -/
theorem ExecEffect.ofReadM {i : Instr} {s t : State} {k : Byte → State → State} (h : readM s k = .next t)
    (hk : ∀ v u, LocalEffect u (k v u)) : ExecEffect i s t := .ofRead h (busReadMem_frame _ _ _) hk

theorem ExecEffect.ofReadRam {i : Instr} {s t : State} {k : Nibble → State → State} (h : readRam s k = .next t)
    (hk : ∀ v u, LocalEffect u (k v u)) : ExecEffect i s t := .ofRead h (busReadMem_frame _ _ _) fun _ _ => hk _ _

theorem ExecEffect.ofReadStatus {i : Instr} {s t : State} {n : Nat} (h : readStatusToAcc n s = .next t) :
    ExecEffect i s t := .ofRead h (busReadStatus_frame _ _ _ _) fun _ _ => rfl

theorem aluMem_effect {i : Instr} {op : AluOp} {s t : State} (h : aluMem op s = .next t) : ExecEffect i s t :=
  .ofReadM h fun _ _ => rfl

/-- Everything `exec` can do, by kind of effect. -/
theorem exec_effect {i : Instr} {s t : State} (h : exec i s = .next t) : ExecEffect i s t := by
  cases i <;> simp only [exec] at h
  case aJcn c a8 => unfold execAJcn at h; split at h <;> exact .ofLocal h rfl
  case aIsz r a8 => unfold execAIsz at h; simp only at h; split at h <;> exact .ofLocal h rfl
  case aDaa => unfold execADaa at h; split at h <;> exact .ofLocal h rfl
  case aBbl d =>
    unfold execABbl at h
    rcases s.returnA_cases d with ⟨-, g⟩ | ⟨v, k, -, g⟩ <;> rw [g] at h
    · exact .ofRaise h
    · exact .ofLocal h rfl
  case aFin p => exact .ofAdmitted h fun g => .ofRead g (busReadMem_frame _ _ _) fun _ _ => rfl
  case aRdr => exact .ofAdmitted h fun g => .ofRead g (busReadPort_frame _ _) fun _ _ => rfl
  case aWmp => exact .ofAdmitted h fun g => .inr (.inr (.inr (.inr ⟨_, _, rfl, g⟩)))
  case aWrr => exact .ofAdmitted h fun g => .inr (.inr (.inr (.inr ⟨_, _, rfl, g⟩)))
  case bOUT n => exact .inr (.inr (.inr (.inr ⟨_, _, rfl, h⟩)))
  case aWrm => exact .inr (.inr (.inl ⟨_, _, _, rfl, fun _ => rfl, h⟩))
  case bLMr r => exact .inr (.inr (.inl ⟨_, _, _, rfl, fun g => absurd g (by simp [Instr.variant]), h⟩))
  case bLMI r => exact .inr (.inr (.inl ⟨_, _, _, rfl, fun g => absurd g (by simp [Instr.variant]), h⟩))
  case aWr0 => exact .inr (.inr (.inr (.inl ⟨_, _, _, _, rfl, h⟩)))
  case aWr1 => exact .inr (.inr (.inr (.inl ⟨_, _, _, _, rfl, h⟩)))
  case aWr2 => exact .inr (.inr (.inr (.inl ⟨_, _, _, _, rfl, h⟩)))
  case aWr3 => exact .inr (.inr (.inr (.inl ⟨_, _, _, _, rfl, h⟩)))
  case aRdm => exact .ofReadRam h fun _ _ => rfl
  case aAdm => exact .ofReadRam h fun _ _ => rfl
  case aSbm => exact .ofReadRam h fun _ _ => rfl
  case aRd0 => exact .ofReadStatus h
  case aRd1 => exact .ofReadStatus h
  case aRd2 => exact .ofReadStatus h
  case aRd3 => exact .ofReadStatus h
  case bLrM d => exact .ofReadM h fun _ _ => rfl
  case bINP n => exact .ofRead h (busReadPort_frame _ _) fun _ _ => rfl
  case bRET => exact .ofReturnB h
  case bRFc c => unfold execBRFc at h; split at h; exacts [.ofLocal h rfl, .ofReturnB h]
  case bRTc c => unfold execBRTc at h; split at h; exacts [.ofReturnB h, .ofLocal h rfl]
  case bJFc c a => unfold execBJFc at h; split at h <;> exact .ofLocal h rfl
  case bJTc c a => unfold execBJTc at h; split at h <;> exact .ofLocal h rfl
  case bCFc c a => unfold execBCFc at h; split at h <;> exact .ofLocal h rfl
  case bCTc c a => unfold execBCTc at h; split at h <;> exact .ofLocal h rfl
  all_goals
    first
      | exact aluMem_effect h
      | exact .ofLocal h rfl
      | exact .ofRaise h
      | exact .ofAdmitted h fun g => .ofLocal g rfl

end Sys2Proof.Machine
end

