-- ==== Sys2Proof/Laws/Access.lean ====
section
/-! SUPPORT. The accesses of an instruction in the words of Sys2Proof/Safety.lean: what each read answers and what each
write does, once and for all. -/

namespace Sys2Proof.Machine

theorem mapChain_ticked (a : Addr) (s : State) : (mapChain a s).2.ticked = translated s a := by
  rw [mapChain_state]
  rfl

/-- The answer of a read as the Bus gives it. -/
def answerOf : Option Byte → Answer Byte
  | some v => .ok v
  | none => .error .notImplemented

theorem busReadMem_eq (a : Addr) (f : Option DevKind) (s : State) :
    busReadMem a f s = (answerOf (readAnswer s a f), translated s a) := by
  unfold busReadMem readAnswer answering
  simp only
  cases h : scanMem f (mapChain a s).1 (mapChain a s).2 with
  | none => simp [mapChain_ticked, answerOf]
  | some p =>
    obtain ⟨dev, e⟩ := p
    have h3 := (scanMem_found h).2.2
    simp only [mapChain_ticked, entryRead]
    cases hb : e.body with
    | memory ro st img =>
      simp only [devRead, h3, cellKey, if_true]
      rw [mapChain_state]
      rfl
    | foreign =>
      simp only [foreignRead]
      rw [mapChain_state]
      cases Config.foreignRead s.tick <;> rfl
    | mapperWindow m => rfl

theorem busReadStatus_eq (a : Addr) {i : Nat} (hi : i ≤ 3) (f : Option DevKind) (s : State) :
    busReadStatus a i f s = (answerOf (statusAnswer s a i f), translated s a) := by
  have hi' : ¬3 < i := by omega
  unfold busReadStatus statusAnswer answering
  simp only
  cases h : scanMem f (mapChain a s).1 (mapChain a s).2 with
  | none => simp [mapChain_ticked, answerOf]
  | some p =>
    obtain ⟨dev, e⟩ := p
    have h3 := (scanMem_found h).2.2
    simp only [mapChain_ticked, entryReadStatus]
    cases hb : e.body with
    | memory ro st img =>
      cases st
      · rfl
      · simp only [devReadStatus, h3, cellKey, statusKey, hi', Bool.not_true, decide_false, Bool.or_false,
          Bool.false_eq_true, if_false]
        rw [mapChain_state]
        rfl
    | foreign =>
      simp only [foreignRead]
      rw [mapChain_state]
      cases Config.foreignRead s.tick <;> rfl
    | mapperWindow m => rfl

theorem busReadPort_eq (p : Addr) (s : State) :
    busReadPort p s = (answerOf (portAnswer s p), { s with tick := s.tick + 1 }) := by
  unfold busReadPort portAnswer
  cases h : scanPort p s with
  | none => rfl
  | some e =>
    simp only
    cases hb : e.body with
    | foreign =>
      simp only [foreignRead]
      cases Config.foreignRead s.tick <;> rfl
    | mapperWindow m => rfl

/-- Going on with what a read answers. -/
theorem onRead_loads {ans : Option Byte} {u : State} {k : Byte → State → State} {g : Byte → State}
    (h : ∀ v, k v u = g v) : LoadsAnswer (onRead (answerOf ans, u) k) ans u g := by
  refine ⟨?_, ?_⟩
  · rintro v rfl
    rw [← h]
    rfl
  · rintro rfl
    rfl

/-- The errors a memory write can report; it then leaves what its translation left. -/
theorem busWriteMem_error {a : Addr} {v : Byte} {f : Option DevKind} {s : State} {x : TypedError}
    (h : (busWriteMem a v f s).1 = .error x) :
    (busWriteMem a v f s).2 = translated s a ∧ (x = .readOnly ∨ x = .notImplemented) := by
  unfold busWriteMem at *
  simp only at *
  cases hs : scanMem f (mapChain a s).1 (mapChain a s).2 with
  | none => rw [hs] at h; cases h
  | some p =>
    obtain ⟨dev, e⟩ := p
    have h3 := (scanMem_found hs).2.2
    rw [hs] at h
    simp only at h ⊢
    cases hw : entryWrite e dev (mapChain a s).1 v (mapChain a s).2 with
    | ok t => rw [hw] at h; cases h
    | error y =>
      rw [hw] at h
      cases h
      refine ⟨mapChain_ticked a s, ?_⟩
      unfold entryWrite devWrite foreignWrite at hw
      rw [h3] at hw
      split at hw
      · split_ifs at hw <;> simp_all
      · split_ifs at hw
        simp_all
      · cases hw

/-- The errors a status write of an entry 0 to 3 can report; it then leaves what its translation left. -/
theorem busWriteStatus_error {a : Addr} {i : Nat} (hi : i ≤ 3) {v : Byte} {f : Option DevKind} {s : State}
    {x : TypedError} (h : (busWriteStatus a i v f s).1 = .error x) :
    (busWriteStatus a i v f s).2 = translated s a ∧ (x = .readOnly ∨ x = .notImplemented) := by
  have hi' : ¬3 < i := by omega
  unfold busWriteStatus at *
  simp only at *
  cases hs : scanMem f (mapChain a s).1 (mapChain a s).2 with
  | none => rw [hs] at h; cases h
  | some p =>
    obtain ⟨dev, e⟩ := p
    have h3 := (scanMem_found hs).2.2
    rw [hs] at h
    simp only at h ⊢
    cases hw : entryWriteStatus e dev (mapChain a s).1 i v (mapChain a s).2 with
    | ok t => rw [hw] at h; cases h
    | error y =>
      rw [hw] at h
      cases h
      refine ⟨mapChain_ticked a s, ?_⟩
      unfold entryWriteStatus devWriteStatus foreignWrite at hw
      simp only [h3, hi', decide_false, Bool.not_true, Bool.or_false, Bool.false_eq_true, if_false] at hw
      split at hw
      · split_ifs at hw <;> simp_all
      · split_ifs at hw
        simp_all
      · simp_all

/-- The error a port write can report; it then leaves the state but for the access count. -/
theorem busWritePort_error {p : Addr} {v : Byte} {s : State} {x : TypedError} (h : (busWritePort p v s).1 = .error x) :
    (busWritePort p v s).2 = { s with tick := s.tick + 1 } ∧ x = .notImplemented := by
  unfold busWritePort at *
  cases hs : scanPort p s with
  | none => rw [hs] at h; cases h
  | some e =>
    rw [hs] at h
    simp only at h ⊢
    cases hb : e.body with
    | foreign =>
      rw [hb] at h
      simp only [foreignWrite] at h ⊢
      split at h
      · cases h
      · rename_i hf
        cases h
        simp only [hf]
        exact ⟨rfl, trivial⟩
    | mapperWindow m => rw [hb] at h; cases h

/-- Finishing after a write that reported an error. -/
theorem onWrite_error (u : State) (e : TypedError) : onWrite (.error e, u) = .next (writeError u e) := by
  unfold onWrite writeError
  simp only
  cases u.cfg.params.writeErr <;> rfl

theorem onWrite_ok (u : State) : onWrite (.ok (), u) = .next u := rfl

theorem onWrite_mem {s : State} (hc : Canonical s) (a : Addr) (f : Option DevKind) (v : Byte) :
    StoresByte (onWrite (busWriteMem a v f s)) s a f v := by
  unfold StoresByte busWriteMem answering
  simp only
  refine ⟨fun h => ?_, fun dev e h => ?_⟩
  · rw [h]
    simp only [mapChain_ticked]
    rfl
  · have h3 := (scanMem_found h).2.2
    have hw : (mapChain a s).2.mem.wf = true := by rw [mapChain_state]; exact hc.1
    rw [h]
    refine ⟨fun st img hb => ?_, fun st img hb => ?_, fun hb => ?_, fun m hb => ?_⟩
    · simp only [entryWrite, hb, devWrite, h3, finishWrite, Bool.not_true, Bool.false_eq_true, if_false]
      refine ⟨_, rfl, ?_, ?_, fun k hk => ?_⟩
      · simp only [State.ticked]
        rw [mapChain_state]
        rfl
      · simp only [State.ticked]
        rw [Memory.read_write hw]
        simp [cellKey]
      · simp only [State.ticked]
        rw [Memory.read_write hw, if_neg (by simpa [cellKey] using hk)]
        rw [mapChain_state]
    · simp [entryWrite, hb, devWrite, h3, finishWrite, mapChain_ticked, onWrite_error]
    · simp only [entryWrite, hb, foreignWrite]
      rw [show (mapChain a s).2.tick = s.tick by rw [mapChain_state]]
      cases Config.foreignWriteOk s.tick <;> simp [finishWrite, mapChain_ticked, onWrite_error, onWrite_ok]
    · simp only [entryWrite, hb, finishWrite, mapperWrite, State.ticked, onWrite_ok]
      rw [mapChain_state]
      rfl

theorem onWrite_status {s : State} (hc : Canonical s) (a : Addr) {i : Nat} (hi : i ≤ 3) (f : Option DevKind) (v : Byte) :
    StoresStatus (onWrite (busWriteStatus a i v f s)) s a i f v := by
  have hi' : ¬3 < i := by omega
  unfold StoresStatus busWriteStatus answering
  simp only
  refine ⟨fun h => ?_, fun dev e h => ?_⟩
  · rw [h]
    simp only [mapChain_ticked]
    rfl
  · have h3 := (scanMem_found h).2.2
    have hw : (mapChain a s).2.stat.wf = true := by rw [mapChain_state]; exact hc.2
    rw [h]
    refine ⟨fun img hb => ?_, fun img hb => ?_, fun ro img hb => ?_, fun hb => ?_, fun m hb => ?_⟩
    · simp only [entryWriteStatus, hb, devWriteStatus, h3, finishWrite, hi', decide_false, Bool.not_true,
        Bool.or_false, Bool.false_eq_true, if_false]
      refine ⟨_, rfl, ?_, ?_, fun k hk => ?_⟩
      · simp only [State.ticked]
        rw [mapChain_state]
        rfl
      · simp only [State.ticked]
        rw [Memory.read_write hw]
        simp [cellKey, statusKey]
      · simp only [State.ticked]
        rw [Memory.read_write hw, if_neg (by simpa [cellKey, statusKey] using hk)]
        rw [mapChain_state]
    · simp [entryWriteStatus, hb, devWriteStatus, h3, finishWrite, mapChain_ticked, onWrite_error, hi']
    · simp [entryWriteStatus, hb, devWriteStatus, finishWrite, mapChain_ticked, onWrite_error]
    · simp only [entryWriteStatus, hb, foreignWrite]
      rw [show (mapChain a s).2.tick = s.tick by rw [mapChain_state]]
      cases Config.foreignWriteOk s.tick <;> simp [finishWrite, mapChain_ticked, onWrite_error, onWrite_ok]
    · simp [entryWriteStatus, hb, finishWrite, mapChain_ticked, onWrite_error]

theorem onWrite_port (s : State) (p : Addr) (v : Byte) : StoresPort (onWrite (busWritePort p v s)) s p v := by
  unfold StoresPort busWritePort
  refine ⟨fun h => ?_, fun e h => ?_⟩
  · rw [h]
    rfl
  · rw [h]
    refine ⟨fun hb => ?_, fun m hb => ?_⟩
    · simp only [hb, foreignWrite]
      cases Config.foreignWriteOk s.tick <;> simp [finishWrite, onWrite_error, onWrite_ok, State.ticked]
    · simp only [hb, finishWrite, mapperWrite, State.ticked]
      rfl

end Sys2Proof.Machine
end

