-- ==== Sys2Proof/Laws/PerInstr.lean ====
section
/-! SUPPORT. A statement about every instruction as syntax, made once per constructor. -/

namespace Sys2Proof.Laws.EncodingLength

/-- The first byte alone determines the length of an instruction (30_encoding.md R131): the row that matches it asks
for as many bytes as the instruction's encoding has. -/
def Statement (i : Instr) : Prop := (findRow i.variant i.opcode).map DecodeRow.len = some (encode i).length

theorem aNop : Statement (.aNop) := by
  have h : (findRow .A (0x00)).map DecodeRow.len = some 1 := by decide
  exact h

theorem aJcn (c : Nibble) (a8 : Byte) : Statement (.aJcn c a8) := by
  have h : ∀ (c : Nibble), (findRow .A (0x1#4 ++ c)).map DecodeRow.len = some 2 := by decide
  exact h c

theorem aFim (p : PairA) (d8 : Byte) : Statement (.aFim p d8) := by
  have h : ∀ (p : PairA), (findRow .A (0x2#4 ++ (BitVec.ofFin p : BitVec 3) ++ 0#1)).map DecodeRow.len = some 2 := by decide
  exact h p

theorem aSrc (p : PairA) : Statement (.aSrc p) := by
  have h : ∀ (p : PairA), (findRow .A (0x2#4 ++ (BitVec.ofFin p : BitVec 3) ++ 1#1)).map DecodeRow.len = some 1 := by decide
  exact h p

theorem aFin (p : PairA) : Statement (.aFin p) := by
  have h : ∀ (p : PairA), (findRow .A (0x3#4 ++ (BitVec.ofFin p : BitVec 3) ++ 0#1)).map DecodeRow.len = some 1 := by decide
  exact h p

theorem aJin (p : PairA) : Statement (.aJin p) := by
  have h : ∀ (p : PairA), (findRow .A (0x3#4 ++ (BitVec.ofFin p : BitVec 3) ++ 1#1)).map DecodeRow.len = some 1 := by decide
  exact h p

theorem aJun (a12 : PcA) : Statement (.aJun a12) := by
  have h : ∀ k : BitVec 4, (findRow .A (0x4#4 ++ k)).map DecodeRow.len = some 2 := by decide
  exact h (a12.extractLsb' 8 4)

theorem aJms (a12 : PcA) : Statement (.aJms a12) := by
  have h : ∀ k : BitVec 4, (findRow .A (0x5#4 ++ k)).map DecodeRow.len = some 2 := by decide
  exact h (a12.extractLsb' 8 4)

theorem aInc (r : RegA) : Statement (.aInc r) := by
  have h : ∀ (r : RegA), (findRow .A (0x6#4 ++ (BitVec.ofFin r : Nibble))).map DecodeRow.len = some 1 := by decide
  exact h r

theorem aIsz (r : RegA) (a8 : Byte) : Statement (.aIsz r a8) := by
  have h : ∀ (r : RegA), (findRow .A (0x7#4 ++ (BitVec.ofFin r : Nibble))).map DecodeRow.len = some 2 := by decide
  exact h r

theorem aAdd (r : RegA) : Statement (.aAdd r) := by
  have h : ∀ (r : RegA), (findRow .A (0x8#4 ++ (BitVec.ofFin r : Nibble))).map DecodeRow.len = some 1 := by decide
  exact h r

theorem aSub (r : RegA) : Statement (.aSub r) := by
  have h : ∀ (r : RegA), (findRow .A (0x9#4 ++ (BitVec.ofFin r : Nibble))).map DecodeRow.len = some 1 := by decide
  exact h r

theorem aLd (r : RegA) : Statement (.aLd r) := by
  have h : ∀ (r : RegA), (findRow .A (0xA#4 ++ (BitVec.ofFin r : Nibble))).map DecodeRow.len = some 1 := by decide
  exact h r

theorem aXch (r : RegA) : Statement (.aXch r) := by
  have h : ∀ (r : RegA), (findRow .A (0xB#4 ++ (BitVec.ofFin r : Nibble))).map DecodeRow.len = some 1 := by decide
  exact h r

theorem aBbl (d : Nibble) : Statement (.aBbl d) := by
  have h : ∀ (d : Nibble), (findRow .A (0xC#4 ++ d)).map DecodeRow.len = some 1 := by decide
  exact h d

theorem aLdm (d : Nibble) : Statement (.aLdm d) := by
  have h : ∀ (d : Nibble), (findRow .A (0xD#4 ++ d)).map DecodeRow.len = some 1 := by decide
  exact h d

theorem aWrm : Statement (.aWrm) := by
  have h : (findRow .A (0xE0)).map DecodeRow.len = some 1 := by decide
  exact h

theorem aWmp : Statement (.aWmp) := by
  have h : (findRow .A (0xE1)).map DecodeRow.len = some 1 := by decide
  exact h

theorem aWrr : Statement (.aWrr) := by
  have h : (findRow .A (0xE2)).map DecodeRow.len = some 1 := by decide
  exact h

theorem aWpm : Statement (.aWpm) := by
  have h : (findRow .A (0xE3)).map DecodeRow.len = some 1 := by decide
  exact h

theorem aWr0 : Statement (.aWr0) := by
  have h : (findRow .A (0xE4)).map DecodeRow.len = some 1 := by decide
  exact h

theorem aWr1 : Statement (.aWr1) := by
  have h : (findRow .A (0xE5)).map DecodeRow.len = some 1 := by decide
  exact h

theorem aWr2 : Statement (.aWr2) := by
  have h : (findRow .A (0xE6)).map DecodeRow.len = some 1 := by decide
  exact h

theorem aWr3 : Statement (.aWr3) := by
  have h : (findRow .A (0xE7)).map DecodeRow.len = some 1 := by decide
  exact h

theorem aSbm : Statement (.aSbm) := by
  have h : (findRow .A (0xE8)).map DecodeRow.len = some 1 := by decide
  exact h

theorem aRdm : Statement (.aRdm) := by
  have h : (findRow .A (0xE9)).map DecodeRow.len = some 1 := by decide
  exact h

theorem aRdr : Statement (.aRdr) := by
  have h : (findRow .A (0xEA)).map DecodeRow.len = some 1 := by decide
  exact h

theorem aAdm : Statement (.aAdm) := by
  have h : (findRow .A (0xEB)).map DecodeRow.len = some 1 := by decide
  exact h

theorem aRd0 : Statement (.aRd0) := by
  have h : (findRow .A (0xEC)).map DecodeRow.len = some 1 := by decide
  exact h

theorem aRd1 : Statement (.aRd1) := by
  have h : (findRow .A (0xED)).map DecodeRow.len = some 1 := by decide
  exact h

theorem aRd2 : Statement (.aRd2) := by
  have h : (findRow .A (0xEE)).map DecodeRow.len = some 1 := by decide
  exact h

theorem aRd3 : Statement (.aRd3) := by
  have h : (findRow .A (0xEF)).map DecodeRow.len = some 1 := by decide
  exact h

theorem aClb : Statement (.aClb) := by
  have h : (findRow .A (0xF0)).map DecodeRow.len = some 1 := by decide
  exact h

theorem aClc : Statement (.aClc) := by
  have h : (findRow .A (0xF1)).map DecodeRow.len = some 1 := by decide
  exact h

theorem aIac : Statement (.aIac) := by
  have h : (findRow .A (0xF2)).map DecodeRow.len = some 1 := by decide
  exact h

theorem aCmc : Statement (.aCmc) := by
  have h : (findRow .A (0xF3)).map DecodeRow.len = some 1 := by decide
  exact h

theorem aCma : Statement (.aCma) := by
  have h : (findRow .A (0xF4)).map DecodeRow.len = some 1 := by decide
  exact h

theorem aRal : Statement (.aRal) := by
  have h : (findRow .A (0xF5)).map DecodeRow.len = some 1 := by decide
  exact h

theorem aRar : Statement (.aRar) := by
  have h : (findRow .A (0xF6)).map DecodeRow.len = some 1 := by decide
  exact h

theorem aTcc : Statement (.aTcc) := by
  have h : (findRow .A (0xF7)).map DecodeRow.len = some 1 := by decide
  exact h

theorem aDac : Statement (.aDac) := by
  have h : (findRow .A (0xF8)).map DecodeRow.len = some 1 := by decide
  exact h

theorem aTcs : Statement (.aTcs) := by
  have h : (findRow .A (0xF9)).map DecodeRow.len = some 1 := by decide
  exact h

theorem aStc : Statement (.aStc) := by
  have h : (findRow .A (0xFA)).map DecodeRow.len = some 1 := by decide
  exact h

theorem aDaa : Statement (.aDaa) := by
  have h : (findRow .A (0xFB)).map DecodeRow.len = some 1 := by decide
  exact h

theorem aKbp : Statement (.aKbp) := by
  have h : (findRow .A (0xFC)).map DecodeRow.len = some 1 := by decide
  exact h

theorem aDcl : Statement (.aDcl) := by
  have h : (findRow .A (0xFD)).map DecodeRow.len = some 1 := by decide
  exact h

theorem aIllegalLow (x : Nibble) : Statement (.aIllegalLow x) := by
  have h : ∀ (x : Nibble), (findRow .A (0x0#4 ++ x)).map DecodeRow.len = some 1 := by decide
  exact h x

theorem aIllegalHigh (x : BitVec 1) : Statement (.aIllegalHigh x) := by
  have h : ∀ (x : BitVec 1), (findRow .A (0x7F#7 ++ x)).map DecodeRow.len = some 1 := by decide
  exact h x

theorem bHltLow : Statement (.bHltLow) := by
  have h : (findRow .B (0x00)).map DecodeRow.len = some 1 := by decide
  exact h

theorem bHltHigh : Statement (.bHltHigh) := by
  have h : (findRow .B (0xFF)).map DecodeRow.len = some 1 := by decide
  exact h

theorem bLr1r2 (d s : RegB) : Statement (.bLr1r2 d s) := by
  have h : ∀ (d : RegB) (s : RegB), (findRow .B (0b11#2 ++ d.bits ++ s.bits)).map DecodeRow.len = some 1 := by
    intro d s
    cases d <;> cases s <;> decide
  exact h d s

theorem bLrM (d : RegB) : Statement (.bLrM d) := by
  have h : ∀ (d : RegB), (findRow .B (0b11#2 ++ d.bits ++ 0b111#3)).map DecodeRow.len = some 1 := by
    intro d
    cases d <;> decide
  exact h d

theorem bLMr (s : RegB) : Statement (.bLMr s) := by
  have h : ∀ (s : RegB), (findRow .B (0b11111#5 ++ s.bits)).map DecodeRow.len = some 1 := by
    intro s
    cases s <;> decide
  exact h s

theorem bADr (s : RegB) : Statement (.bADr s) := by
  have h : ∀ (s : RegB), (findRow .B (0b10000#5 ++ s.bits)).map DecodeRow.len = some 1 := by
    intro s
    cases s <;> decide
  exact h s

theorem bADM : Statement (.bADM) := by
  have h : (findRow .B (0b10000111)).map DecodeRow.len = some 1 := by decide
  exact h

theorem bACr (s : RegB) : Statement (.bACr s) := by
  have h : ∀ (s : RegB), (findRow .B (0b10001#5 ++ s.bits)).map DecodeRow.len = some 1 := by
    intro s
    cases s <;> decide
  exact h s

theorem bACM : Statement (.bACM) := by
  have h : (findRow .B (0b10001111)).map DecodeRow.len = some 1 := by decide
  exact h

theorem bSUr (s : RegB) : Statement (.bSUr s) := by
  have h : ∀ (s : RegB), (findRow .B (0b10010#5 ++ s.bits)).map DecodeRow.len = some 1 := by
    intro s
    cases s <;> decide
  exact h s

theorem bSUM : Statement (.bSUM) := by
  have h : (findRow .B (0b10010111)).map DecodeRow.len = some 1 := by decide
  exact h

theorem bSBr (s : RegB) : Statement (.bSBr s) := by
  have h : ∀ (s : RegB), (findRow .B (0b10011#5 ++ s.bits)).map DecodeRow.len = some 1 := by
    intro s
    cases s <;> decide
  exact h s

theorem bSBM : Statement (.bSBM) := by
  have h : (findRow .B (0b10011111)).map DecodeRow.len = some 1 := by decide
  exact h

theorem bNDr (s : RegB) : Statement (.bNDr s) := by
  have h : ∀ (s : RegB), (findRow .B (0b10100#5 ++ s.bits)).map DecodeRow.len = some 1 := by
    intro s
    cases s <;> decide
  exact h s

theorem bNDM : Statement (.bNDM) := by
  have h : (findRow .B (0b10100111)).map DecodeRow.len = some 1 := by decide
  exact h

theorem bXRr (s : RegB) : Statement (.bXRr s) := by
  have h : ∀ (s : RegB), (findRow .B (0b10101#5 ++ s.bits)).map DecodeRow.len = some 1 := by
    intro s
    cases s <;> decide
  exact h s

theorem bXRM : Statement (.bXRM) := by
  have h : (findRow .B (0b10101111)).map DecodeRow.len = some 1 := by decide
  exact h

theorem bORr (s : RegB) : Statement (.bORr s) := by
  have h : ∀ (s : RegB), (findRow .B (0b10110#5 ++ s.bits)).map DecodeRow.len = some 1 := by
    intro s
    cases s <;> decide
  exact h s

theorem bORM : Statement (.bORM) := by
  have h : (findRow .B (0b10110111)).map DecodeRow.len = some 1 := by decide
  exact h

theorem bCPr (s : RegB) : Statement (.bCPr s) := by
  have h : ∀ (s : RegB), (findRow .B (0b10111#5 ++ s.bits)).map DecodeRow.len = some 1 := by
    intro s
    cases s <;> decide
  exact h s

theorem bCPM : Statement (.bCPM) := by
  have h : (findRow .B (0b10111111)).map DecodeRow.len = some 1 := by decide
  exact h

theorem bLrI (d : RegB) (i8 : Byte) : Statement (.bLrI d i8) := by
  have h : ∀ (d : RegB), (findRow .B (0b00#2 ++ d.bits ++ 0b110#3)).map DecodeRow.len = some 2 := by
    intro d
    cases d <;> decide
  exact h d

theorem bLMI (i8 : Byte) : Statement (.bLMI i8) := by
  have h : (findRow .B (0b00111110)).map DecodeRow.len = some 2 := by decide
  exact h

theorem bADI (i8 : Byte) : Statement (.bADI i8) := by
  have h : (findRow .B (0b00000100)).map DecodeRow.len = some 2 := by decide
  exact h

theorem bACI (i8 : Byte) : Statement (.bACI i8) := by
  have h : (findRow .B (0b00001100)).map DecodeRow.len = some 2 := by decide
  exact h

theorem bSUI (i8 : Byte) : Statement (.bSUI i8) := by
  have h : (findRow .B (0b00010100)).map DecodeRow.len = some 2 := by decide
  exact h

theorem bSBI (i8 : Byte) : Statement (.bSBI i8) := by
  have h : (findRow .B (0b00011100)).map DecodeRow.len = some 2 := by decide
  exact h

theorem bNDI (i8 : Byte) : Statement (.bNDI i8) := by
  have h : (findRow .B (0b00100100)).map DecodeRow.len = some 2 := by decide
  exact h

theorem bXRI (i8 : Byte) : Statement (.bXRI i8) := by
  have h : (findRow .B (0b00101100)).map DecodeRow.len = some 2 := by decide
  exact h

theorem bORI (i8 : Byte) : Statement (.bORI i8) := by
  have h : (findRow .B (0b00110100)).map DecodeRow.len = some 2 := by decide
  exact h

theorem bCPI (i8 : Byte) : Statement (.bCPI i8) := by
  have h : (findRow .B (0b00111100)).map DecodeRow.len = some 2 := by decide
  exact h

theorem bRST (n : BitVec 3) : Statement (.bRST n) := by
  have h : ∀ (n : BitVec 3), (findRow .B (0b00#2 ++ n ++ 0b101#3)).map DecodeRow.len = some 1 := by decide
  exact h n

theorem bINr (d : RegB) : Statement (.bINr d) := by
  have h : ∀ (d : RegB), (findRow .B (0b00#2 ++ d.bits ++ 0b000#3)).map DecodeRow.len = some 1 := by
    intro d
    cases d <;> decide
  exact h d

theorem bDCr (d : RegB) : Statement (.bDCr d) := by
  have h : ∀ (d : RegB), (findRow .B (0b00#2 ++ d.bits ++ 0b001#3)).map DecodeRow.len = some 1 := by
    intro d
    cases d <;> decide
  exact h d

theorem bRLC : Statement (.bRLC) := by
  have h : (findRow .B (0x02)).map DecodeRow.len = some 1 := by decide
  exact h

theorem bRRC : Statement (.bRRC) := by
  have h : (findRow .B (0x0A)).map DecodeRow.len = some 1 := by decide
  exact h

theorem bRAL : Statement (.bRAL) := by
  have h : (findRow .B (0x12)).map DecodeRow.len = some 1 := by decide
  exact h

theorem bRAR : Statement (.bRAR) := by
  have h : (findRow .B (0x1A)).map DecodeRow.len = some 1 := by decide
  exact h

theorem bRET : Statement (.bRET) := by
  have h : (findRow .B (0x07)).map DecodeRow.len = some 1 := by decide
  exact h

theorem bRFc (c : FlagB) : Statement (.bRFc c) := by
  have h : ∀ (c : FlagB), (findRow .B (0b000#3 ++ c.bits ++ 0b011#3)).map DecodeRow.len = some 1 := by
    intro c
    cases c <;> decide
  exact h c

theorem bRTc (c : FlagB) : Statement (.bRTc c) := by
  have h : ∀ (c : FlagB), (findRow .B (0b001#3 ++ c.bits ++ 0b011#3)).map DecodeRow.len = some 1 := by
    intro c
    cases c <;> decide
  exact h c

theorem bJMP (a14 : PcB) : Statement (.bJMP a14) := by
  have h : (findRow .B (0x44)).map DecodeRow.len = some 3 := by decide
  exact h

theorem bJFc (c : FlagB) (a14 : PcB) : Statement (.bJFc c a14) := by
  have h : ∀ (c : FlagB), (findRow .B (0b010#3 ++ c.bits ++ 0b000#3)).map DecodeRow.len = some 3 := by
    intro c
    cases c <;> decide
  exact h c

theorem bJTc (c : FlagB) (a14 : PcB) : Statement (.bJTc c a14) := by
  have h : ∀ (c : FlagB), (findRow .B (0b011#3 ++ c.bits ++ 0b000#3)).map DecodeRow.len = some 3 := by
    intro c
    cases c <;> decide
  exact h c

theorem bCAL (a14 : PcB) : Statement (.bCAL a14) := by
  have h : (findRow .B (0x46)).map DecodeRow.len = some 3 := by decide
  exact h

theorem bCFc (c : FlagB) (a14 : PcB) : Statement (.bCFc c a14) := by
  have h : ∀ (c : FlagB), (findRow .B (0b010#3 ++ c.bits ++ 0b010#3)).map DecodeRow.len = some 3 := by
    intro c
    cases c <;> decide
  exact h c

theorem bCTc (c : FlagB) (a14 : PcB) : Statement (.bCTc c a14) := by
  have h : ∀ (c : FlagB), (findRow .B (0b011#3 ++ c.bits ++ 0b010#3)).map DecodeRow.len = some 3 := by
    intro c
    cases c <;> decide
  exact h c

theorem bINP (n : BitVec 3) : Statement (.bINP n) := by
  have h : ∀ (n : BitVec 3), (findRow .B (0b0100#4 ++ n ++ 0b1#1)).map DecodeRow.len = some 1 := by decide
  exact h n

theorem bOUT (n : BitVec 5) : Statement (.bOUT n) := by
  have h : ∀ (n : BitVec 5), (findRow .B (0b01#2 ++ n ++ 0b1#1)).map DecodeRow.len = some 1 := by decide
  exact h n

theorem bIllegalIncDec (x : BitVec 1) : Statement (.bIllegalIncDec x) := by
  have h : ∀ (x : BitVec 1), (findRow .B (0b0011100#7 ++ x)).map DecodeRow.len = some 1 := by decide
  exact h x

theorem bIllegalRotate (x : BitVec 2) : Statement (.bIllegalRotate x) := by
  have h : ∀ (x : BitVec 2), (findRow .B (0b001#3 ++ x ++ 0b010#3)).map DecodeRow.len = some 1 := by decide
  exact h x

end Sys2Proof.Laws.EncodingLength
end

