-- ==== Sys2Proof/Tests/Slice0.lean ====
section
/-! SUPPORT. Tests, each one decoding or one step on a small state, with expected results from spec/, and for every
obligation with hypotheses a state that meets them. -/

set_option maxRecDepth 20000

namespace Sys2Proof.Tests

open Sys2Proof.Machine

/-! Ill-formed terms, one for each check (30_encoding.md R135, R143). -/

theorem test_illformed_aIllegalLow : (Instr.aIllegalLow 0).WellFormed = false := by decide
theorem test_illformed_bINr : (Instr.bINr .A).WellFormed = false := by decide
theorem test_illformed_bDCr : (Instr.bDCr .A).WellFormed = false := by decide
theorem test_illformed_bOUT : (Instr.bOUT 7).WellFormed = false := by decide
theorem test_wellformed_bounds : (Instr.aIllegalLow 1).WellFormed = true ∧ (Instr.bINr .B).WellFormed = true ∧
    (Instr.bDCr .L).WellFormed = true ∧ (Instr.bOUT 8).WellFormed = true ∧ (Instr.bOUT 31).WellFormed = true := by decide

/-! Every constructor from a word written out bit by bit from the tables of 30_encoding.md R134, R135, R143, R144. -/

/-- These bytes, followed by another byte, decode to this instruction and leave that byte. -/
def reads (v : Variant) (p : List Byte × Instr) : Bool :=
  match decode v (p.1 ++ [0x5A]) with
  | .ok (i, rest) => decide (i = p.2) && rest == [0x5A]
  | .error _ => false

theorem test_decode_a1 : ([
    ([0b00000000], .aNop), ([0b00011010, 0x30], .aJcn 10 0x30), ([0b00100110, 0xA7], .aFim 3 0xA7),
    ([0b00101111], .aSrc 7), ([0b00110100], .aFin 2), ([0b00110011], .aJin 1), ([0b01000010, 0x50], .aJun 0x250),
    ([0b01011111, 0xFE], .aJms 0xFFE), ([0b01100101], .aInc 5), ([0b01110101, 0xAA], .aIsz 5 0xAA),
    ([0b10000010], .aAdd 2), ([0b10010100], .aSub 4), ([0b10100011], .aLd 3), ([0b10111010], .aXch 10),
    ([0b11000001], .aBbl 1), ([0b11011001], .aLdm 9)
    ] : List (List Byte × Instr)).all (reads .A) = true := by decide

theorem test_decode_a2 : ([
    ([0b11100000], .aWrm), ([0b11100001], .aWmp), ([0b11100010], .aWrr), ([0b11100011], .aWpm),
    ([0b11100100], .aWr0), ([0b11100101], .aWr1), ([0b11100110], .aWr2), ([0b11100111], .aWr3),
    ([0b11101000], .aSbm), ([0b11101001], .aRdm), ([0b11101010], .aRdr), ([0b11101011], .aAdm),
    ([0b11101100], .aRd0), ([0b11101101], .aRd1), ([0b11101110], .aRd2), ([0b11101111], .aRd3)
    ] : List (List Byte × Instr)).all (reads .A) = true := by decide

theorem test_decode_a3 : ([
    ([0b11110000], .aClb), ([0b11110001], .aClc), ([0b11110010], .aIac), ([0b11110011], .aCmc),
    ([0b11110100], .aCma), ([0b11110101], .aRal), ([0b11110110], .aRar), ([0b11110111], .aTcc),
    ([0b11111000], .aDac), ([0b11111001], .aTcs), ([0b11111010], .aStc), ([0b11111011], .aDaa),
    ([0b11111100], .aKbp), ([0b11111101], .aDcl), ([0b00001111], .aIllegalLow 15), ([0b11111110], .aIllegalHigh 0),
    ([0b11111111], .aIllegalHigh 1)
    ] : List (List Byte × Instr)).all (reads .A) = true := by decide

theorem test_decode_b1 : ([
    ([0b00000001], .bHltLow), ([0b11111111], .bHltHigh), ([0b11001000], .bLr1r2 .B .A), ([0b11101111], .bLrM .H),
    ([0b11111001], .bLMr .B), ([0b10000001], .bADr .B), ([0b10000111], .bADM), ([0b10001110], .bACr .L),
    ([0b10001111], .bACM), ([0b10010011], .bSUr .D), ([0b10010111], .bSUM), ([0b10011010], .bSBr .C),
    ([0b10011111], .bSBM)
    ] : List (List Byte × Instr)).all (reads .B) = true := by decide

theorem test_decode_b2 : ([
    ([0b10100100], .bNDr .E), ([0b10100111], .bNDM), ([0b10101101], .bXRr .H), ([0b10101111], .bXRM),
    ([0b10110000], .bORr .A), ([0b10110111], .bORM), ([0b10111001], .bCPr .B), ([0b10111111], .bCPM),
    ([0b00101110, 0x3F], .bLrI .H 0x3F), ([0b00111110, 0x99], .bLMI 0x99), ([0b00000100, 1], .bADI 1),
    ([0b00001100, 2], .bACI 2), ([0b00010100, 3], .bSUI 3), ([0b00011100, 4], .bSBI 4)
    ] : List (List Byte × Instr)).all (reads .B) = true := by decide

theorem test_decode_b3 : ([
    ([0b00100100, 5], .bNDI 5), ([0b00101100, 6], .bXRI 6), ([0b00110100, 7], .bORI 7), ([0b00111100, 8], .bCPI 8),
    ([0b00011101], .bRST 3), ([0b00001000], .bINr .B), ([0b00110001], .bDCr .L), ([0b00000010], .bRLC),
    ([0b00001010], .bRRC), ([0b00010010], .bRAL), ([0b00011010], .bRAR), ([0b00111111], .bRET),
    ([0b00001011], .bRFc .zero), ([0b00110011], .bRTc .sign)
    ] : List (List Byte × Instr)).all (reads .B) = true := by decide

theorem test_decode_b4 : ([
    ([0b01111100, 0x34, 0xFF], .bJMP 0x3F34), ([0b01001000, 0, 2], .bJFc .zero 0x200),
    ([0b01111000, 0x34, 0x12], .bJTc .parity 0x1234), ([0b01101110, 0, 3], .bCAL 0x300),
    ([0b01000010, 1, 0x40], .bCFc .carry 1), ([0b01110010, 0, 3], .bCTc .sign 0x300), ([0b01001111], .bINP 7),
    ([0b01011011], .bOUT 13), ([0b00111001], .bIllegalIncDec 1), ([0b00101010], .bIllegalRotate 1)
    ] : List (List Byte × Instr)).all (reads .B) = true := by decide

/-- Every first byte of variant B matches a row, and every first byte of variant A does (V-ENC-1, V-ENC-3). -/
theorem test_census : ((List.range 256).all fun n =>
    (findRow .A (BitVec.ofNat 8 n)).isSome && (findRow .B (BitVec.ofNat 8 n)).isSome) = true := by decide

/-! Small machines. -/

/-- The plain machine of variant A with these bytes at `pc`. -/
def plainA (pc : PcA) (code : List Byte) (f : CpuA → CpuA) : State :=
  { State.reset with mem := Memory.load [] pc.toNat code, a := { f CpuA.reset with pc := pc } }

/-- The plain machine of variant B with these bytes at `pc`. -/
def plainB (pc : PcB) (code : List Byte) (f : CpuB → CpuB) : State :=
  { State.resetWith (MachineConfig.plain .B) with mem := Memory.load [] pc.toNat code, b := { f CpuB.reset with pc := pc } }

/-- The outcome is a next state of which `p` holds. -/
def ends (r : Result) (p : State → Bool) : Bool :=
  match r with
  | .next t => p t
  | _ => false

/-- A machine with one entry of every kind: 0 a ROM 0x200..0x2FF, 1 a RAM 0x00..0x3F of bank 0 with status, 2 a
read-only RAM 0x40..0x4F with status, 3 a RAM 0x50..0x5F without status, 4 a foreign device 0x60..0x6F, 5 the register
window 0x70..0x77 of mapper 0; ports 0..3 foreign, 8..11 the window. -/
def busConfig (v : Variant) (p : Params) : MachineConfig :=
  { variant := v, params := p, nLatches := 2
    mappers := [{ sourceBit := 12, slots := [some ⟨0, 12⟩, none, some ⟨1, 13⟩], lat := [some 0, none, some 0] }]
    memList := [⟨.rom, ⟨0x200, 0x2FF, .always⟩, .memory true false []⟩,
      ⟨.ram, ⟨0x00, 0x3F, .regEqCL 0⟩, .memory false true []⟩, ⟨.ram, ⟨0x40, 0x4F, .always⟩, .memory true true []⟩,
      ⟨.ram, ⟨0x50, 0x5F, .always⟩, .memory false false []⟩, ⟨.ram, ⟨0x60, 0x6F, .always⟩, .foreign⟩,
      ⟨.ram, ⟨0x70, 0x77, .always⟩, .mapperWindow 0⟩]
    portList := [⟨⟨0, 3, .always⟩, .foreign⟩, ⟨⟨8, 11, .always⟩, .mapperWindow 0⟩] }

/-- The machine of `busConfig` in variant A, with this address latch and this instruction byte at 0x200. -/
def busA (p : Params) (rc : Byte) (op : Byte) : State :=
  let s := State.resetWith (busConfig .A p)
  { s with a := { s.a with rc := rc, pc := 0x200, acc := 7 }, mem := Memory.load [] (contentKey 0 0) [op] }

/-- The machine of `busConfig` in variant B, with this pointer and these bytes at 0x200. -/
def busB (l : Byte) (code : List Byte) : State :=
  let s := State.resetWith (busConfig .B {})
  { s with b := { s.b with x := #v[0x5A, 1, 2, 3, 4, 0, l], pc := 0x200 }, mem := Memory.load [] (contentKey 0 0) code }

/-! Variant A, one step (95_test_vectors.md Part 2). -/

/-- A byte with a register operand 2, before (`ACC`, `x[2]`, `CY`) and after (`ACC`, `CY`). -/
def accReg (op : Byte) (a x : Nibble) (c : Bool) (a' : Nibble) (c' : Bool) : Bool :=
  ends (step (plainA 0x10 [op ||| 2] fun k => { k.setReg 2 x with acc := a, cy := c })) fun t =>
    t.a.acc == a' && t.a.cy == c' && t.a.pc == 0x11 && t.a.reg 2 == x && t.err == none

/-- A byte, before (`ACC`, `CY`) and after. -/
def acc (op : Byte) (a : Nibble) (c : Bool) (a' : Nibble) (c' : Bool) : Bool :=
  ends (step (plainA 0x10 [op] fun k => { k with acc := a, cy := c })) fun t =>
    t.a.acc == a' && t.a.cy == c' && t.a.pc == 0x11 && t.err == none

/-- V-A-ACC-1. -/
theorem test_add : (accReg 0x80 5 7 false 12 false && accReg 0x80 6 12 false 2 true && accReg 0x80 15 15 true 15 true &&
    accReg 0x80 15 0 true 0 true && accReg 0x80 9 9 true 3 true) = true := by decide
/-- V-A-ACC-2. -/
theorem test_sub : (accReg 0x90 15 15 true 0 true && accReg 0x90 0 0 false 15 false && accReg 0x90 0 1 true 15 false &&
    accReg 0x90 5 3 true 2 true && accReg 0x90 8 15 false 8 false) = true := by decide
/-- V-A-ACC-3. -/
theorem test_iac_dac : (acc 0xF2 3 false 4 false && acc 0xF2 15 false 0 true && acc 0xF2 14 true 15 false &&
    acc 0xF8 5 false 4 true && acc 0xF8 0 true 15 false && acc 0xF8 1 false 0 true) = true := by decide
/-- V-A-ACC-4. -/
theorem test_ral_rar : (acc 0xF5 9 false 2 true && acc 0xF5 0 true 1 false && acc 0xF5 15 true 15 true &&
    acc 0xF6 9 false 4 true && acc 0xF6 0 true 8 false && acc 0xF6 15 true 15 true) = true := by decide
/-- V-A-ACC-5. -/
theorem test_carry_group : (acc 0xF0 9 true 0 false && acc 0xF1 9 true 9 false && acc 0xF3 9 true 9 false &&
    acc 0xF4 9 true 6 true && acc 0xF7 9 true 1 false && acc 0xF9 9 true 10 false && acc 0xFA 0 false 0 true &&
    acc 0xF3 0 false 0 true && acc 0xF4 0 false 15 false && acc 0xF9 0 false 9 false) = true := by decide
/-- V-A-ACC-6. -/
theorem test_daa : (acc 0xFB 9 false 9 false && acc 0xFB 10 false 0 true && acc 0xFB 15 false 5 true &&
    acc 0xFB 2 true 8 true && acc 0xFB 9 true 15 true && acc 0xFB 12 true 2 true) = true := by decide
/-- V-A-ACC-7. -/
theorem test_kbp : (acc 0xFC 0 true 0 true && acc 0xFC 4 false 4 false && acc 0xFC 5 true 15 true &&
    acc 0xFC 8 false 15 false) = true := by decide
/-- V-A-ACC-7. -/
theorem test_dcl : ends (step (plainA 0x10 [0xFD] fun k => { k with acc := 11 })) (fun t => t.a.cl == 11) = true := by
  decide
/-- V-A-REG. -/
theorem test_ldm_ld : (acc 0xD9 2 true 9 true && ends (step (plainA 0x10 [0xA3] fun k => k.setReg 3 7)) fun t =>
    t.a.acc == 7 && t.a.reg 3 == 7) = true := by decide
theorem test_xch : ends (step (plainA 0x10 [0xBA] fun k => { k.setReg 10 13 with acc := 2 })) (fun t =>
    t.a.acc == 13 && t.a.reg 10 == 2) = true := by decide
theorem test_inc : ends (step (plainA 0x10 [0x65] fun k => { k.setReg 5 15 with cy := true })) (fun t =>
    t.a.reg 5 == 0 && t.a.cy && t.a.acc == 0) = true := by decide
theorem test_nop : ends (step (plainA 0x10 [0x00] id)) (fun t => decide (t =
    { plainA 0x10 [0x00] id with a := { CpuA.reset with pc := 0x11 }, tick := 1 })) = true := by decide

/-- JCN at 0x120: taken or not, under (`ACC`, `CY`, `TEST`). -/
def jcn (c : Byte) (a : Nibble) (cy test : Bool) : Bool :=
  ends (step (plainA 0x120 [0x10 ||| c, 0x30] fun k => { k with acc := a, cy := cy, test := test })) fun t => t.a.pc == 0x130

/-- V-A-JCN, triples t1 to t4. -/
theorem test_jcn : ([jcn 1 0 false true, jcn 1 5 true false, jcn 2 0 true true, jcn 2 5 false false, jcn 4 0 false true,
    jcn 4 5 true true, jcn 8 5 false true, jcn 0 0 true false, jcn 15 5 false true, jcn 15 0 true false, jcn 10 0 true true,
    jcn 12 5 true true] == [false, true, true, false, true, false, true, false, true, false, false, true]) = true := by
  decide
/-- V-A-JCN, page corner. -/
theorem test_jcn_page : ends (step (plainA 0x1FE [0x18, 0x44] id)) (fun t => t.a.pc == 0x244) = true := by decide
/-- V-A-ISZ, rows 0x0FE and 0xFFE. -/
theorem test_isz_taken : ends (step (plainA 0xFE [0x75, 0xAA] fun k => k.setReg 5 14)) (fun t =>
    t.a.pc == 0x1AA && t.a.reg 5 == 15) = true := by decide
theorem test_isz_skip : ends (step (plainA 0xFFE [0x75, 0xAA] fun k => k.setReg 5 15)) (fun t =>
    t.a.pc == 0 && t.a.reg 5 == 0) = true := by decide
/-- V-A-CTL. -/
theorem test_jun : ends (step (plainA 0x10 [0x42, 0x50] id)) (fun t => t.a.pc == 0x250) = true := by decide
theorem test_jin : ends (step (plainA 0x2FF [0x33] fun k => (k.setReg 2 3).setReg 3 12)) (fun t => t.a.pc == 0x33C) = true := by
  decide
theorem test_fin : ends (step { plainA 0x110 [0x30] (fun k => k.setReg 0 8) with
    mem := [(0x110, 0x30), (0x180, 0x5C)] }) (fun t => t.a.reg 0 == 5 && t.a.reg 1 == 12 && t.a.pc == 0x111) = true := by
  decide
/-- R204, R205 examples; V-A-STK (d). -/
theorem test_jms : ends (step (plainA 0x10 [0x51, 0x00] id)) (fun t => t.a.pc == 0x100 && t.a.stk.slots == #v[0x12, 0, 0] &&
    t.a.stk.sp == 1 && t.a.stk.nest == 1) = true := by decide
theorem test_bbl : ends (step (plainA 0x100 [0xC5] fun k => { k with stk := ⟨#v[0x12, 0, 0], 1, 1⟩ })) (fun t =>
    t.a.pc == 0x12 && t.a.acc == 5 && t.a.stk.sp == 0 && t.a.stk.nest == 0) = true := by decide
theorem test_bbl_underflow : ends (step (plainA 0x50 [0xC3] id)) (fun t =>
    t.err == some .stackUnderflow && t.a.pc == 0x51 && t.a.acc == 0) = true := by decide
/-- V-A-PAIR. -/
theorem test_fim : ends (step (plainA 0x10 [0x26, 0xA7] id)) (fun t => t.a.reg 6 == 10 && t.a.reg 7 == 7 && t.a.pc == 0x12) = true := by
  decide
theorem test_src : ends (step (plainA 0x10 [0x23] fun k => (k.setReg 2 4).setReg 3 11)) (fun t => t.a.rc == 0x4B) = true := by
  decide

/-- V-A-RAM on the machine `busA`: the accumulator is 7, the cell 0x10 of device 1 holds 0xF9. -/
def ramA (op : Byte) (c : Bool) : State :=
  let s := busA {} 0x10 op
  { s with a := { s.a with cy := c }, mem := s.mem.write (contentKey 1 0x10) 0xF9 }

theorem test_wrm : ends (step (ramA 0xE0 false)) (fun t => t.mem.read (contentKey 1 0x10) == 0x07 && t.a.acc == 7) = true := by decide
theorem test_rdm : ends (step (ramA 0xE9 true)) (fun t => t.a.acc == 9 && t.a.cy) = true := by decide
theorem test_adm : ends (step (ramA 0xEB true)) (fun t => t.a.acc == 1 && t.a.cy) = true := by decide
theorem test_sbm : ends (step (ramA 0xE8 true)) (fun t => t.a.acc == 14 && !t.a.cy) = true := by decide
theorem test_wr : (ends (step (ramA 0xE4 false)) (fun t => t.stat == [(statusKey 1 0x10 0, 7)]) &&
    ends (step (ramA 0xE5 false)) (fun t => t.stat == [(statusKey 1 0x10 1, 7)]) &&
    ends (step (ramA 0xE6 false)) (fun t => t.stat == [(statusKey 1 0x10 2, 7)]) &&
    ends (step (ramA 0xE7 false)) (fun t => t.stat == [(statusKey 1 0x10 3, 7)])) = true := by decide

/-- Status entries 0 to 3 of cell 0x10 hold 9, 4, 15, 1. -/
def statA (op : Byte) : State :=
  { ramA op true with stat := Memory.load [] (statusKey 1 0x10 0) [9, 4, 15, 1] }

theorem test_rd : (ends (step (statA 0xEC)) (fun t => t.a.acc == 9 && t.a.cy) && ends (step (statA 0xED)) (fun t => t.a.acc == 4) &&
    ends (step (statA 0xEE)) (fun t => t.a.acc == 15) && ends (step (statA 0xEF)) (fun t => t.a.acc == 1)) = true := by decide
/-- Without a matching bank: open bus. -/
theorem test_ram_open_bus : ends (step { ramA 0xE9 true with a := { (ramA 0xE9 true).a with cl := 2 } }) (fun t =>
    t.a.acc == 0 && t.err == none) = true := by decide
/-- Errors of the accesses, and `WRITE_ERR_POLICY = ignore`. -/
theorem test_ram_errors : (ends (step (busA {} 0x50 0xEC)) (fun t => t.err == some .notImplemented && t.a.acc == 7) &&
    ends (step (busA {} 0x50 0xE4)) (fun t => t.err == some .notImplemented) &&
    ends (step (busA { writeErr := .ignore } 0x50 0xE4)) (fun t => t.err == none && t.stat == []) &&
    ends (step (busA {} 0x40 0xE0)) (fun t => t.err == some .readOnly)) = true := by decide
/-- A write into the register window of the mapper (V-MAP-2). -/
theorem test_wrm_window : ends (step (busA {} 0x75 0xE0)) (fun t => t.pageReg 0 1 == 7 && t.pageReg 0 5 == 0) = true := by decide
/-- The port group with the suggested address function: WMP to 0x00 of no bank is port 0x10, unanswered. -/
theorem test_ports_a : (ends (step (busA { portAddr := .suggested } 0x80 0xE2)) (fun t => t.pageReg 0 0 == 7) &&
    ends (step (busA { portAddr := .suggested } 0x80 0xE1)) (fun t => t.err == none && t.pageReg 0 0 == 0) &&
    ends (step (busA { portAddr := .suggested } 0x40 0xEA)) (fun t => t.a.acc == 0)) = true := by decide
theorem test_wmp_address : portAddr .ramPort { busA { portAddr := .suggested } 0x80 0 with
    a := { CpuA.reset with cl := 1, rc := 0x80 } } = 0x16 := by decide
/-- V-ENC-2, R136. -/
theorem test_illegal_a : ([0x01, 0x0F, 0xFE, 0xFF, 0xE3].all fun b => ends (step (plainA 0x40 [b] id)) fun t =>
    t.err == some (.invalidOpcode b) && t.a.pc == 0x41) = true := by decide
theorem test_unnamed_refused : ends (step (busA { admitUnnamed := false } 0 0xD9)) (fun t =>
    t.err == some (.invalidOpcode 0xD9) && t.a.acc == 7) = true := by decide

/-! Variant B, one step (95_test_vectors.md Part 2). -/

/-- V-B-MOV. -/
theorem test_lab : ends (step (plainB 0x10 [0xC1] fun k => k.setReg .B 0x12)) (fun t => t.b.reg .A == 0x12) = true := by decide
theorem test_lhm : ends (step { plainB 0x10 [0xEF] (fun k => (k.setReg .H 0x41).setReg .L 0x20) with
    mem := [(0x10, 0xEF), (0x120, 0x7E)] }) (fun t => t.b.reg .H == 0x7E && t.b.reg .L == 0x20) = true := by decide
theorem test_lma : ends (step (plainB 0x10 [0xF8] fun k => (k.setReg .H 0x20).setReg .A 0x55)) (fun t =>
    t.mem == [(0x10, 0xF8), (0x2000, 0x55)]) = true := by decide
theorem test_lmi : ends (step (plainB 0x10 [0x3E, 0x99] fun k => (k.setReg .H 0x20).setReg .L 0x10)) (fun t =>
    t.mem.read 0x2010 == 0x99 && t.b.pc == 0x12) = true := by decide
theorem test_lhi : ends (step (plainB 0x10 [0x2E, 0x3F] id)) (fun t => t.b.reg .H == 0x3F) = true := by decide
theorem test_lma_read_only : ends (step { plainB 0x10 [0xF8] id with cfg := { MachineConfig.plain .B with
    memList := [⟨.ram, ⟨0, 0x3FFF, .always⟩, .memory true false []⟩] } }) (fun t => t.err == some .readOnly) = true := by decide
theorem test_hlt : ([0x00, 0x01, 0xFF].all fun b => ends (step (plainB 0x100 [b] id)) fun t =>
    t.halted && t.b.pc == 0x101 && t.err == none) = true := by decide
theorem test_illegal_b : ([0x38, 0x39, 0x22, 0x2A, 0x32, 0x3A].all fun b => ends (step (plainB 0x100 [b] id)) fun t =>
    t.err == some (.invalidOpcode b) && t.b.pc == 0x101 && !t.halted) = true := by decide

/-- A byte on B, C, L all equal to `v` with `fC` set: the register after and `Z S P`. -/
def incDec (op : Byte) (r : RegB) (v v' : Byte) (z s p : Bool) : Bool :=
  ends (step (plainB 0x10 [op] fun k => { k.setReg r v with fC := true })) fun t =>
    t.b.reg r == v' && t.b.fC && t.b.fZ == z && t.b.fS == s && t.b.fP == p

/-- V-B-INCDEC. -/
theorem test_incdec : (incDec 0x08 .B 0x0F 0x10 false false false && incDec 0x08 .B 0xFF 0 true false true &&
    incDec 0x30 .L 0x7F 0x80 false true false && incDec 0x11 .C 0x10 0x0F false false true &&
    incDec 0x11 .C 0 0xFF false true true && incDec 0x11 .C 1 0 true false true) = true := by decide

/-- Bytes, before (`A`, operand, `C`), after (`A`, `C Z S P`); the operand is in every register and at `M`. -/
def alu (code : List Byte) (a v : Byte) (c : Bool) (a' : Byte) (cf z s p : Bool) : Bool :=
  ends (step { plainB 0x10 code (fun k =>
      { k with x := #v[a, v, v, v, v, 0x41, 0x20], fC := c }) with mem := (Memory.load [] 0x10 code).write 0x120 v }) fun t =>
    t.b.reg .A == a' && t.b.fC == cf && t.b.fZ == z && t.b.fS == s && t.b.fP == p &&
      t.b.pc == BitVec.ofNat 14 (0x10 + code.length)

/-- V-B-ALU and the examples of R283 to R290. -/
theorem test_alu_add : (alu [0x81] 0x3A 0xC6 false 0 true true false true && alu [0x87] 0x11 0x22 false 0x33 false false false true &&
    alu [0x04, 0x7F] 1 0 false 0x80 false false true false && alu [0x0C, 0x0F] 0x10 0 true 0x20 false false false false &&
    alu [0x89] 0xFF 0xFF true 0xFF true false true true && alu [0x8F] 0 0 true 1 false false false false) = true := by decide
theorem test_alu_subtract : (alu [0x93] 0x20 0x21 false 0xFF true false true true && alu [0x14, 1] 0x80 0 false 0x7F false false false false &&
    alu [0x97] 5 5 false 0 false true false true && alu [0x1C, 1] 0x10 0 true 0x0E false false false false &&
    alu [0x99] 0 0xFF true 0 true true false true && alu [0x9F] 5 5 true 0xFF true false true true) = true := by decide
theorem test_alu_logic : (alu [0x24, 0x3C] 0xF0 0 true 0x30 false false false true && alu [0xA1] 0xF0 0x3C true 0x30 false false false true &&
    alu [0xAA] 0x55 0xFF true 0xAA false false true true && alu [0xAF] 7 7 true 0 false true false true &&
    alu [0x2C, 1] 1 0 true 0 false true false true && alu [0x34, 0x80] 1 0 true 0x81 false false true true &&
    alu [0xB7] 0 0 true 0 false true false true && alu [0xA7] 0x0F 0xF1 true 1 false false false false &&
    alu [0xB1] 1 2 true 3 false false false true) = true := by decide
theorem test_alu_compare : (alu [0x3C, 0x42] 0x41 0 false 0x41 true false true true && alu [0xB8] 0x41 0 true 0x41 false true false true &&
    alu [0xBF] 0x42 0x41 true 0x42 false false false false) = true := by decide
/-- V-B-ROT. -/
theorem test_rotate_b : (alu [0x02] 0x96 0 false 0x2D true false false false && alu [0x0A] 0x96 0 false 0x4B false false false false &&
    alu [0x12] 0x96 0 true 0x2D true false false false && alu [0x1A] 0x96 0 true 0xCB false false false false &&
    alu [0x12] 0x80 0 false 0 true false false false && alu [0x0A] 1 0 false 0x80 true false false false) = true := by decide

/-- Bytes at 0x0010 with every flag equal to `f`: the `pc` after, and the pushed address if any. -/
def ctl (code : List Byte) (f : Bool) (pc : PcB) (pushed : Option PcB) : Bool :=
  ends (step (plainB 0x10 code fun k => { k with fC := f, fZ := f, fS := f, fP := f })) fun t =>
    t.b.pc == pc && (match pushed with
      | some v => t.b.stk.slots[0] == v && t.b.stk.sp == 1 && t.b.stk.nest == 1
      | none => t.b.stk.sp == 0 && t.b.stk.nest == 0)

theorem test_jumps : (ctl [0x44, 0x34, 0x12] false 0x1234 none && ctl [0x48, 0, 2] false 0x200 none && ctl [0x48, 0, 2] true 0x13 none &&
    ctl [0x60, 0x40, 0] true 0x40 none && ctl [0x60, 0x40, 0] false 0x13 none) = true := by decide
theorem test_calls : (ctl [0x46, 0, 3] false 0x300 (some 0x13) && ctl [0x4A, 0, 3] false 0x300 (some 0x13) &&
    ctl [0x4A, 0, 3] true 0x13 none && ctl [0x72, 0, 3] true 0x300 (some 0x13) && ctl [0x72, 0, 3] false 0x13 none &&
    ctl [0x1D] false 0x18 (some 0x11)) = true := by decide

/-- A return at 0x0300 after one call from 0x0100. -/
def ret (op : Byte) (f : Bool) (pc : PcB) : Bool :=
  ends (step (plainB 0x300 [op] fun k => { k with fZ := f, stk := ⟨#v[0x103, 0, 0, 0, 0, 0, 0, 0], 1, 1⟩ })) fun t =>
    t.b.pc == pc && t.err == none

theorem test_returns : (ret 0x07 false 0x103 && ret 0x0B false 0x103 && ret 0x0B true 0x301 && ret 0x2B true 0x103 &&
    ret 0x2B false 0x301) = true := by decide
theorem test_ret_underflow : ends (step (plainB 0x300 [0x07] id)) (fun t => t.err == some .stackUnderflow && t.b.pc == 0x301) = true := by
  decide
theorem test_inp_open : ends (step (busB 0 [0x4F])) (fun t => t.b.reg .A == 0 && t.b.pc == 0x201) = true := by decide
theorem test_out_window : ends (step (busB 0 [0x53])) (fun t => t.pageReg 0 1 == 0x5A && t.b.reg .A == 0x5A) = true := by decide

/-! The Bus and the mapper (20_memory.md). -/

/-- V-MEM-5: the device 0x0100..0x01FF. -/
def window (e : Enabler) : Gate := ⟨0x0100, 0x01FF, e⟩

/-- The error an operation reports. -/
def errorOf {α : Type} (r : Answer α) : Option TypedError :=
  match r with
  | .ok _ => none
  | .error e => some e

theorem test_device_errors : ([errorOf (devRead 0 (window .always) 0x0200 State.reset), errorOf (devRead 0 (window .always) 0x00FF State.reset),
    errorOf (devRead 0 (window .always) 0x0100 State.reset), errorOf (devReadStatus 0 (window .always) false 0x0200 0 State.reset),
    errorOf (devReadStatus 0 (window .always) true 0x0100 4 State.reset), errorOf (devWrite 0 (window .always) true 0x0100 1 State.reset),
    errorOf (devWrite 0 (window .always) true 0x0200 1 State.reset),
    errorOf (devWriteStatus 0 (window .always) true true 0x0100 0 1 State.reset),
    errorOf (devWriteStatus 0 (window .always) true true 0x0100 4 1 State.reset), errorOf (devRead 0 (window .never) 0x0100 State.reset)] ==
    [some .invalidAddress, some .invalidAddress, none, some .notImplemented, some .invalidAddress, some .readOnly, some .invalidAddress,
      some .readOnly, some .invalidAddress, some .invalidAddress]) = true := by decide
/-- V-MEM-6: a device of 4 cells. -/
theorem test_load : (Memory.loadImage [] 0 ⟨0x10, 0x13, .never⟩ [1, 2, 3, 4, 5, 6] == [(0, 1), (1, 2), (2, 3), (3, 4)] &&
    Memory.loadImage [] 0 ⟨0x10, 0x13, .never⟩ [9] == [(0, 9)]) = true := by decide

/-- The mapper of 20_memory.md R106. -/
def wiring : MapperCfg :=
  { sourceBit := 12, slots := [some ⟨0, 12⟩, some ⟨1, 13⟩, some ⟨2, 14⟩, some ⟨3, 15⟩]
    lat := [none, none, none, none, some 0, some 1] }

/-- `Map` with page register `k` holding `pr`: the address and the latches after. -/
def mapped (pr : Byte) (k : Fin 16) (a : Addr) : Addr × List Bool :=
  let r := mapOne 0 wiring a { State.reset with pages := [(Vector.replicate 16 0).set k pr], latch := [false, false] }
  (r.1, r.2.latch)

/-- V-MAP-1. -/
theorem test_map : ([mapped 0x2A 1 0x1234, mapped 0x2A 1 0xA234, mapped 0xFF 1 0x1ABC, mapped 0x15 1 0x1ABC, mapped 0x31 2 0x2000] ==
    [(0xA234, [false, true]), (0x0234, [false, false]), (0xFABC, [true, true]), (0x5ABC, [true, false]), (0x1000, [true, true])]) = true := by
  decide

/-! The host's table words (log 3). -/

theorem test_table_words : decodeTableWord 8 0xF2 = some .aIac ∧ decodeTableWord 16 0xAA75 = some (.aIsz 5 0xAA) ∧
    decodeTableWord 24 0x123444 = some (.bJMP 0x1234) ∧ decodeTableWord 16 0x2A06 = some (.bLrI .A 0x2A) := by decide
theorem test_withFetchWord : (ends (step (State.reset.withFetchWord 8 0xF2)) (fun t => t.a.acc == 1) &&
    ends (step (State.reset.withFetchWord 24 0x123444)) (fun t => t.b.pc == 0x1234)) = true := by decide

/-! Witnesses: for each obligation with hypotheses, a state and operands that meet them, clause by clause. -/

/-- The next state of an outcome that has one, or the state itself. -/
def after (r : Result) (s : State) : State :=
  match r with
  | .next t => t
  | _ => s

/-- An outcome is a next state. -/
def isNext (r : Result) : Bool := ends r fun _ => true

theorem next_of_isNext {r : Result} (s : State) (h : isNext r = true) : r = .next (after r s) := by
  unfold isNext ends at h
  unfold after
  cases r <;> simp_all

/-- Whether a state is ready, as a truth value. -/
def readyB (s : State) : Bool :=
  s.hostQueue.isEmpty && s.cfg.ok && s.err.isNone && !s.cancel && !s.halted

theorem ready_of {s : State} (h : readyB s = true) : Ready s := by
  simpa [readyB, Ready, and_assoc] using h

/-- The plain machines with one instruction, used by the witnesses. -/
def readyA : State := plainA 0xFFF [0xD9] id

/-- The same of variant B. -/
def readyStateB : State := plainB 0x3FFF [0xC1] id

theorem test_witness_DecodeEncodeAgree : (Instr.bOUT 8).WellFormed = true ∧ (Instr.bINr .B).WellFormed = true ∧
    (Instr.aIllegalLow 1).WellFormed = true ∧ (Instr.aJms 0xFFF).WellFormed = true := by decide
theorem test_witness_DecodedInstructionsAreWellFormed : reads .A ([0x5F, 0xFF], .aJms 0xFFF) = true ∧
    reads .B ([0x7C, 0x34, 0xFF], .bJMP 0x3F34) = true := by decide

/-- The byte a fetch answers. -/
def fetchedByte (s : State) : Option Byte :=
  match (fetchByte s).1 with
  | .ok b => some b
  | .error _ => none

theorem test_witness_InvalidOpcodesRaise_a : Ready (plainA 0x40 [0xFF] id) ∧ fetchedByte (plainA 0x40 [0xFF] id) = some 0xFF ∧
    invalidByte (plainA 0x40 [0xFF] id).cfg 0xFF = true ∧ invalidByte (plainA 0x40 [0xFF] id).cfg 0x00 = false :=
  ⟨ready_of (by decide), by decide, by decide, by decide⟩
theorem test_witness_InvalidOpcodesRaise_g : Ready (busA { admitUnnamed := false } 0 0xD0) ∧
    fetchedByte (busA { admitUnnamed := false } 0 0xD0) = some 0xD0 ∧
    invalidByte (busA { admitUnnamed := false } 0 0xD0).cfg 0xD0 = true := ⟨ready_of (by decide), by decide, by decide⟩
theorem test_witness_InvalidOpcodesRaise_b : Ready (plainB 0x40 [0x39] id) ∧ fetchedByte (plainB 0x40 [0x39] id) = some 0x39 ∧
    invalidByte (plainB 0x40 [0x39] id).cfg 0x39 = true := ⟨ready_of (by decide), by decide, by decide⟩

/-- The bytes that `n` fetches answer. -/
def fetchedBytes (s : State) (n : Nat) : Option (List Byte) :=
  match (fetchBytes s n).1 with
  | .ok bs => some bs
  | .error _ => none

/-- JMS at the last address of variant A, its operand at address 0. -/
def wrapA : State := { readyA with mem := [(0, 0x12), (0xFFF, 0x51)] }

theorem test_witness_StepRunsTheDecodedInstruction_a : Ready wrapA ∧ fetchedBytes wrapA 2 = some [0x51, 0x12] ∧
    reads .A ([0x51, 0x12], .aJms 0x112) = true := ⟨ready_of (by decide), by decide, by decide⟩
theorem test_witness_StepRunsTheDecodedInstruction_b : Ready (plainB 0x10 [0x44, 0x34, 0x12] id) ∧
    fetchedBytes (plainB 0x10 [0x44, 0x34, 0x12] id) 3 = some [0x44, 0x34, 0x12] := ⟨ready_of (by decide), by decide⟩
theorem test_witness_StepWithoutMappers : Ready wrapA ∧ wrapA.cfg.mappers = [] ∧ programByte wrapA 0 = some 0x51 ∧
    programByte wrapA 1 = some 0x12 := ⟨ready_of (by decide), by decide, by decide, by decide⟩
theorem test_witness_RunLoopEnds : ({ MachineConfig.plain .A with portList := [⟨⟨1, 0, .always⟩, .foreign⟩] }).ok = false ∧
    (MachineConfig.plain .A).ok = true ∧ (State.reset.raise .readOnly).err = some .readOnly ∧
    ({ State.reset with cancel := true }).err = none ∧ State.reset.halt.halted = true ∧ State.reset.halt.cancel = false := by
  decide
theorem test_witness_HostEventsLand : ({ State.reset with hostQueue := [.setTest true, .setCancel true, .reset, .go] }).hostQueue =
    .setTest true :: [.setCancel true, .reset, .go] := by decide
/-- A configuration with an image longer than its window and an empty image; cells at both ends of the window. -/
theorem test_witness_ResetState : ends (.next (State.resetWith { MachineConfig.plain .A with
    memList := [⟨.ram, ⟨5, 6, .always⟩, .memory false true [7, 8, 9]⟩, ⟨.rom, ⟨0, 0, .never⟩, .memory true false []⟩] })) (fun t =>
    t.mem.read (contentKey 0 0) == 7 && t.mem.read (contentKey 0 1) == 8 && t.mem.read (contentKey 0 2) == 0 &&
      t.mem.read (contentKey 1 0) == 0) = true := by decide

/-- The step of the store LMA on the machine `busB`: canonical before and after, into a page register, into a cell. -/
theorem test_witness_MemoryStaysCanonical : (busB 0x10 [0xF8]).mem.wf = true ∧ (busB 0x10 [0xF8]).stat.wf = true ∧
    isNext (step (busB 0x10 [0xF8])) = true ∧ (after (step (busB 0x10 [0xF8])) State.reset).mem.read (contentKey 1 0x10) = 0x5A := by
  decide
theorem test_witness_UpperPageRegistersStayZero : ((busB 0x77 [0xF8]).pages.all fun pr =>
    (List.finRange 16).all fun k => k.val < 4 || pr[k] == 0) = true ∧ isNext (step (busB 0x77 [0xF8])) = true ∧
    (after (step (busB 0x77 [0xF8])) State.reset).pageReg 0 3 = 0x5A := by decide
theorem test_witness_ConfigurationAndIdleEngineStay : isNext (step wrapA) = true ∧ wrapA.hostQueue = [] ∧ wrapA.cfg.variant = .A ∧
    isNext (step readyStateB) = true ∧ readyStateB.hostQueue = [] ∧ readyStateB.cfg.variant = .B ∧
    wrapA.pages.length = wrapA.cfg.mappers.length ∧ wrapA.latch.length = wrapA.cfg.nLatches := by decide
theorem test_witness_ReadOnlyDevicesKeepTheirContents : (busB 0x40 [0xF8]).mem.wf = true ∧
    (busB 0x40 [0xF8]).hostQueue.head? ≠ some .reset ∧ isNext (step (busB 0x40 [0xF8])) = true ∧
    readOnlyCell (busB 0x40 [0xF8]).cfg (contentKey 2 0) = true ∧ readOnlyCell (busB 0x40 [0xF8]).cfg (contentKey 2 65535) = true := by
  decide
theorem test_witness_VariantACannotWriteRom : (ramA 0xE0 false).cfg.variant = .A ∧ (ramA 0xE0 false).mem.wf = true ∧
    (ramA 0xE0 false).hostQueue.head? ≠ some .reset ∧ isNext (step (ramA 0xE0 false)) = true ∧
    romCell (ramA 0xE0 false).cfg (contentKey 0 0x10) = true := by decide
/-- Whether the next step of a ready machine raises this error. -/
def raisesOn (s : State) (e : TypedError) : Bool := readyB s && ends (step s) fun t => t.err == some e

theorem test_witness_ErrorsArePrecise : (raisesOn (plainB 0x300 [0x07] id) .stackUnderflow && raisesOn (plainA 0x40 [0xFF] id) (.invalidOpcode 0xFF) &&
    raisesOn (busA {} 0x40 0xE0) .readOnly && raisesOn (busA {} 0x50 0xEC) .notImplemented && raisesOn (busB 0x70 [0xC7]) .notImplemented &&
    raisesOn { busB 0 [] with b := { (busB 0 []).b with pc := 0x70 } } .notImplemented) = true := by decide
theorem test_witness_frames : isNext (exec .bHltLow State.reset) = true ∧ isNext (exec .aDcl State.reset) = true ∧
    Instr.writesCy (.aInc 0) = false ∧ Instr.writesAcc .aWrm = false ∧ Instr.writesRegA .aClb = false ∧ Instr.writesPcA .aDaa = false ∧
    Instr.isAluB (.bINr .B) = false ∧ Instr.isRotateB (.bINr .B) = false ∧ Instr.isIncDecB .bRLC = false ∧
    Instr.usesStackB (.bJMP 0) = false ∧ Instr.isJumpB (.bINP 0) = false ∧ Instr.writesContents .aWr0 = false ∧
    Instr.writesStatus .aWrm = false ∧ Instr.writesPort (.bINP 0) = false ∧ Instr.accessesMemory (.bOUT 8) = false := by decide

/-- A mapper in which two slots share a destination and two latch slots a latch. -/
def sharedMapper : MapperCfg :=
  { sourceBit := 15, slots := [some ⟨0, 12⟩, none, some ⟨7, 12⟩], lat := [some 0, none, some 0, none, none, none, none, some 1] }

theorem test_witness_MapRewritesAndDrives : 12 ≤ sharedMapper.sourceBit ∧ (busA {} 0 0).latch.length = 2 ∧
    sharedMapper.slots[2]? = some (some ⟨7, 12⟩) ∧ sharedMapper.slots[3]? = none ∧ some 1 ∈ sharedMapper.lat ∧ some 2 ∉ sharedMapper.lat ∧
    sharedMapper.lat[2]? = some (some 0) ∧ sharedMapper.lat[7]? = some (some 1) ∧ (busA {} 0 0).cfg.mappers.length = 1 := by decide
/-- 93_implementation_defined.md U7: two slots with one destination bit are refused, and so are a fifth slot and a page index
above 15. -/
theorem test_mapper_refused : ([sharedMapper, { wiring with slots := none :: wiring.slots }, { wiring with sourceBit := 11 }, wiring].map fun m =>
    MapperCfg.ok 2 m) = [false, false, false, true] := by decide
/-- Two mappers in a chain: the second sees bit 12 as the first set it. -/
theorem test_chain : (let s : State := { State.reset with
      cfg := { State.reset.cfg with mappers := [{ wiring with lat := [] }, { wiring with slots := [some ⟨0, 0⟩] }] }
      pages := [(Vector.replicate 16 0).set 1 0x02, (Vector.replicate 16 0).set 2 0x31], latch := [false, false] }
    let r := mapChain 0x1234 s
    (r.1, r.2.latch) == (0x2235, [true, true])) = true := by decide
theorem test_witness_MapIsDeterministic : (busA {} 0 0).pages = (busA {} 1 1).pages ∧
    (busA {} 0 0).latch.length = (busA {} 1 1).latch.length ∧ some 0 ∈ sharedMapper.lat := by decide

/-- The number of the entry that answers. -/
def answerer (s : State) (a : Addr) (f : Option DevKind) : Option Nat := (answering s a f).map (·.1)

/-- Every entry of `busConfig` answers at both ends of its window, and no entry outside; so the clauses of the
statements about stores and loads each have a state. -/
theorem test_witness_answering : ([0x00, 0x3F, 0x40, 0x4F, 0x50, 0x5F, 0x60, 0x6F, 0x70, 0x77, 0x78, 0x1FF, 0x200, 0x2FF].map fun a =>
    answerer (busB 0 []) a none) = [some 1, some 1, some 2, some 2, some 3, some 3, some 4, some 4, some 5, some 5, none, none, some 0,
    some 0] ∧ ((busB 0 []).cfg.memList.map fun e => e.body) = [.memory true false [], .memory false true [], .memory true true [],
    .memory false false [], .foreign, .mapperWindow 0] := by decide
theorem test_witness_filter : answerer (busA {} 0 0) 0x200 (some .ram) = none ∧ answerer (busA {} 0 0) 0x10 (some .rom) = none := by decide
theorem test_witness_OpenBus : answering (busB 0 []) 0x78 none = none ∧ scanPort 4 (busB 0 []) = none ∧
    answering { busB 0 [] with b := { (busB 0 []).b with pc := 0x300 } } 0x300 none = none := by decide
theorem test_witness_MemoryDeviceOperations : hasAddress (window .always) 0x0100 State.reset = true ∧
    hasAddress (window .always) 0x01FF State.reset = true ∧ hasAddress (window .always) 0x00FF State.reset = false ∧
    hasAddress (window .always) 0x0200 State.reset = false ∧ State.reset.mem.wf = true ∧ State.reset.stat.wf = true := by decide
theorem test_witness_StoreThenLoad : (busB 0 []).mem.wf = true ∧ (busB 0 []).stat.wf = true ∧
    answering (busB 0 []) 0x3F none = some (1, ⟨.ram, ⟨0x00, 0x3F, .regEqCL 0⟩, .memory false true []⟩) := by decide
theorem test_witness_StoreThenLoad_enablers : ∀ d ∈ (busB 0 []).cfg.memList, ∀ r w, d.gate.enabler ≠ .regEqForeign r w := by
  intro d hd r w h
  have : (busB 0 []).cfg.memList.all (fun d => match d.gate.enabler with | .regEqForeign _ _ => false | _ => true) = true := by decide
  have hd' := List.all_eq_true.mp this d hd
  rw [h] at hd'
  cases hd'
theorem test_witness_MapperRegisterWrite : 0 < (busB 0 []).pages.length ∧ (0x70 : Addr).toNat ≤ (0x77 : Addr).toNat := by decide
theorem test_witness_HostRegisterAccess : State.reset.cfg.variant = .A ∧ readyStateB.cfg.variant = .B ∧
    [errorOf (hostReadReg State.reset 15).1, errorOf (hostReadPair State.reset 7), errorOf (hostReadFlag State.reset 1),
      errorOf (hostReadReg readyStateB 6).1, errorOf (hostReadFlag readyStateB 3)] = [none, none, none, none, none] ∧
    [errorOf (hostReadReg State.reset 16).1, errorOf (hostReadPair State.reset 8), errorOf (hostReadFlag State.reset 2),
      errorOf (hostReadReg readyStateB 8).1, errorOf (hostReadFlag readyStateB 4), errorOf (hostReadPair readyStateB 0),
      errorOf (hostWritePair readyStateB 0 1)] = List.replicate 7 (some .invalidRegisterIndex) := by decide
/-- Register 7 of variant B is `M` (10_state.md R41): the byte lands in the RAM at `hl = 0x10`, a read answers it, and a
read-only device refuses to the host, with `err` as before. -/
theorem test_host_M : (hostWriteReg (busB 0x10 []) 7 0xA5).2.mem.read (contentKey 1 0x10) = 0xA5 ∧
    (hostReadReg (hostWriteReg (busB 0x10 []) 7 0xA5).2 7).1 = .ok 0xA5 ∧
    errorOf (hostWriteReg (busB 0x40 []) 7 0xA5).1 = some .readOnly ∧
    (hostWriteReg (busB 0x40 []) 7 0xA5).2.err = none := by decide
theorem test_witness_StackIsLastInFirstOut : (CpuA.reset.stk.pushAll [1, 2, 3]).popMany 3 = [3, 2, 1] := by decide
theorem test_witness_StackOverflow : CpuA.reset.stk.sp.val = 0 ∧ CpuB.reset.stk.sp.val = 0 ∧
    (CpuA.reset.stk.pushAll [1, 2, 3, 4]).popMany 4 = [4, 3, 2, 4] := by decide

/-- A state of variant A with this accumulator and carry, and one that does not admit the G rows. -/
def accState (a : Nibble) (c : Bool) : State := { State.reset with a := { CpuA.reset with acc := a, cy := c } }

theorem test_witness_unnamed : State.reset.cfg.params.admitUnnamed = true ∧
    (busA { admitUnnamed := false } 0 0).cfg.params.admitUnnamed = false := by decide
theorem test_witness_ADecimalKeyboardDcl : (accState 9 false).a.acc.toNat ≤ 9 ∧ (accState 9 false).a.cy = false ∧
    9 < (accState 10 false).a.acc.toNat ∧ (accState 9 true).a.cy = true ∧ isNext (exec .aDcl (accState 9 true)) = true := by decide
theorem test_witness_AConditionalJump : ((4 : Nibble)[2] = true ∧ (accState 0 false).a.acc = 0) ∧ (8 : Nibble)[3] = true ∧
    (2 : Nibble)[1] = true ∧ (accState 0 true).a.cy = true ∧ (1 : Nibble)[0] = true ∧ (accState 0 true).a.test = false := by decide
theorem test_witness_returns : State.reset.a.stk.sp.val = 0 ∧ State.reset.a.stk.nest.val = 0 ∧
    (CpuA.reset.stk.push 5).sp.val ≠ 0 ∧ (CpuA.reset.stk.pushAll [1, 2, 3]).nest.val ≠ 0 ∧
    State.reset.b.stk.sp.val = 0 ∧ State.reset.b.stk.nest.val = 0 ∧ (CpuB.reset.stk.push 5).sp.val ≠ 0 := by decide
theorem test_witness_AIszAndJin : (plainA 0 [] fun k => k.setReg 5 15).a.x[(5 : RegA)].toNat = 15 ∧
    (plainA 0 [] fun k => k.setReg 5 14).a.x[(5 : RegA)].toNat ≠ 15 := by decide
/-- Reads: a cell, open bus, a declining entry; memory, status without an array, ports. -/
theorem test_witness_loads : readAnswer (ramA 0 false) 0x10 (some .ram) = some 0xF9 ∧ readAnswer (ramA 0 false) 0x78 (some .ram) = some 0 ∧
    readAnswer (ramA 0 false) 0x70 (some .ram) = none ∧ readAnswer (ramA 0xAB false) 0x200 (some .rom) = some 0xAB ∧
    statusAnswer (statA 0) 0x10 3 (some .ram) = some 1 ∧ statusAnswer (statA 0) 0x50 0 (some .ram) = none ∧
    statusAnswer (statA 0) 0x70 0 (some .ram) = none ∧ portAnswer (busB 0 []) 7 = some 0 ∧ portAnswer (busB 0 []) 8 = none ∧
    readAnswer (busB 0 []) 0x70 none = none ∧ readAnswer (busB 0 [0xC7]) 0x200 none = some 0xC7 := by decide
/-- Stores of variant A: the entry of each clause answers the address that `RC` names; ports of each clause. -/
theorem test_witness_stores : ([0x10, 0x40, 0x50, 0x60, 0x70, 0x78].map fun rc => answerer (busA {} rc 0) (rc.setWidth 16) (some .ram)) =
    [some 1, some 2, some 3, some 4, some 5, none] ∧ (ramA 0 false).mem.wf = true ∧ (ramA 0 false).stat.wf = true ∧
    ((scanPort 3 (busB 0 [])).map fun e => e.body) = some .foreign ∧ ((scanPort 11 (busB 0 [])).map fun e => e.body) = some (.mapperWindow 0) ∧
    scanPort 31 (busB 0 []) = none := by decide
/-- A store of variant A that `busA` with the suggested ports sends to a foreign port and to the window. -/
theorem test_witness_APorts : (busA { portAddr := .suggested } 0x30 0).cfg.params.portAddr = .suggested ∧
    portAddr .romPort (busA { portAddr := .suggested } 0x30 0) = 3 ∧ portAddr .romPort (busA { portAddr := .suggested } 0x80 0) = 8 := by
  decide
/-- A machine whose `A_PORT_ADDR` is a table, with the address 9 at `CL = 0`, `RC = 2` of the ROM ports. -/
theorem test_port_table : (let p : Params := { portAddr := .table ((Vector.replicate 4096 0).set 2 9) (Vector.replicate 4096 4) }
    portAddr .romPort (busA p 2 0) == 9 && portAddr .romPort (busA p 3 0) == 0 && portAddr .ramPort (busA p 2 0) == 4) = true := by
  decide
/-- Stores of variant B: the entry of each clause answers the address of `M`. -/
theorem test_witness_BStores : ([0x10, 0x40, 0x60, 0x70, 0x78].map fun l => answerer (busB l []) (memAddrB (busB l [])) none) =
    [some 1, some 2, some 4, some 5, none] := by decide
theorem test_witness_BHalt : Ready readyStateB ∧ isNext (exec .bRLC readyStateB.halt) = true ∧ readyStateB.halt.halted = true :=
  ⟨ready_of (by decide), by decide, by decide⟩
theorem test_witness_BIncrementDecrement : RegB.B ≠ RegB.A ∧ RegB.L ≠ RegB.A := by decide
theorem test_witness_conditions : CpuB.reset.flag .carry = false ∧ ({ CpuB.reset with fP := true }).flag .parity = true ∧
    ({ CpuB.reset with fZ := true }).flag .zero = true ∧ ({ CpuB.reset with fS := true }).flag .sign = true := by decide
theorem test_witness_BInputOutput : 8 ≤ (8 : BitVec 5).toNat ∧ 8 ≤ (31 : BitVec 5).toNat := by decide
theorem test_witness_InvariantsHoldAtReset : State.reset.mem.wf = true ∧ State.reset.pages = [] ∧ State.reset.latch = [] := by decide

end Sys2Proof.Tests
end

section
/-! PROOF. The configuration, the shape of the mapper and latch state, and the idle engine under a step
(00_scope.md R3, R12): one frame relation, kept by the shared operations, the fetch, every instruction, the turn of the
run loop and the host's events in turn. -/

namespace Sys2Proof

/-- What a row's handler answers, if anything, is an instruction of variant `v`. -/
def AnswersVariant (v : Variant) (o : Option Instr) : Prop := ∀ i, o = some i → i.variant = v

namespace AnswersVariant

variable {α : Type} {v : Variant}

theorem some_iff {i : Instr} : AnswersVariant v (some i) ↔ i.variant = v := by
  simp [AnswersVariant]

theorem map_iff {o : Option α} {f : α → Instr} :
    AnswersVariant v (o.map f) ↔ ∀ x, o = some x → (f x).variant = v := by
  cases o <;> simp [AnswersVariant]

theorem bind_iff {o : Option α} {f : α → Option Instr} :
    AnswersVariant v (o.bind f) ↔ ∀ x, o = some x → AnswersVariant v (f x) := by
  cases o <;> simp [AnswersVariant]

theorem guard_iff {c : Prop} [Decidable c] {i : Instr} :
    AnswersVariant v (if c then none else some i) ↔ ¬c → i.variant = v := by
  simp [AnswersVariant]

end AnswersVariant

/-- A handler of a variant's decode ROM answers an instruction of that variant: a fixed one, one with register fields,
or one with an extra condition on its fields (30_encoding.md R134, R135, R143, R144). -/
theorem DecodeRow.build_variant {v : Variant} {r : DecodeRow} (h : r ∈ decodeRom v) (b x y : Byte) :
    AnswersVariant v (r.build b x y) := by
  revert r
  cases v <;> simp only [decodeRom, romA, romB, romA1, romA2, romA3, romA4, romB1, romB2, romB3, romB4,
    List.cons_append, List.nil_append, List.forall_mem_cons]
  · simp [AnswersVariant.some_iff, AnswersVariant.guard_iff, Instr.variant]
  · simp [AnswersVariant.some_iff, AnswersVariant.guard_iff, AnswersVariant.map_iff, AnswersVariant.bind_iff,
      Instr.variant]

/-- The decoder of a variant answers instructions of that variant (30_encoding.md R134, R143). -/
theorem decode_variant {v : Variant} {bs rest : List Byte} {i : Instr} (h : decode v bs = .ok (i, rest)) :
    i.variant = v := by
  cases bs with
  | nil => cases h
  | cons b ops =>
    simp only [decode] at h
    split at h
    · cases h
    · rename_i r hr
      split_ifs at h
      split at h
      · cases h
      · rename_i j hj
        obtain ⟨rfl, -⟩ := Prod.mk.inj (Except.ok.inj h)
        exact DecodeRow.build_variant (List.mem_of_find?_eq_some hr) b _ _ j hj

end Sys2Proof

namespace Sys2Proof.Machine

/-- `t` keeps of `s` what a CPU step of variant `v` never touches: the configuration, the numbers of page-register
files and of latches, and the engine of the other variant. -/
structure Keeps (v : Variant) (s t : State) : Prop where
  cfg : t.cfg = s.cfg
  pages : t.pages.length = s.pages.length
  latch : t.latch.length = s.latch.length
  idleB : v = .A → t.b = s.b
  idleA : v = .B → t.a = s.a

namespace Keeps

variable {v : Variant} {s t u : State}

theorem refl (v : Variant) (s : State) : Keeps v s s := ⟨rfl, rfl, rfl, fun _ => rfl, fun _ => rfl⟩

theorem trans (h : Keeps v s t) (g : Keeps v t u) : Keeps v s u where
  cfg := g.cfg.trans h.cfg
  pages := g.pages.trans h.pages
  latch := g.latch.trans h.latch
  idleB hv := (g.idleB hv).trans (h.idleB hv)
  idleA hv := (g.idleA hv).trans (h.idleA hv)

theorem shapeOk (h : Keeps v s t) (hs : ShapeOk s) : ShapeOk t := by
  unfold ShapeOk at *
  rw [h.cfg, h.pages, h.latch]
  exact hs

theorem raise (h : Keeps v s t) (e : TypedError) : Keeps v s (t.raise e) :=
  ⟨h.cfg, h.pages, h.latch, h.idleB, h.idleA⟩

theorem halt (v : Variant) (s : State) : Keeps v s s.halt := ⟨rfl, rfl, rfl, fun _ => rfl, fun _ => rfl⟩

/-- An update of the engine of variant A is one of its own engine. -/
theorem setA (s : State) (c : CpuA) : Keeps .A s (s.setA c) := ⟨rfl, rfl, rfl, fun _ => rfl, nofun⟩

/-- An update of the engine of variant B is one of its own engine. -/
theorem setB (s : State) (c : CpuB) : Keeps .B s (s.setB c) := ⟨rfl, rfl, rfl, nofun, fun _ => rfl⟩

theorem ite {c : Prop} [Decidable c] (ht : Keeps v s t) (hu : Keeps v s u) : Keeps v s (if c then t else u) := by
  split
  · exact ht
  · exact hu

theorem returnA (s : State) (d : Nibble) : Keeps .A s (s.returnA d) := by
  rcases s.returnA_cases d with ⟨-, h⟩ | ⟨p, k, -, h⟩ <;> rw [h]
  · exact (refl _ s).raise _
  · exact setA s _

theorem returnB (s : State) : Keeps .B s s.returnB := by
  rcases s.returnB_cases with ⟨-, h⟩ | ⟨p, k, -, h⟩ <;> rw [h]
  · exact (refl _ s).raise _
  · exact setB s _

theorem advancePc (s : State) : Keeps s.cfg.variant s (advancePc s) := by
  rw [advancePc_eq]
  cases s.cfg.variant
  · exact setA s _
  · exact setB s _

/-! Every Bus access moves latch values, cells and page registers, and makes or removes none of them. -/

theorem busReadMem (v : Variant) (a : Addr) (f : Option DevKind) (s : State) : Keeps v s (busReadMem a f s).2 := by
  rw [busReadMem_state]
  exact ⟨rfl, rfl, mapChain_latch_length a s, fun _ => rfl, fun _ => rfl⟩

theorem busReadStatus (v : Variant) (a : Addr) (i : Nat) (f : Option DevKind) (s : State) :
    Keeps v s (busReadStatus a i f s).2 := by
  rw [busReadStatus_state]
  exact ⟨rfl, rfl, mapChain_latch_length a s, fun _ => rfl, fun _ => rfl⟩

theorem busReadPort (v : Variant) (p : Addr) (s : State) : Keeps v s (busReadPort p s).2 := by
  rw [busReadPort_state]
  exact ⟨rfl, rfl, rfl, fun _ => rfl, fun _ => rfl⟩

theorem busWriteMem (v : Variant) (a : Addr) (x : Byte) (f : Option DevKind) (s : State) :
    Keeps v s (busWriteMem a x f s).2 := by
  have hl := mapChain_latch_length a s
  rcases busWriteMem_state a x f s with h | ⟨_, _, _, _, -, -, -, h⟩ | ⟨_, _, m, -, -, -, h⟩ <;> rw [h]
  · exact ⟨rfl, rfl, hl, fun _ => rfl, fun _ => rfl⟩
  · exact ⟨rfl, rfl, hl, fun _ => rfl, fun _ => rfl⟩
  · exact ⟨rfl, List.length_modify .., hl, fun _ => rfl, fun _ => rfl⟩

theorem busWriteStatus (v : Variant) (a : Addr) (i : Nat) (x : Byte) (f : Option DevKind) (s : State) :
    Keeps v s (busWriteStatus a i x f s).2 := by
  have hl := mapChain_latch_length a s
  rcases busWriteStatus_state a i x f s with h | ⟨_, _, _, -, -, -, h⟩ <;> rw [h]
  · exact ⟨rfl, rfl, hl, fun _ => rfl, fun _ => rfl⟩
  · exact ⟨rfl, rfl, hl, fun _ => rfl, fun _ => rfl⟩

theorem busWritePort (v : Variant) (p : Addr) (x : Byte) (s : State) : Keeps v s (busWritePort p x s).2 := by
  rcases busWritePort_state p x s with h | ⟨_, m, -, -, -, h⟩ <;> rw [h]
  · exact ⟨rfl, rfl, rfl, fun _ => rfl, fun _ => rfl⟩
  · exact ⟨rfl, List.length_modify .., rfl, fun _ => rfl, fun _ => rfl⟩

/-! The fetch belongs to the running variant. -/

theorem fetchByte (s : State) : Keeps s.cfg.variant s (fetchByte s).2 := by
  have h := busReadMem s.cfg.variant (fetchAddr s) (fetchFilter s.cfg.variant) s
  unfold Machine.fetchByte
  generalize Machine.busReadMem (fetchAddr s) (fetchFilter s.cfg.variant) s = r at h ⊢
  obtain ⟨⟨e⟩ | ⟨b⟩, t⟩ := r
  · exact h
  · have g := advancePc t
    rw [h.cfg] at g
    exact h.trans g

theorem fetchBytes (s : State) (n : Nat) : Keeps s.cfg.variant s (fetchBytes s n).2 := by
  induction n generalizing s with
  | zero => exact refl _ s
  | succ n ih =>
    have h := fetchByte s
    unfold Machine.fetchBytes
    generalize Machine.fetchByte s = r at h ⊢
    obtain ⟨⟨e⟩ | ⟨b⟩, t⟩ := r
    · exact h
    · have g := ih t
      rw [h.cfg] at g
      simp only
      generalize Machine.fetchBytes t n = q at g ⊢
      obtain ⟨⟨e⟩ | ⟨bs⟩, u⟩ := q <;> exact h.trans g

end Keeps

/-- The fetch of an instruction keeps what the running variant never touches, and the instruction that it answers is one
of the running variant. -/
theorem fetchInstr_keeps (s : State) :
    Keeps s.cfg.variant s (fetchInstr s).2 ∧ ∀ i, (fetchInstr s).1 = .ok i → i.variant = s.cfg.variant := by
  rcases fetchInstr_cases s with ⟨bs, i, t, hbs, hdec, -, -, h⟩ | ⟨k, e, t, -, -, -, hk, -, h, -⟩ <;> rw [h]
  · have hkeep := Keeps.fetchBytes s bs.length
    rw [hbs] at hkeep
    refine ⟨hkeep, fun j hj => ?_⟩
    cases hj
    exact decode_variant hdec
  · have hkeep := Keeps.fetchBytes s (k + 1)
    rw [hk] at hkeep
    exact ⟨hkeep, nofun⟩

/-- Wherever the result is a next state, it keeps what variant `v` never touches. -/
def ResultKeeps (v : Variant) (s : State) (r : Result) : Prop := ∀ t, r = .next t → Keeps v s t

namespace ResultKeeps

variable {v : Variant} {s t : State} {r q : Result}

theorem next (h : Keeps v s t) : ResultKeeps v s (.next t) := by
  rintro _ ⟨⟩
  exact h

theorem ite {c : Prop} [Decidable c] (hr : ResultKeeps v s r) (hq : ResultKeeps v s q) :
    ResultKeeps v s (if c then r else q) := by
  split
  · exact hr
  · exact hq

theorem raise (v : Variant) (s : State) (e : TypedError) : ResultKeeps v s (.next (s.raise e)) :=
  next ((Keeps.refl v s).raise e)

theorem setA (s : State) (c : CpuA) : ResultKeeps .A s (.next (s.setA c)) := next (Keeps.setA s c)

theorem setB (s : State) (c : CpuB) : ResultKeeps .B s (.next (s.setB c)) := next (Keeps.setB s c)

theorem admitted {i : Instr} (h : ResultKeeps v s r) : ResultKeeps v s (admitted i s r) := by
  rcases admitted_cases i s r with ⟨-, g⟩ | ⟨-, g⟩ <;> rw [g]
  · exact h
  · exact raise v s _

theorem onRead {a : Answer Byte × State} {k : Byte → State → State} (ha : Keeps v s a.2)
    (hk : ∀ x u, Keeps v u (k x u)) : ResultKeeps v s (onRead a k) := by
  rcases onRead_next a k with ⟨x, -, g⟩ | ⟨e, -, g⟩ <;> rw [g]
  · exact next (ha.trans (hk x a.2))
  · exact next (ha.raise e)

theorem onWrite {a : Answer Unit × State} (ha : Keeps v s a.2) : ResultKeeps v s (onWrite a) := by
  rcases onWrite_next a with g | ⟨e, -, -, g⟩ <;> rw [g]
  · exact next ha
  · exact next (ha.raise e)

end ResultKeeps

/-- An instruction keeps the configuration, the shape and the engine of the other variant: it updates its own engine,
raises, halts, or ends with one Bus access. -/
theorem exec_keeps (i : Instr) (s : State) : ResultKeeps i.variant s (exec i s) := by
  cases i with
  | aNop => exact .admitted (.next (.refl _ s))
  | aJcn c a8 => exact .ite (.setA s _) (.next (.refl _ s))
  | aIsz r a8 => exact .ite (.next ((Keeps.setA s _).trans (.setA _ _))) (.setA s _)
  | aDaa => exact .ite (.setA s _) (.next (.refl _ s))
  | aBbl d => exact .next (.returnA s d)
  | aLdm | aLd | aXch | aInc | aClb | aClc | aCmc | aTcc | aTcs | aStc | aJin => exact .admitted (.setA s _)
  | aAdd | aSub | aIac | aCma | aRal | aRar | aDac | aKbp | aDcl | aFim | aSrc | aJun | aJms => exact .setA s _
  | aFin p => exact .admitted (.onRead (.busReadMem _ _ _ _) fun _ _ => .setA _ _)
  | aRdr => exact .admitted (.onRead (.busReadPort _ _ _) fun _ _ => .setA _ _)
  | aRdm | aAdm | aSbm => exact .onRead (.busReadMem _ _ _ _) fun _ _ => .setA _ _
  | aRd0 | aRd1 | aRd2 | aRd3 => exact .onRead (.busReadStatus _ _ _ _ _) fun _ _ => .setA _ _
  | aWrm => exact .onWrite (.busWriteMem _ _ _ _ _)
  | aWr0 | aWr1 | aWr2 | aWr3 => exact .onWrite (.busWriteStatus _ _ _ _ _ _)
  | aWmp | aWrr => exact .admitted (.onWrite (.busWritePort _ _ _ _))
  | aWpm | aIllegalLow | aIllegalHigh | bIllegalIncDec | bIllegalRotate => exact .raise _ s _
  | bHltLow | bHltHigh => exact .next (.halt _ s)
  | bLr1r2 | bLrI | bINr | bDCr | bADr | bACr | bSUr | bSBr | bNDr | bXRr | bORr | bCPr | bADI | bACI | bSUI | bSBI
  | bNDI | bXRI | bORI | bCPI | bRLC | bRRC | bRAL | bRAR | bJMP | bCAL | bRST => exact .setB s _
  | bLrM | bADM | bACM | bSUM | bSBM | bNDM | bXRM | bORM | bCPM =>
    exact .onRead (.busReadMem _ _ _ _) fun _ _ => .setB _ _
  | bLMr | bLMI => exact .onWrite (.busWriteMem _ _ _ _ _)
  | bJFc | bCFc => exact .next (.ite (.refl _ s) (.setB s _))
  | bJTc | bCTc => exact .next (.ite (.setB s _) (.refl _ s))
  | bRET => exact .next (.returnB s)
  | bRFc => exact .next (.ite (.refl _ s) (.returnB s))
  | bRTc => exact .next (.ite (.returnB s) (.refl _ s))
  | bINP => exact .onRead (.busReadPort _ _ _) fun _ _ => .setB _ _
  | bOUT => exact .onWrite (.busWritePort _ _ _ _)

/-- A turn of the run loop keeps what the running variant never touches. -/
theorem runTurn_keeps (s : State) : ResultKeeps s.cfg.variant s (runTurn s) := by
  intro t ht
  obtain ⟨hfetch, hvariant⟩ := fetchInstr_keeps s
  rcases runTurn_cases s with ⟨-, h⟩ | ⟨f, -, h⟩ | ⟨e, u, hu, h⟩ | ⟨i, u, hu, h⟩ <;> rw [h] at ht
  · cases ht
  · cases ht
  · rw [hu] at hfetch
    cases ht
    exact hfetch.raise e
  · rw [hu] at hfetch hvariant
    have hexec := exec_keeps i u t ht
    rw [hvariant i rfl] at hexec
    exact hfetch.trans hexec

/-- No host event, not even a reset, changes the configuration. -/
theorem HostEvent.land_cfg (s : State) (e : HostEvent) : (e.land s).cfg = s.cfg := by
  cases e <;> rfl

/-- A host event keeps the shape; a reset makes it anew. -/
theorem HostEvent.land_shapeOk {s : State} (hs : ShapeOk s) (e : HostEvent) : ShapeOk (e.land s) := by
  cases e with
  | go | setTest | setCancel => exact hs
  | reset => simp [ShapeOk, land, State.hostReset, State.resetWith]

/-- Settles O13: a step is a turn of the run loop or a host event, and each keeps what it has to. -/
theorem configurationAndIdleEngineStay : Obligations.ConfigurationAndIdleEngineStay := by
  intro s t h
  unfold step at h
  split at h
  next hq =>
    have hk := runTurn_keeps s t h
    exact ⟨hk.cfg, hk.shapeOk, fun _ => hk.idleB, fun _ => hk.idleA⟩
  next q hq =>
    have hk := runTurn_keeps _ t h
    exact ⟨hk.cfg, hk.shapeOk, by simp [hq], by simp [hq]⟩
  next e q _ hq =>
    cases h
    have hshape : ShapeOk s → ShapeOk { s with hostQueue := q } := id
    exact ⟨HostEvent.land_cfg _ e, fun hs => HostEvent.land_shapeOk (hshape hs) e, by simp [hq], by simp [hq]⟩

end Sys2Proof.Machine
end

section
/-! PROOF. The port instructions of variant A and the argument `A_PORT_ADDR` (00_scope.md R10,
42_a_pair_and_ram.md R245 to R248). -/

namespace Sys2Proof.Machine

/-! What `portAddr` answers, one equation for each way to give the argument. -/

theorem portAddr_suggested {s : State} (h : s.cfg.params.portAddr = .suggested) (k : PortKind) :
    portAddr k s = suggestedPort k s.a.cl s.a.rc := by
  simp only [portAddr, h]

theorem portAddr_table {s : State} {rom ram : Vector Addr 4096} (h : s.cfg.params.portAddr = .table rom ram)
    (k : PortKind) :
    portAddr k s = (match k with | .romPort => rom | .ramPort => ram)[portTableIndex s.a.cl s.a.rc] := by
  simp only [portAddr, h]
  cases k <;> rfl

/-- The table of a port-address function of `CL` and `RC`: entry `CL * 256 + RC` is its value there. -/
def portTable (f : Nibble → Byte → Addr) : Vector Addr 4096 :=
  Vector.ofFn fun n => f (BitVec.ofNat 4 (n.val / 256)) (BitVec.ofNat 8 (n.val % 256))

theorem portTable_portTableIndex (f : Nibble → Byte → Addr) (cl : Nibble) (rc : Byte) :
    (portTable f)[portTableIndex cl rc] = f cl rc := by
  have hcl : (cl.toNat * 256 + rc.toNat) / 256 = cl.toNat := by omega
  have hrc : (cl.toNat * 256 + rc.toNat) % 256 = rc.toNat := by omega
  simp [portTable, portTableIndex, hcl, hrc]

/-- Every function of kind, `CL` and `RC` is the `A_PORT_ADDR` of some configuration (00_scope.md R10). -/
theorem portAddr_surjective (f : PortKind → Nibble → Byte → Addr) :
    ∃ c : PortAddrChoice, ∀ (s : State) (k : PortKind),
      s.cfg.params.portAddr = c → portAddr k s = f k s.a.cl s.a.rc := by
  refine ⟨.table (portTable (f .romPort)) (portTable (f .ramPort)), fun s k h => ?_⟩
  rw [portAddr_table h]
  cases k <;> exact portTable_portTableIndex _ _ _

/-- The suggested ROM port is the high nibble of `RC`. -/
theorem suggestedPort_romPort_toNat (cl : Nibble) (rc : Byte) :
    (suggestedPort .romPort cl rc).toNat = rc.toNat / 16 := by
  have h := rc.isLt
  simp only [suggestedPort, BitVec.toNat_setWidth, BitVec.extractLsb'_toNat, Nat.shiftRight_eq_div_pow]
  omega

/-- The suggested RAM port is 16 and more, by `CL[2:0] :: RC[7:6]`. -/
theorem suggestedPort_ramPort_toNat (cl : Nibble) (rc : Byte) :
    (suggestedPort .ramPort cl rc).toNat = 16 + cl.toNat % 8 * 4 + rc.toNat / 64 := by
  have h := rc.isLt
  have hlow : rc.toNat >>> 6 % 2 ^ 2 < 2 ^ 2 := Nat.mod_lt _ (by decide)
  simp only [suggestedPort, BitVec.toNat_add, BitVec.toNat_setWidth, BitVec.toNat_append, BitVec.extractLsb'_toNat]
  rw [← Nat.shiftLeft_add_eq_or_of_lt hlow, Nat.shiftLeft_eq]
  have hbase : (16 : Addr).toNat = 16 := rfl
  simp only [Nat.shiftRight_eq_div_pow, hbase]
  omega

/-- The low nibble of a byte, as bits and as a number. -/
theorem extractLsb'_lowNibble (v : Byte) : v.extractLsb' 0 4 = BitVec.ofNat 4 (v.toNat % 16) := by
  apply BitVec.eq_of_toNat_eq
  simp

/-- Under `A_ADMIT_UNNAMED` an instruction marked G has its effect. -/
theorem admitted_of_true {s : State} (h : s.cfg.params.admitUnnamed = true) (i : Instr) (r : Result) :
    admitted i s r = r := by
  simp [admitted, h]

/-- Without `A_ADMIT_UNNAMED` an instruction marked G raises InvalidOpcode. -/
theorem admitted_of_false {s : State} (h : s.cfg.params.admitUnnamed = false) (i : Instr) (r : Result) :
    admitted i s r = .next { s with err := some (.invalidOpcode i.opcode) } := by
  simp [admitted, h, State.raise]

/-- WMP and WRR under `A_ADMIT_UNNAMED`: one port write of the zero-extended accumulator (R246, R247). -/
theorem admitted_writePortFromAcc_stores {s : State} (h : s.cfg.params.admitUnnamed = true) (i : Instr)
    (k : PortKind) :
    StoresPort (admitted i s (writePortFromAcc k s)) s (portAddr k s) (s.a.acc.setWidth 8) := by
  rw [admitted_of_true h]
  exact onWrite_port s _ _

/-- RDR under `A_ADMIT_UNNAMED`: the low nibble of what the ROM port answers (R248). -/
theorem execARdr_loads {s : State} (h : s.cfg.params.admitUnnamed = true) :
    LoadsAnswer (execARdr s) (portAnswer s (portAddr .romPort s)) { s with tick := s.tick + 1 } fun v =>
      { s with tick := s.tick + 1, a := { s.a with acc := BitVec.ofNat 4 (v.toNat % 16) } } := by
  unfold execARdr
  rw [admitted_of_true h, busReadPort_eq]
  refine onRead_loads fun v => ?_
  rw [extractLsb'_lowNibble]
  rfl

/-- Settles O47: the argument as a table, then WMP, WRR and RDR by the rules of a port access, the refusal of rows
marked G, and the suggested function in numbers. -/
theorem aPorts : Obligations.APorts := by
  refine ⟨portAddr_surjective, fun s => ⟨rfl, rfl, rfl, fun h => ⟨?wmp, ?wrr, execARdr_loads h⟩, fun h => ?refused,
    fun h => ⟨?ramPort, ?romPort⟩⟩⟩
  case wmp => exact admitted_writePortFromAcc_stores h .aWmp .ramPort
  case wrr => exact admitted_writePortFromAcc_stores h .aWrr .romPort
  case refused => exact ⟨admitted_of_false h .aWmp _, admitted_of_false h .aWrr _, admitted_of_false h .aRdr _⟩
  case ramPort => rw [portAddr_suggested h, suggestedPort_ramPort_toNat]
  case romPort => rw [portAddr_suggested h, suggestedPort_romPort_toNat]

end Sys2Proof.Machine
end

section
/-! PROOF. Host access to the register file (00_scope.md R11, 10_state.md R41, 60_exceptions.md R341). -/

namespace Sys2Proof.Machine

section VariantA

variable {s : State} (hv : s.cfg.variant = .A)
include hv

/-- A register of variant A is read, or written with the low nibble. -/
theorem hostReg_A (i : Fin 16) (v : Byte) :
    hostReadReg s i = (.ok (s.a.x[i].setWidth 8), s) ∧
      hostWriteReg s i v = (.ok (), { s with a := { s.a with x := s.a.x.set i (v.extractLsb' 0 4) } }) := by
  simp [hostReadReg, hostWriteReg, hv, State.setA]

theorem hostReg_A_outOfRange {i : Nat} (v : Byte) (hi : 16 ≤ i) :
    hostReadReg s i = (.error .invalidRegisterIndex, s) ∧
      hostWriteReg s i v = (.error .invalidRegisterIndex, s) := by
  simp [hostReadReg, hostWriteReg, hv, Nat.not_lt.mpr hi]

theorem hostPair_A (p : Fin 8) (v : Byte) :
    hostReadPair s p = .ok (s.a.pair p) ∧ hostWritePair s p v = .ok { s with a := s.a.setPair p v } := by
  simp [hostReadPair, hostWritePair, hv, State.setA]

theorem hostPair_A_outOfRange {p : Nat} (v : Byte) (hp : 8 ≤ p) :
    hostReadPair s p = .error .invalidRegisterIndex ∧ hostWritePair s p v = .error .invalidRegisterIndex := by
  simp [hostReadPair, hostWritePair, hv, Nat.not_lt.mpr hp]

theorem hostReadFlag_A (k : Nat) : hostReadFlag s k = inRange (s.a.hostFlag k) := by
  simp only [hostReadFlag, hv]

theorem hostWriteFlag_A (k : Nat) (v : Bool) :
    hostWriteFlag s k v = inRange ((s.a.setHostFlag v k).map s.setA) := by
  simp only [hostWriteFlag, hv]

end VariantA

section VariantB

variable {s : State} (hv : s.cfg.variant = .B)
include hv

/-- A register of variant B other than `M` is read or written. -/
theorem hostReg_B (i : Fin 7) (v : Byte) :
    hostReadReg s i = (.ok s.b.x[i], s) ∧
      hostWriteReg s i v = (.ok (), { s with b := { s.b with x := s.b.x.set i v } }) := by
  simp [hostReadReg, hostWriteReg, hv, State.setB]

/-- Register 7 of variant B is one Bus access at `M`, with no filter (10_state.md R41). -/
theorem hostReg_B_memory :
    hostReadReg s 7 = busReadMem (memAddrB s) none s ∧
      ∀ v, hostWriteReg s 7 v = busWriteMem (memAddrB s) v none s := by
  simp [hostReadReg, hostWriteReg, hv]

theorem hostReg_B_outOfRange {i : Nat} (v : Byte) (hi : 8 ≤ i) :
    hostReadReg s i = (.error .invalidRegisterIndex, s) ∧
      hostWriteReg s i v = (.error .invalidRegisterIndex, s) := by
  have hreg : ¬i < 7 := by omega
  have hmem : i ≠ 7 := by omega
  simp [hostReadReg, hostWriteReg, hv, hreg, hmem]

theorem hostPair_B (p : Nat) (v : Byte) :
    hostReadPair s p = .error .invalidRegisterIndex ∧ hostWritePair s p v = .error .invalidRegisterIndex := by
  simp [hostReadPair, hostWritePair, hv]

theorem hostReadFlag_B (k : Nat) : hostReadFlag s k = inRange (s.b.hostFlag k) := by
  simp only [hostReadFlag, hv]

theorem hostWriteFlag_B (k : Nat) (v : Bool) :
    hostWriteFlag s k v = inRange ((s.b.setHostFlag v k).map s.setB) := by
  simp only [hostWriteFlag, hv]

end VariantB

/-- Variant A has two flags. -/
theorem CpuA.hostFlag_outOfRange (c : CpuA) (v : Bool) {k : Nat} (hk : 2 ≤ k) :
    c.hostFlag k = none ∧ c.setHostFlag v k = none := by
  obtain ⟨n, rfl⟩ := Nat.exists_eq_add_of_le' hk
  exact ⟨rfl, rfl⟩

/-- Variant B has four flags. -/
theorem CpuB.hostFlag_outOfRange (c : CpuB) (v : Bool) {k : Nat} (hk : 4 ≤ k) :
    c.hostFlag k = none ∧ c.setHostFlag v k = none := by
  obtain ⟨n, rfl⟩ := Nat.exists_eq_add_of_le' hk
  exact ⟨rfl, rfl⟩

/-- The address of `M` in numbers: `H[5:0] :: L` (10_state.md R41). -/
theorem memAddrB_eq_ofNat (s : State) :
    memAddrB s = BitVec.ofNat 16 (s.b.x[5].toNat % 64 * 256 + s.b.x[6].toNat) := by
  have hl := (s.b.reg .L).isLt
  apply BitVec.eq_of_toNat_eq
  simp only [memAddrB, CpuB.hl, BitVec.toNat_setWidth, BitVec.toNat_append,
    BitVec.extractLsb'_toNat, BitVec.toNat_ofNat, Nat.shiftRight_zero]
  rw [← Nat.shiftLeft_add_eq_or_of_lt hl, Nat.shiftLeft_eq]
  rfl

/-- Settles O30: registers, pairs and flags of each variant, in range and out of it, and `M`. -/
theorem hostRegisterAccess : Obligations.HostRegisterAccess := by
  refine fun s => ⟨fun hv => ⟨hostReg_A hv, fun _ => hostReg_A_outOfRange hv, hostPair_A hv,
    fun _ => hostPair_A_outOfRange hv, fun v => ?flagsA, fun k v hk => ?noFlagA⟩,
    fun hv => ⟨hostReg_B hv, ?memory, fun _ => hostReg_B_outOfRange hv, hostPair_B hv, fun v => ?flagsB,
    fun k v hk => ?noFlagB⟩⟩
  case flagsA =>
    simp only [hostReadFlag_A hv, hostWriteFlag_A hv]
    exact ⟨rfl, rfl, rfl, rfl⟩
  case noFlagA =>
    obtain ⟨hread, hwrite⟩ := s.a.hostFlag_outOfRange v hk
    rw [hostReadFlag_A hv, hostWriteFlag_A hv, hread, hwrite]
    exact ⟨rfl, rfl⟩
  case memory =>
    rw [← memAddrB_eq_ofNat]
    exact hostReg_B_memory hv
  case flagsB =>
    simp only [hostReadFlag_B hv, hostWriteFlag_B hv]
    exact ⟨rfl, rfl, rfl, rfl, rfl, rfl, rfl, rfl⟩
  case noFlagB =>
    obtain ⟨hread, hwrite⟩ := s.b.hostFlag_outOfRange v hk
    rw [hostReadFlag_B hv, hostWriteFlag_B hv, hread, hwrite]
    exact ⟨rfl, rfl⟩

end Sys2Proof.Machine
end

section
/-! PROOF. What a step does to contents, status memory and page registers: at most one write, or a host reset that makes
all three anew. The invariants of the three (10_state.md R51, R55) follow, and with them the landing of host events
(10_state.md R25, 60_exceptions.md R351, 70_reset_and_hazards.md R370). -/

namespace Sys2Proof.Machine

/-- What a machine stores behind its Bus: contents, status memory and page registers. -/
structure Storage where
  mem : Memory
  stat : Memory
  pages : List (Vector Byte 16)

/-- The storage of a state. -/
def State.storage (s : State) : Storage := ⟨s.mem, s.stat, s.pages⟩

namespace Storage

/-- The storage after at most one write: one contents cell, one status cell, or one of the page registers 0 to 3 of one
mapper (20_memory.md R82, R84, R100). -/
inductive Effect (p : Storage) : Storage → Prop where
  | nothing : Effect p p
  | cell (k : Nat) (v : Byte) : Effect p { p with mem := p.mem.write k v }
  | status (k : Nat) (v : Byte) : Effect p { p with stat := p.stat.write k v }
  | pageReg (m : Nat) (k : Fin 4) (v : Byte) :
    Effect p { p with pages := p.pages.modify m fun pr => pr.set k v (by omega) }

/-- `Canonical`, as a property of the storage. -/
def Canonical (p : Storage) : Prop := p.mem.wf = true ∧ p.stat.wf = true

/-- `UpperPagesZero`, as a property of the storage. -/
def UpperPagesZero (p : Storage) : Prop := ∀ pr ∈ p.pages, ∀ k : Fin 16, 4 ≤ k.val → pr[k] = 0

theorem canonical_iff (s : State) : Machine.Canonical s ↔ s.storage.Canonical := Iff.rfl

theorem upperPagesZero_iff (s : State) : Machine.UpperPagesZero s ↔ s.storage.UpperPagesZero := Iff.rfl

variable {p q : Storage}

theorem Effect.canonical (h : Effect p q) (hp : p.Canonical) : q.Canonical := by
  obtain ⟨hmem, hstat⟩ := hp
  cases h with
  | nothing => exact ⟨hmem, hstat⟩
  | cell k v => exact ⟨Memory.wf_write hmem k v, hstat⟩
  | status k v => exact ⟨hmem, Memory.wf_write hstat k v⟩
  | pageReg => exact ⟨hmem, hstat⟩

/-- A write into a register window reaches `PR[0]` to `PR[3]` only. -/
theorem Effect.upperPagesZero (h : Effect p q) (hp : p.UpperPagesZero) : q.UpperPagesZero := by
  cases h with
  | nothing | cell | status => exact hp
  | pageReg m j v =>
    intro pr hpr k hk
    obtain ⟨n, hn, rfl⟩ := List.getElem_of_mem hpr
    rw [List.length_modify] at hn
    have hold := hp _ (List.getElem_mem hn) k hk
    have hjk : j.val ≠ k.val := by omega
    rw [List.getElem_modify]
    split
    · simpa [Vector.getElem_set, hjk] using hold
    · exact hold

end Storage

/-! The storage under each shared operation. -/

/-- The Bus write of an instruction has left in the storage what the instruction leaves, error or not. -/
theorem onWrite_storage {r : Answer Unit × State} {t : State} (h : onWrite r = .next t) : t.storage = r.2.storage := by
  rcases onWrite_next r with g | ⟨e, -, -, g⟩ <;> rw [g] at h <;> cases h <;> rfl

theorem mapperWrite_effect (m : Nat) (g : Gate) (a : Addr) (v : Byte) (s : State) :
    s.storage.Effect (mapperWrite m g a v s).storage :=
  .pageReg m ⟨offsetIn g a % 4, by omega⟩ v

theorem busWriteMem_effect (a : Addr) (v : Byte) (f : Option DevKind) (s : State) :
    s.storage.Effect (busWriteMem a v f s).2.storage := by
  rcases busWriteMem_state a v f s with h | ⟨_, _, _, _, -, -, -, h⟩ | ⟨_, _, m, -, -, -, h⟩ <;> rw [h]
  · exact .nothing
  · exact .cell _ v
  · exact mapperWrite_effect m _ _ v s

theorem busWriteStatus_effect (a : Addr) (i : Nat) (v : Byte) (f : Option DevKind) (s : State) :
    s.storage.Effect (busWriteStatus a i v f s).2.storage := by
  rcases busWriteStatus_state a i v f s with h | ⟨_, _, _, -, -, -, h⟩ <;> rw [h]
  · exact .nothing
  · exact .status _ v

theorem busWritePort_effect (p : Addr) (v : Byte) (s : State) :
    s.storage.Effect (busWritePort p v s).2.storage := by
  rcases busWritePort_state p v s with h | ⟨_, m, -, -, -, h⟩ <;> rw [h]
  · exact .nothing
  · exact mapperWrite_effect m _ p v s

/-- An instruction makes at most one write. -/
theorem exec_storage {i : Instr} {s t : State} (h : exec i s = .next t) : s.storage.Effect t.storage := by
  rcases exec_effect h with hlocal | ⟨-, hraise⟩ | ⟨a, v, f, -, -, hw⟩ | ⟨a, j, v, f, -, hw⟩ | ⟨p, v, -, hw⟩
  · unfold LocalEffect at hlocal
    rw [hlocal]
    exact .nothing
  · rw [hraise]
    exact .nothing
  · rw [onWrite_storage hw]
    exact busWriteMem_effect a v f s
  · rw [onWrite_storage hw]
    exact busWriteStatus_effect a j v f s
  · rw [onWrite_storage hw]
    exact busWritePort_effect p v s

theorem fetchInstr_storage (s : State) : (fetchInstr s).2.storage = s.storage := by
  have h := fetchInstr_frame s
  unfold FetchFrame at h
  rw [h]
  rfl

theorem runTurn_storage {s t : State} (h : runTurn s = .next t) : s.storage.Effect t.storage := by
  have hfetch := fetchInstr_storage s
  rcases runTurn_cases s with ⟨-, g⟩ | ⟨f, -, g⟩ | ⟨e, u, hu, g⟩ | ⟨i, u, hu, g⟩ <;> rw [g] at h
  · cases h
  · cases h
  · rw [hu] at hfetch
    cases h
    exact hfetch ▸ .nothing
  · rw [hu] at hfetch
    exact hfetch ▸ exec_storage h

/-! A step, by what is pending. -/

theorem step_idle {s : State} (h : s.hostQueue = []) : step s = runTurn s := by
  simp only [step, h]

theorem step_go {s : State} {q : List HostEvent} (h : s.hostQueue = .go :: q) :
    step s = runTurn { s with hostQueue := q } := by
  simp only [step, h]

theorem step_event {s : State} {e : HostEvent} {q : List HostEvent} (h : s.hostQueue = e :: q) (he : e ≠ .go) :
    step s = .next (e.land { s with hostQueue := q }) := by
  unfold step
  cases e with
  | go => exact absurd rfl he
  | setTest | setCancel | reset => simp only [h]

/-- Everything a step does to the storage: at most one write, or it is a host reset. -/
theorem step_storage {s t : State} (h : step s = .next t) :
    s.storage.Effect t.storage ∨ t.storage = (State.resetWith s.cfg).storage := by
  cases hq : s.hostQueue with
  | nil =>
    rw [step_idle hq] at h
    exact .inl (runTurn_storage h)
  | cons e q =>
    cases e with
    | go =>
      rw [step_go hq] at h
      have he := runTurn_storage h
      exact .inl he
    | setTest v =>
      rw [step_event hq nofun] at h
      cases h
      exact .inl .nothing
    | setCancel v =>
      rw [step_event hq nofun] at h
      cases h
      exact .inl .nothing
    | reset =>
      rw [step_event hq nofun] at h
      cases h
      exact .inr rfl

/-- A property of the storage that every reset state has and every single write keeps is kept by every step. -/
theorem step_keeps_storage {P : Storage → Prop} (hwrite : ∀ {p q : Storage}, p.Effect q → P p → P q)
    (hreset : ∀ c, P (State.resetWith c).storage) {s t : State} (hs : P s.storage) (h : step s = .next t) :
    P t.storage := by
  rcases step_storage h with he | he
  · exact hwrite he hs
  · rw [he]
    exact hreset s.cfg

theorem resetWith_canonical (c : MachineConfig) : Canonical (State.resetWith c) := State.resetWith_wf c

theorem resetWith_upperPagesZero (c : MachineConfig) : UpperPagesZero (State.resetWith c) := by
  intro pr hpr k _
  obtain ⟨_, -, rfl⟩ := List.mem_map.mp hpr
  simp

theorem resetWith_shapeOk (c : MachineConfig) : ShapeOk (State.resetWith c) := by
  simp [ShapeOk, State.resetWith]

/-- Settles O10: canonical memory is a property of the storage that a reset makes and a write keeps. -/
theorem memoryStaysCanonical : Obligations.MemoryStaysCanonical := by
  intro s t hs h
  rw [Storage.canonical_iff] at hs ⊢
  exact step_keeps_storage Storage.Effect.canonical resetWith_canonical hs h

/-- Settles O11: zero upper page registers are a property of the storage that a reset makes and a write keeps. -/
theorem upperPageRegistersStayZero : Obligations.UpperPageRegistersStayZero := by
  intro s t hs h
  rw [Storage.upperPagesZero_iff] at hs ⊢
  exact step_keeps_storage Storage.Effect.upperPagesZero resetWith_upperPagesZero hs h

/-- Settles O12: the three invariants at the reset of every configuration. -/
theorem invariantsHoldAtReset : Obligations.InvariantsHoldAtReset := by
  have hreset (c : MachineConfig) :
      Canonical (State.resetWith c) ∧ UpperPagesZero (State.resetWith c) ∧ ShapeOk (State.resetWith c) :=
    ⟨resetWith_canonical c, resetWith_upperPagesZero c, resetWith_shapeOk c⟩
  exact ⟨hreset, hreset _⟩

/-- Settles O8: each kind of event that can stand at the head of the queue, and the empty queue. -/
theorem hostEventsLand : Obligations.HostEventsLand := by
  refine fun s q => ⟨fun v h => ?setTest, fun v h => ?setCancel, fun h => ?reset, step_go, step_idle⟩
  case setTest => exact step_event h nofun
  case setCancel => exact step_event h nofun
  case reset => exact step_event h nofun

end Sys2Proof.Machine
end

section
/-! PROOF. The reset state: every piece of state at zero, and the images of the MemoryDevices in their cells
(10_state.md R65, 20_memory.md R86). -/

namespace Sys2Proof.Machine

/-- Loading a list of bytes puts them at rising keys and leaves every other key. -/
theorem Memory.read_load {m : Memory} (h : m.wf = true) (k : Nat) (vs : List Byte) (j : Nat) :
    (m.load k vs).read j = if k ≤ j ∧ j < k + vs.length then vs.getD (j - k) 0 else m.read j := by
  induction vs generalizing m k with
  | nil =>
    rw [if_neg (by simp only [List.length_nil]; omega)]
    rfl
  | cons v vs ih =>
    simp only [Memory.load, ih (Memory.wf_write h k v), Memory.read_write h, List.length_cons]
    rcases Nat.lt_trichotomy j k with hj | rfl | hj
    · rw [if_neg (by omega), if_neg (by omega), if_neg (by omega)]
    · rw [if_neg (by omega), if_pos rfl, if_pos (by omega), Nat.sub_self]
      rfl
    · have hsub : j - k = (j - (k + 1)) + 1 := by omega
      rw [if_neg (by omega : j ≠ k), hsub, List.getD_cons_succ]
      exact if_congr (by omega) rfl rfl

/-- A window has at most 2^16 cells. -/
theorem windowSize_le (g : Gate) : g.last.toNat - g.start.toNat + 1 ≤ 65536 := by omega

/-- The cells of the next device stand after the 2^16 cells of a device. -/
theorem contentKey_succ (dev : Nat) : contentKey (dev + 1) 0 = contentKey dev 0 + 65536 := by
  unfold contentKey
  omega

/-- Loading the image of a device leaves the cells of every other device. -/
theorem Memory.read_loadImage_other {m : Memory} (h : m.wf = true) {dev : Nat} (g : Gate) (image : List Byte) {j : Nat}
    (hj : j < contentKey dev 0 ∨ contentKey (dev + 1) 0 ≤ j) : (m.loadImage dev g image).read j = m.read j := by
  have hsize := windowSize_le g
  unfold contentKey at hj
  rw [Memory.loadImage, Memory.read_load h, if_neg]
  simp only [contentKey, List.length_take]
  omega

/-- Loading an image into cells that hold 0: cell `k` of the window holds byte `k` of the image, or 0 past its end. -/
theorem Memory.read_loadImage {m : Memory} (h : m.wf = true) {dev : Nat} (g : Gate) (image : List Byte) {k : Nat}
    (hzero : m.read (contentKey dev k) = 0) :
    (m.loadImage dev g image).read (contentKey dev k) =
      if k ≤ g.last.toNat - g.start.toNat then image.getD k 0 else 0 := by
  have hkey : contentKey dev k - contentKey dev 0 = k := by simp [contentKey]
  rw [Memory.loadImage, Memory.read_load h, hzero, hkey]
  simp only [contentKey, List.length_take]
  by_cases hk : k ≤ g.last.toNat - g.start.toNat
  · rw [if_pos hk, List.getD_eq_getElem?_getD, List.getD_eq_getElem?_getD, List.getElem?_take_of_lt (by omega)]
    split
    · rfl
    · rw [List.getElem?_eq_none (by omega)]
      rfl
  · rw [if_neg hk, if_neg (by omega)]

/-- The images of the devices from number `dev` on leave the cells of the devices before. -/
theorem Memory.read_ofImages_below {m : Memory} (h : m.wf = true) {dev : Nat} (es : List MemEntry) {j : Nat}
    (hj : j < contentKey dev 0) : (Memory.ofImages m dev es).read j = m.read j := by
  induction es generalizing m dev with
  | nil => rfl
  | cons e es ih =>
    have hj' : j < contentKey (dev + 1) 0 := by
      rw [contentKey_succ]
      omega
    unfold Memory.ofImages
    split
    · rw [ih (Memory.wf_loadImage h _ _ _) hj', Memory.read_loadImage_other h _ _ (.inl hj)]
    · exact ih h hj'

/-- With the cells of all devices from number `dev` on at 0, the images put each device's own bytes into its cells. -/
theorem Memory.read_ofImages {m : Memory} (h : m.wf = true) {dev : Nat} {es : List MemEntry}
    (hzero : ∀ j, contentKey dev 0 ≤ j → m.read j = 0) {n : Nat} {e : MemEntry} {ro st : Bool} {image : List Byte}
    (he : es[n]? = some e) (hbody : e.body = .memory ro st image) {k : Nat} (hk : k < 65536) :
    (Memory.ofImages m dev es).read (contentKey (dev + n) k) =
      if k ≤ e.gate.last.toNat - e.gate.start.toNat then image.getD k 0 else 0 := by
  induction es generalizing m dev n with
  | nil => simp at he
  | cons d es ih =>
    cases n with
    | zero =>
      obtain rfl : d = e := by simpa using he
      have hown : contentKey dev k < contentKey (dev + 1) 0 := by
        unfold contentKey
        omega
      simp only [Memory.ofImages, hbody, Nat.add_zero]
      rw [Memory.read_ofImages_below (Memory.wf_loadImage h _ _ _) es hown]
      exact Memory.read_loadImage h _ _ (hzero _ (by simp [contentKey]))
    | succ n =>
      have he' : es[n]? = some e := by simpa using he
      have hnext (j : Nat) (hj : contentKey (dev + 1) 0 ≤ j) : contentKey dev 0 ≤ j := by
        rw [contentKey_succ] at hj
        omega
      rw [show dev + (n + 1) = dev + 1 + n by omega]
      unfold Memory.ofImages
      split
      · refine ih (Memory.wf_loadImage h _ _ _) (fun j hj => ?_) he'
        rw [Memory.read_loadImage_other h _ _ (.inr hj)]
        exact hzero j (hnext j hj)
      · exact ih h (fun j hj => hzero j (hnext j hj)) he'

/-- Every page register reads 0 after reset, that of a mapper that does not exist too. -/
theorem resetWith_pageReg (c : MachineConfig) (m : Nat) (k : Fin 16) : (State.resetWith c).pageReg m k = 0 := by
  have hpages : (State.resetWith c).pages.getD m (Vector.replicate 16 0) = Vector.replicate 16 0 := by
    rw [List.getD_eq_getElem?_getD, State.resetWith, List.getElem?_map]
    cases c.mappers[m]? <;> rfl
  rw [State.pageReg, hpages]
  simp

/-- Every latch reads 0 after reset, one that does not exist too. -/
theorem resetWith_latchAt (c : MachineConfig) (k : Nat) : (State.resetWith c).latchAt k = false := by
  simp only [State.latchAt, State.resetWith, List.getD_eq_getElem?_getD, List.getElem?_replicate]
  split <;> rfl

/-- Execution starts at bus address 0 in either variant (70_reset_and_hazards.md R371). -/
theorem resetWith_fetchAddr (c : MachineConfig) : fetchAddr (State.resetWith c) = 0 := by
  unfold fetchAddr
  split <;> rfl

/-- Settles O9: the fields one by one, then page registers, latches, the start address and the images. -/
theorem resetState : Obligations.ResetState := by
  intro c
  refine ⟨rfl, ?regsA, rfl, rfl, rfl, rfl, rfl, rfl, ?slotsA, rfl, rfl, ?regsB, rfl, rfl, rfl, rfl, rfl, ?slotsB, rfl,
    rfl, rfl, rfl, rfl, resetWith_pageReg c, resetWith_latchAt c, fun _ => rfl, resetWith_fetchAddr c, ?images⟩
  case regsA | slotsA | regsB | slotsB =>
    simp [State.resetWith, CpuA.reset, CpuB.reset, CallStack.empty]
  case images =>
    intro dev e ro st img he hbody k hk
    have himage := Memory.read_ofImages (m := []) rfl (dev := 0) (fun _ _ => rfl) he hbody hk
    rwa [Nat.zero_add] at himage

end Sys2Proof.Machine
end

section
/-! PROOF. The call stack is last in, first out up to its depth, wherever its pointer starts (10_state.md R32, R33,
R44). -/

namespace Sys2Proof.Machine.CallStack

variable {w d : Nat} {k : CallStack w d} {v : BitVec w} {ws : List (BitVec w)}

/-- The addresses `ws`, newest first, are outstanding on the stack: the counter covers them, and they stand in the slots
below the pointer, which go on from the top slot below slot 0. -/
structure Holds (k : CallStack w d) (ws : List (BitVec w)) : Prop where
  counted : ws.length ≤ k.nest.val
  slot : ∀ (j : Nat) (hj : j < ws.length) (i : Fin d),
    i.val + j + 1 = k.sp.val ∨ i.val + j + 1 = k.sp.val + d → k.slots[i] = ws[j]

theorem holds_nil (k : CallStack w d) : k.Holds [] := ⟨Nat.zero_le _, nofun⟩

theorem push_sp_val (k : CallStack w d) (v : BitVec w) :
    (k.push v).sp.val = if k.sp.val + 1 < d then k.sp.val + 1 else 0 := by
  simp only [push]
  split <;> rfl

/-- A push on a stack with a free slot covers no outstanding address. -/
theorem Holds.push (h : k.Holds ws) (hfree : ws.length < d) (v : BitVec w) : (k.push v).Holds (v :: ws) where
  counted := by
    have := h.counted
    simp only [CallStack.push, List.length_cons]
    omega
  slot j hj i hi := by
    have hsp := k.sp.isLt
    rw [push_sp_val] at hi
    simp only [CallStack.push, Fin.getElem_fin, Vector.getElem_set]
    cases j with
    | zero =>
      rw [if_pos (by split at hi <;> omega)]
      rfl
    | succ j =>
      rw [List.length_cons] at hj
      rw [if_neg (by split at hi <;> omega)]
      exact h.slot j (by omega) i (by split at hi <;> omega)

/-- With an address outstanding a pop does not underflow: it answers the newest and leaves the others. -/
theorem Holds.pop (h : k.Holds (v :: ws)) : ∃ k', k.pop = some (v, k') ∧ k'.Holds ws := by
  have hcounted := h.counted
  rw [List.length_cons] at hcounted
  cases hpop : k.pop with
  | none =>
    unfold CallStack.pop at hpop
    split at hpop
    · omega
    · cases hpop
  | some p =>
    obtain ⟨x, k'⟩ := p
    obtain ⟨-, hslots, hx, hnest, hsp⟩ := pop_some hpop
    have hlt := k.sp.isLt
    refine ⟨k', ?_, by omega, fun j hj i hi => ?_⟩
    · have hnewest : k.slots[k'.sp] = v := h.slot 0 (Nat.zero_lt_succ _) k'.sp (by split at hsp <;> omega)
      rw [hx, hnewest]
    · rw [hslots]
      exact h.slot (j + 1) (Nat.succ_lt_succ hj) i (by split at hsp <;> omega)

theorem Holds.pushAll (h : k.Holds ws) (vs : List (BitVec w)) (hfree : ws.length + vs.length ≤ d) :
    (k.pushAll vs).Holds (vs.reverse ++ ws) := by
  induction vs generalizing k ws with
  | nil => exact h
  | cons v vs ih =>
    rw [List.length_cons] at hfree
    rw [List.reverse_cons, List.append_assoc]
    have hrest : (v :: ws).length + vs.length ≤ d := by
      rw [List.length_cons]
      omega
    exact ih (h.push (by omega) v) hrest

theorem Holds.popMany (h : k.Holds ws) : k.popMany ws.length = ws := by
  induction ws generalizing k with
  | nil => rfl
  | cons v ws ih =>
    obtain ⟨k', hpop, hk'⟩ := h.pop
    simp only [List.length_cons, CallStack.popMany, hpop, ih hk']

/-- Settles O31: after the pushes the stack holds the addresses newest first, and pops answer what it holds. -/
theorem stackIsLastInFirstOut : Obligations.StackIsLastInFirstOut := by
  intro w d k vs hdepth
  have hholds : (k.pushAll vs).Holds (vs.reverse ++ []) := (holds_nil k).pushAll vs (by simpa using hdepth)
  rw [List.append_nil] at hholds
  simpa using hholds.popMany

end Sys2Proof.Machine.CallStack
end

section
/-! PROOF. The scans of the memory list and the port list find the first match (10_state.md R60, 20_memory.md R72, R73,
R75, R76, R80, R90). -/

namespace Sys2Proof.Machine

theorem evalEnabler_iff (s : State) (e : Enabler) : evalEnabler s e = true ↔ EnablerHolds s e := by
  cases e with
  | always => simp [evalEnabler, EnablerHolds]
  | never => simp [evalEnabler, EnablerHolds]
  | flag k inv =>
    cases inv <;> cases h : s.latch[k]? <;>
      simp [evalEnabler, EnablerHolds, State.latchAt, List.getD_eq_getElem?_getD, h]
  | regEqCL v =>
    have hcl : s.a.cl.toNat % 2 ^ 8 = s.a.cl.toNat := Nat.mod_eq_of_lt (by omega)
    simp only [evalEnabler, EnablerHolds, beq_iff_eq, ← BitVec.toNat_inj, BitVec.toNat_setWidth, hcl]
  | regEqForeign r v => simp [evalEnabler, EnablerHolds]

theorem hasAddress_iff (g : Gate) (a : Addr) (s : State) :
    hasAddress g a s = true ↔ EnablerHolds s g.enabler ∧ g.start.toNat ≤ a.toNat ∧ a.toNat ≤ g.last.toNat := by
  simp [hasAddress, evalEnabler_iff, BitVec.le_def, and_assoc]

theorem kindVisible_iff (f : Option DevKind) (k : DevKind) : kindVisible f k = true ↔ f = none ∨ f = some k := by
  cases f with
  | none => simp [kindVisible]
  | some want => simp [kindVisible, eq_comm]

/-- The first element of a list that a test accepts, by its position. -/
theorem find?_eq_some_iff_first {α : Type} {l : List α} {p : α → Bool} {e : α} :
    l.find? p = some e ↔
      ∃ n : Nat, l[n]? = some e ∧ p e = true ∧ ∀ m, m < n → ∀ d : α, l[m]? = some d → ¬p d = true := by
  rw [List.find?_eq_some_iff_getElem]
  constructor
  · rintro ⟨he, n, hn, rfl, hfirst⟩
    refine ⟨n, List.getElem?_eq_getElem hn, he, fun m hm d hd => ?_⟩
    obtain ⟨_, rfl⟩ := List.getElem?_eq_some_iff.mp hd
    simpa using hfirst m hm
  · rintro ⟨n, hn, he, hfirst⟩
    obtain ⟨hlt, rfl⟩ := List.getElem?_eq_some_iff.mp hn
    refine ⟨he, n, hlt, rfl, fun m hm => ?_⟩
    simpa using hfirst m hm _ (List.getElem?_eq_getElem (by omega))

/-- The filter shows an entry, and its window has the address. -/
def shown (f : Option DevKind) (a : Addr) (s : State) (e : MemEntry) : Bool :=
  kindVisible f e.kind && hasAddress e.gate a s

theorem shown_iff (f : Option DevKind) (a : Addr) (s : State) (e : MemEntry) :
    shown f a s e = true ↔ (f = none ∨ f = some e.kind) ∧
      EnablerHolds s e.gate.enabler ∧ e.gate.start.toNat ≤ a.toNat ∧ a.toNat ≤ e.gate.last.toNat := by
  rw [shown, Bool.and_eq_true, kindVisible_iff, hasAddress_iff]

/-- The scan of the memory list is a search of the list with its positions as device numbers. -/
theorem scanMemFrom_eq_find? (f : Option DevKind) (a : Addr) (s : State) (dev : Nat) (es : List MemEntry) :
    scanMemFrom f a s dev es = ((es.zipIdx dev).find? fun x => shown f a s x.1).map Prod.swap := by
  induction es generalizing dev with
  | nil => rfl
  | cons e es ih =>
    rw [scanMemFrom, ← shown, List.zipIdx_cons, List.find?_cons, ih]
    cases shown f a s e <;> rfl

theorem scanMem_eq_some_iff (f : Option DevKind) (a : Addr) (s : State) (n : Nat) (e : MemEntry) :
    scanMem f a s = some (n, e) ↔ s.cfg.memList[n]? = some e ∧ shown f a s e = true ∧
      ∀ m, m < n → ∀ d, s.cfg.memList[m]? = some d → ¬shown f a s d = true := by
  have hswap (x : Option (MemEntry × Nat)) : x.map Prod.swap = some (n, e) ↔ x = some (e, n) := by
    cases x <;> simp [Prod.ext_iff, and_comm]
  rw [scanMem, scanMemFrom_eq_find?, hswap, find?_eq_some_iff_first]
  simp only [List.getElem?_zipIdx, Option.map_eq_some_iff]
  constructor
  · rintro ⟨m, ⟨d, hm, hd⟩, he, hfirst⟩
    obtain ⟨rfl, rfl⟩ : d = e ∧ m = n := by simpa using hd
    exact ⟨hm, he, fun j hj d hd => hfirst j hj (d, 0 + j) ⟨d, hd, rfl⟩⟩
  · rintro ⟨hn, he, hfirst⟩
    refine ⟨n, ⟨e, hn, by rw [Nat.zero_add]⟩, he, ?_⟩
    rintro m hm _ ⟨d, hd, rfl⟩
    exact hfirst m hm d hd

theorem scanMem_eq_none_iff (f : Option DevKind) (a : Addr) (s : State) :
    scanMem f a s = none ↔ ∀ e ∈ s.cfg.memList, ¬shown f a s e = true := by
  rw [scanMem, scanMemFrom_eq_find?, Option.map_eq_none_iff, List.find?_eq_none]
  constructor
  · intro h e he
    obtain ⟨n, hn⟩ := List.mem_iff_getElem?.mp he
    exact h (e, n) (List.mem_zipIdx_iff_getElem?.mpr hn)
  · intro h x hx
    exact h x.1 (List.fst_mem_of_mem_zipIdx hx)

/-- Settles O24: the searches of both lists, with the tests as the statement writes them. -/
theorem firstRegisteredDeviceAnswers : Obligations.FirstRegisteredDeviceAnswers := by
  intro a s
  refine ⟨fun f => ⟨fun n e => ?found, ?noMemEntry⟩, fun e => ?port, ?noPort⟩
  case found => simp only [scanMem_eq_some_iff, shown_iff]
  case noMemEntry => simp only [scanMem_eq_none_iff, shown_iff]
  case port => simp only [scanPort, find?_eq_some_iff_first, hasAddress_iff]
  case noPort => simp only [scanPort, List.find?_eq_none, hasAddress_iff]

end Sys2Proof.Machine
end

section
/-! PROOF. A step runs the instruction whose bytes it fetches (10_state.md R28, R29, 60_exceptions.md R350), and
without mappers those are the bytes in the memory that answers (20_memory.md R104). -/

namespace Sys2Proof

/-- A handler of a decode ROM answers well-formed instructions only: the rows whose fields could name an operand with no
encoding have an extra condition (30_encoding.md R135, R143 rows 8, 9 and 24). -/
theorem DecodeRow.build_wellFormed {v : Variant} {r : DecodeRow} (h : r ∈ decodeRom v) (b x y : Byte) :
    (r.build b x y).all Instr.WellFormed = true := by
  have hport : (b.extractLsb' 1 5).extractLsb' 3 2 = b.extractLsb' 4 2 := by
    ext j hj
    have hbit : j + 3 < 5 := by omega
    simp [hbit, Nat.add_comm, Nat.add_left_comm]
  revert r
  cases v <;> simp only [decodeRom, romA, romB, romA1, romA2, romA3, romA4, romB1, romB2, romB3, romB4,
    List.cons_append, List.nil_append, List.forall_mem_cons]
  · simp [Instr.WellFormed, apply_ite, em]
  · simp [Instr.WellFormed, Option.all_bind, Option.all_map, Option.all_eq_true, apply_ite, hport, em]

/-- A list of bytes that decodes to an instruction with none left: the first byte's row, with exactly the operand bytes
that it asks for. -/
theorem decode_eq_ok {v : Variant} {bs : List Byte} {i : Instr} (h : decode v bs = .ok (i, [])) :
    ∃ b ops r, bs = b :: ops ∧ findRow v b = some r ∧ ops.length = r.len - 1 ∧ r.instr b ops = some i := by
  cases bs with
  | nil => cases h
  | cons b ops =>
    simp only [decode] at h
    split at h
    · cases h
    · rename_i r hr
      split_ifs at h with hlen
      split at h
      · cases h
      · rename_i j hj
        obtain ⟨rfl, hdrop⟩ := Prod.mk.inj (Except.ok.inj h)
        have hle := List.drop_eq_nil_iff.mp hdrop
        rw [List.take_of_length_le hle] at hj
        exact ⟨b, ops, r, rfl, hr, by omega, hj⟩

theorem decode_wellFormed {v : Variant} {bs : List Byte} {i : Instr} (h : decode v bs = .ok (i, [])) :
    i.WellFormed = true := by
  obtain ⟨b, ops, r, -, hr, -, hi⟩ := decode_eq_ok h
  have hrow := DecodeRow.build_wellFormed (List.mem_of_find?_eq_some hr) b (ops.getD 0 0) (ops.getD 1 0)
  rwa [← DecodeRow.instr, hi] at hrow

end Sys2Proof

namespace Sys2Proof.Machine

variable {s t : State}

/-- Fetches that answer: the first one, then the others. -/
theorem fetchBytes_cons_iff {n : Nat} {b : Byte} {bs : List Byte} :
    fetchBytes s (n + 1) = (.ok (b :: bs), t) ↔ ∃ u, fetchByte s = (.ok b, u) ∧ fetchBytes u n = (.ok bs, t) := by
  rw [fetchBytes]
  rcases hb : fetchByte s with ⟨e | c, u⟩
  · simp
  · rcases hbs : fetchBytes u n with ⟨e | cs, w⟩ <;> simp [hbs, and_assoc]

/-- The fetch of an instruction makes the fetches of the bytes that decode to it. -/
theorem fetchInstr_of_decode {bs : List Byte} {i : Instr} (hbs : fetchBytes s bs.length = (.ok bs, t))
    (hi : decode s.cfg.variant bs = .ok (i, [])) : fetchInstr s = (.ok i, t) := by
  obtain ⟨b, ops, r, rfl, hr, hlen, hi⟩ := decode_eq_ok hi
  obtain ⟨u, hb, hops⟩ := fetchBytes_cons_iff.mp hbs
  rw [hlen] at hops
  simp only [fetchInstr, hb, hr, hops, hi]

/-- A machine whose next step runs an instruction makes a CPU step. -/
theorem step_of_ready (h : Ready s) : step s = cpuStep s := by
  obtain ⟨hqueue, hconfig, herr, hcancel, hhalted⟩ := h
  rw [step_idle hqueue]
  simp [runTurn, configOk, runEnd, hconfig, herr, hcancel, hhalted]

theorem step_of_fetchBytes {bs : List Byte} {i : Instr} (h : Ready s) (hbs : fetchBytes s bs.length = (.ok bs, t))
    (hi : decode s.cfg.variant bs = .ok (i, [])) : step s = exec i t := by
  rw [step_of_ready h, cpuStep, fetchInstr_of_decode hbs hi]

theorem fetchBytes_afterFetches {n : Nat} {bs : List Byte} (h : fetchBytes s n = (.ok bs, t)) : AfterFetches s n t := by
  rcases fetchBytes_cases s n with ⟨_, u, g, -, hu⟩ | ⟨_, e, u, _, _, -, g, -⟩ <;> rw [h] at g
  · cases g
    exact hu
  · cases g

/-- Settles O5: the fetches are those of `fetchInstr`, and the engine that does not run is kept. -/
theorem stepRunsTheDecodedInstruction : Obligations.StepRunsTheDecodedInstruction := by
  intro s t bs i hready hi hbs
  obtain ⟨hframe, hA, hB⟩ := fetchBytes_afterFetches hbs
  have hkeep := Keeps.fetchBytes s bs.length
  rw [hbs] at hkeep
  exact ⟨step_of_fetchBytes hready hbs hi, decode_wellFormed hi, decode_variant hi, hframe,
    fun hv => ⟨(hA hv).1, hkeep.idleB hv⟩, fun hv => ⟨(hB hv).1, hkeep.idleA hv⟩⟩

/-! The fetches of a machine without mappers, as `fetched` and `programByte` give them. -/

theorem fetched_zero (s : State) : fetched s 0 = s := by
  unfold fetched
  split <;> simp

theorem fetched_cfg (s : State) (n : Nat) : (fetched s n).cfg = s.cfg := by
  unfold fetched
  split <;> rfl

theorem fetched_mem (s : State) (n : Nat) : (fetched s n).mem = s.mem := by
  unfold fetched
  split <;> rfl

theorem fetched_fetched (s : State) (m n : Nat) : fetched (fetched s m) n = fetched s (m + n) := by
  unfold fetched
  cases h : s.cfg.variant <;> simp [h, BitVec.ofNat_add, BitVec.add_assoc, Nat.add_assoc]

theorem fetched_one (s : State) : fetched s 1 = advancePc s.ticked := by
  unfold fetched
  rw [advancePc_eq]
  cases h : s.cfg.variant <;> simp [h, State.ticked, State.setA, State.setB]

theorem programByte_succ (s : State) (k : Nat) : programByte s (k + 1) = programByte (fetched s 1) k := by
  simp only [programByte, fetched_fetched, fetched_cfg, fetched_mem, Nat.add_comm 1 k]

theorem programBytes_cons {b : Byte} {bs : List Byte} (h : ProgramBytes s (b :: bs)) :
    programByte s 0 = some b ∧ ProgramBytes (fetched s 1) bs := by
  refine ⟨h 0 (Nat.zero_lt_succ _), fun k hk => ?_⟩
  rw [← programByte_succ]
  exact h (k + 1) (Nat.succ_lt_succ hk)

section WithoutMappers

variable (hm : s.cfg.mappers = [])
include hm

/-- The byte at the `pc` is what a read there answers. -/
theorem readAnswer_of_programByte {b : Byte} (h : programByte s 0 = some b) :
    readAnswer s (fetchAddr s) (fetchFilter s.cfg.variant) = some b := by
  simp only [programByte, fetched_zero] at h
  simp only [readAnswer, answering, cellKey, mapChain_no_mappers hm]
  cases hscan : scanMem (fetchFilter s.cfg.variant) (fetchAddr s) s with
  | none => simpa only [hscan] using h
  | some found =>
    obtain ⟨dev, e⟩ := found
    simp only [hscan] at h ⊢
    cases hbody : e.body with
    | memory ro st img => simpa [hbody] using h
    | foreign => simp [hbody] at h
    | mapperWindow m => simp [hbody] at h

theorem fetchByte_of_programByte {b : Byte} (h : programByte s 0 = some b) : fetchByte s = (.ok b, fetched s 1) := by
  have hstate : translated s (fetchAddr s) = s.ticked := by
    rw [translated, mapChain_no_mappers hm]
    rfl
  rw [fetchByte, busReadMem_eq, readAnswer_of_programByte hm h, hstate, fetched_one]
  rfl

theorem fetchBytes_of_programBytes {bs : List Byte} (h : ProgramBytes s bs) :
    fetchBytes s bs.length = (.ok bs, fetched s bs.length) := by
  induction bs generalizing s with
  | nil => rw [List.length_nil, fetched_zero]; rfl
  | cons b bs ih =>
    obtain ⟨hb, hbs⟩ := programBytes_cons h
    have hrest := ih (by rw [fetched_cfg]; exact hm) hbs
    rw [fetched_fetched, Nat.add_comm] at hrest
    exact fetchBytes_cons_iff.mpr ⟨_, fetchByte_of_programByte hm hb, hrest⟩

end WithoutMappers

/-- Settles O6: the program bytes are what the fetches answer. -/
theorem stepWithoutMappers : Obligations.StepWithoutMappers :=
  fun _ _ _ hready hm hi hbs => step_of_fetchBytes hready (fetchBytes_of_programBytes hm hbs) hi

end Sys2Proof.Machine
end

section
/-! PROOF. Which instruction may change which part of the two engines, and which may halt (10_state.md R24 to R27, R34,
R35, R42, R45; 45_b_move_incdec_halt.md R261): one frame of an instruction, from one case split over the instructions. -/

namespace Sys2Proof

/-- The halt opcodes (45_b_move_incdec_halt.md R261). -/
def Instr.halts : Instr → Bool
  | .bHltLow | .bHltHigh => true
  | _ => false

theorem Instr.halts_iff (i : Instr) : i.halts = true ↔ i = .bHltLow ∨ i = .bHltHigh := by
  cases i <;> simp [Instr.halts]

end Sys2Proof

namespace Sys2Proof.Machine

/-- `d` differs from `c` only where `i` may write the engine of variant A. -/
structure WritersA (i : Instr) (c d : CpuA) : Prop where
  test : d.test = c.test
  cl : d.cl ≠ c.cl → i = .aDcl
  rc : d.rc ≠ c.rc → ∃ p, i = .aSrc p
  stk : d.stk ≠ c.stk → (∃ a, i = .aJms a) ∨ ∃ n, i = .aBbl n
  pc : i.writesPcA = false → d.pc = c.pc
  cy : i.writesCy = false → d.cy = c.cy
  acc : i.writesAcc = false → d.acc = c.acc
  x : i.writesRegA = false → d.x = c.x

namespace WritersA

variable {i : Instr}

/-- What every instruction may do that leaves `CL`, `RC` and the stack: any of the other parts that it is listed for. -/
theorem ofListed {c d : CpuA} (test : d.test = c.test) (cl : d.cl = c.cl) (rc : d.rc = c.rc) (stk : d.stk = c.stk)
    (pc : i.writesPcA = true ∨ d.pc = c.pc) (cy : i.writesCy = true ∨ d.cy = c.cy)
    (acc : i.writesAcc = true ∨ d.acc = c.acc) (x : i.writesRegA = true ∨ d.x = c.x) : WritersA i c d where
  test := test
  cl h := absurd cl h
  rc h := absurd rc h
  stk h := absurd stk h
  pc h := pc.resolve_left (by simp [h])
  cy h := cy.resolve_left (by simp [h])
  acc h := acc.resolve_left (by simp [h])
  x h := x.resolve_left (by simp [h])

variable (c : CpuA)

theorem refl : WritersA i c c := .ofListed rfl rfl rfl rfl (.inr rfl) (.inr rfl) (.inr rfl) (.inr rfl)

theorem setAcc (h : i.writesAcc = true) (v : Nibble) : WritersA i c { c with acc := v } :=
  .ofListed rfl rfl rfl rfl (.inr rfl) (.inr rfl) (.inl h) (.inr rfl)

theorem setCy (h : i.writesCy = true) (v : Bool) : WritersA i c { c with cy := v } :=
  .ofListed rfl rfl rfl rfl (.inr rfl) (.inl h) (.inr rfl) (.inr rfl)

theorem setAccCy (hacc : i.writesAcc = true) (hcy : i.writesCy = true) (p : Nibble × Bool) :
    WritersA i c (c.setAccCy p) :=
  .ofListed rfl rfl rfl rfl (.inr rfl) (.inl hcy) (.inl hacc) (.inr rfl)

theorem setX (h : i.writesRegA = true) (v : Vector Nibble 16) : WritersA i c { c with x := v } :=
  .ofListed rfl rfl rfl rfl (.inr rfl) (.inr rfl) (.inr rfl) (.inl h)

theorem setPc (h : i.writesPcA = true) (v : PcA) : WritersA i c { c with pc := v } :=
  .ofListed rfl rfl rfl rfl (.inl h) (.inr rfl) (.inr rfl) (.inr rfl)

theorem setXAcc (hx : i.writesRegA = true) (hacc : i.writesAcc = true) (v : Vector Nibble 16) (n : Nibble) :
    WritersA i c { c with x := v, acc := n } :=
  .ofListed rfl rfl rfl rfl (.inr rfl) (.inr rfl) (.inl hacc) (.inl hx)

theorem setXPc (hx : i.writesRegA = true) (hpc : i.writesPcA = true) (v : Vector Nibble 16) (p : PcA) :
    WritersA i c { c with x := v, pc := p } :=
  .ofListed rfl rfl rfl rfl (.inl hpc) (.inr rfl) (.inr rfl) (.inl hx)

/-! DCL, SRC, JMS and BBL, the only writers of `CL`, `RC` and the stack. -/

theorem dcl (v : Nibble) : WritersA .aDcl c { c with cl := v } :=
  { refl c with cl := fun _ => rfl }

theorem src (p : PairA) (v : Byte) : WritersA (.aSrc p) c { c with rc := v } :=
  { refl c with rc := fun _ => ⟨p, rfl⟩ }

theorem jms (a : PcA) (k : CallStack 12 3) (v : PcA) : WritersA (.aJms a) c { c with stk := k, pc := v } :=
  { setPc c rfl v with stk := fun _ => .inl ⟨a, rfl⟩ }

theorem bbl (n : Nibble) (k : CallStack 12 3) (v : PcA) : WritersA (.aBbl n) c { c with stk := k, pc := v, acc := n } :=
  { setPc c rfl v with stk := fun _ => .inr ⟨n, rfl⟩, acc := nofun }

end WritersA

/-- `d` differs from `c` in flags, stack and `pc` only where `i` may write those of variant B. -/
structure WritersB (i : Instr) (c d : CpuB) : Prop where
  fC : i.isAluB = false → i.isRotateB = false → d.fC = c.fC
  zsp : i.isAluB = false → i.isIncDecB = false → d.fZ = c.fZ ∧ d.fS = c.fS ∧ d.fP = c.fP
  stk : i.usesStackB = false → d.stk = c.stk
  pc : i.usesStackB = false → i.isJumpB = false → d.pc = c.pc

namespace WritersB

variable {i : Instr} (c : CpuB)

theorem refl : WritersB i c c := ⟨fun _ _ => rfl, fun _ _ => ⟨rfl, rfl, rfl⟩, fun _ => rfl, fun _ _ => rfl⟩

theorem setReg (r : RegB) (v : Byte) : WritersB i c (c.setReg r v) :=
  ⟨fun _ _ => rfl, fun _ _ => ⟨rfl, rfl, rfl⟩, fun _ => rfl, fun _ _ => rfl⟩

theorem alu (h : i.isAluB = true) (op : AluOp) (v : Byte) : WritersB i c (c.alu op v) :=
  ⟨by simp [h], by simp [h], fun _ => c.alu_stk op v, fun _ _ => c.alu_pc op v⟩

theorem setRotate (h : i.isRotateB = true) (p : Byte × Bool) : WritersB i c (c.setRotate p) :=
  { refl c with fC := by simp [h] }

theorem setIncDec (h : i.isIncDecB = true) (d : RegB) (r : Byte) : WritersB i c (c.setIncDec d r) :=
  { refl c with zsp := by simp [h] }

theorem jump (h : i.isJumpB = true) (v : PcB) : WritersB i c { c with pc := v } :=
  { refl c with pc := by simp [h] }

theorem stack (h : i.usesStackB = true) (k : CallStack 14 8) (v : PcB) : WritersB i c { c with stk := k, pc := v } :=
  { refl c with stk := by simp [h], pc := by simp [h] }

end WritersB

/-- What the instruction `i` may do outside memory: write its own parts of the engines, and halt if it is HLT. -/
structure InstrFrame (i : Instr) (s t : State) : Prop where
  halted : t.halted = (s.halted || i.halts)
  cancel : t.cancel = s.cancel
  cfg : t.cfg = s.cfg
  hostQueue : t.hostQueue = s.hostQueue
  a : WritersA i s.a t.a
  b : WritersB i s.b t.b

/-- `t` has the engines, `halted`, the cancellation flag, the configuration and the queue of `s`. -/
structure CpuKept (s t : State) : Prop where
  halted : t.halted = s.halted
  cancel : t.cancel = s.cancel
  cfg : t.cfg = s.cfg
  hostQueue : t.hostQueue = s.hostQueue
  a : t.a = s.a
  b : t.b = s.b

namespace CpuKept

variable {s t : State}

theorem refl (s : State) : CpuKept s s := ⟨rfl, rfl, rfl, rfl, rfl, rfl⟩

theorem raise (h : CpuKept s t) (e : TypedError) : CpuKept s (t.raise e) :=
  ⟨h.halted, h.cancel, h.cfg, h.hostQueue, h.a, h.b⟩

/-! No Bus access touches what belongs to the CPU. -/

theorem ofReadFrame (h : ReadFrame s t) : CpuKept s t := by
  unfold ReadFrame at h
  rw [h]
  exact ⟨rfl, rfl, rfl, rfl, rfl, rfl⟩

theorem busReadMem (a : Addr) (f : Option DevKind) (s : State) : CpuKept s (busReadMem a f s).2 :=
  ofReadFrame (busReadMem_frame a f s)

theorem busReadStatus (a : Addr) (i : Nat) (f : Option DevKind) (s : State) : CpuKept s (busReadStatus a i f s).2 :=
  ofReadFrame (busReadStatus_frame a i f s)

theorem busReadPort (p : Addr) (s : State) : CpuKept s (busReadPort p s).2 := ofReadFrame (busReadPort_frame p s)

theorem busWriteMem (a : Addr) (v : Byte) (f : Option DevKind) (s : State) : CpuKept s (busWriteMem a v f s).2 := by
  rcases busWriteMem_state a v f s with h | ⟨_, _, _, _, -, -, -, h⟩ | ⟨_, _, _, -, -, -, h⟩ <;> rw [h] <;>
    exact ⟨rfl, rfl, rfl, rfl, rfl, rfl⟩

theorem busWriteStatus (a : Addr) (i : Nat) (v : Byte) (f : Option DevKind) (s : State) :
    CpuKept s (busWriteStatus a i v f s).2 := by
  rcases busWriteStatus_state a i v f s with h | ⟨_, _, _, -, -, -, h⟩ <;> rw [h] <;>
    exact ⟨rfl, rfl, rfl, rfl, rfl, rfl⟩

theorem busWritePort (p : Addr) (v : Byte) (s : State) : CpuKept s (busWritePort p v s).2 := by
  rcases busWritePort_state p v s with h | ⟨_, _, -, -, -, h⟩ <;> rw [h] <;>
    exact ⟨rfl, rfl, rfl, rfl, rfl, rfl⟩

end CpuKept

namespace InstrFrame

variable {i : Instr} {s t u : State}

theorem ofKept (hi : i.halts = false) (h : CpuKept s t) : InstrFrame i s t where
  halted := by rw [h.halted, hi, Bool.or_false]
  cancel := h.cancel
  cfg := h.cfg
  hostQueue := h.hostQueue
  a := by rw [h.a]; exact .refl _
  b := by rw [h.b]; exact .refl _

/-- An instruction that first makes an access of the Bus. -/
theorem afterKept (h : CpuKept s t) (g : InstrFrame i t u) : InstrFrame i s u where
  halted := by rw [g.halted, h.halted]
  cancel := g.cancel.trans h.cancel
  cfg := g.cfg.trans h.cfg
  hostQueue := g.hostQueue.trans h.hostQueue
  a := h.a ▸ g.a
  b := h.b ▸ g.b

theorem setA {c : CpuA} (hi : i.halts = false) (h : WritersA i s.a c) : InstrFrame i s (s.setA c) :=
  { ofKept hi (.refl s) with a := h }

theorem setB {c : CpuB} (hi : i.halts = false) (h : WritersB i s.b c) : InstrFrame i s (s.setB c) :=
  { ofKept hi (.refl s) with b := h }

theorem halt (hi : i.halts = true) : InstrFrame i s s.halt where
  halted := by rw [hi, Bool.or_true, State.halt_halted]
  cancel := rfl
  cfg := rfl
  hostQueue := rfl
  a := .refl _
  b := .refl _

theorem ite {c : Prop} [Decidable c] (ht : InstrFrame i s t) (hu : InstrFrame i s u) :
    InstrFrame i s (if c then t else u) := by
  split
  · exact ht
  · exact hu

theorem returnA (s : State) (n : Nibble) : InstrFrame (.aBbl n) s (s.returnA n) := by
  rcases s.returnA_cases n with ⟨-, h⟩ | ⟨p, k, -, h⟩ <;> rw [h]
  · exact ofKept rfl ((CpuKept.refl s).raise _)
  · exact setA rfl (.bbl _ n k p)

theorem returnB (hi : i.halts = false) (h : i.usesStackB = true) (s : State) : InstrFrame i s s.returnB := by
  rcases s.returnB_cases with ⟨-, g⟩ | ⟨p, k, -, g⟩ <;> rw [g]
  · exact ofKept hi ((CpuKept.refl s).raise _)
  · exact setB hi (.stack _ h k p)

end InstrFrame

/-- Wherever the result is a next state, it is in the frame of the instruction. -/
def ResultFrame (i : Instr) (s : State) (r : Result) : Prop := ∀ t, r = .next t → InstrFrame i s t

namespace ResultFrame

variable {i : Instr} {s t : State} {r q : Result}

theorem next (h : InstrFrame i s t) : ResultFrame i s (.next t) := by
  rintro _ ⟨⟩
  exact h

theorem keep (hi : i.halts = false) : ResultFrame i s (.next s) := next (.ofKept hi (.refl s))

theorem raise (hi : i.halts = false) (e : TypedError) : ResultFrame i s (.next (s.raise e)) :=
  next (.ofKept hi ((CpuKept.refl s).raise e))

theorem setA {c : CpuA} (hi : i.halts = false) (h : WritersA i s.a c) : ResultFrame i s (.next (s.setA c)) :=
  next (.setA hi h)

theorem setB {c : CpuB} (hi : i.halts = false) (h : WritersB i s.b c) : ResultFrame i s (.next (s.setB c)) :=
  next (.setB hi h)

theorem ite {c : Prop} [Decidable c] (hr : ResultFrame i s r) (hq : ResultFrame i s q) :
    ResultFrame i s (if c then r else q) := by
  split
  · exact hr
  · exact hq

theorem admitted {j : Instr} (hi : i.halts = false) (h : ResultFrame i s r) : ResultFrame i s (admitted j s r) := by
  rcases admitted_cases j s r with ⟨-, g⟩ | ⟨-, g⟩ <;> rw [g]
  · exact h
  · exact raise hi _

theorem onRead {a : Answer Byte × State} {k : Byte → State → State} (hi : i.halts = false) (ha : CpuKept s a.2)
    (hk : ∀ x u, InstrFrame i u (k x u)) : ResultFrame i s (onRead a k) := by
  rcases onRead_next a k with ⟨x, -, g⟩ | ⟨e, -, g⟩ <;> rw [g]
  · exact next (.afterKept ha (hk x a.2))
  · exact next (.ofKept hi (ha.raise e))

theorem onWrite {a : Answer Unit × State} (hi : i.halts = false) (ha : CpuKept s a.2) :
    ResultFrame i s (onWrite a) := by
  rcases onWrite_next a with g | ⟨e, -, -, g⟩ <;> rw [g]
  · exact next (.ofKept hi ha)
  · exact next (.ofKept hi (ha.raise e))

end ResultFrame

/-- Every instruction is in its frame. -/
theorem exec_frame (i : Instr) (s : State) : ResultFrame i s (exec i s) := by
  cases i with
  | aNop => exact .admitted rfl (.keep rfl)
  | aLdm | aLd => exact .admitted rfl (.setA rfl (.setAcc _ rfl _))
  | aCma | aKbp => exact .setA rfl (.setAcc _ rfl _)
  | aAdd | aSub | aIac | aRal | aRar | aDac => exact .setA rfl (.setAccCy _ rfl rfl _)
  | aClb | aTcc | aTcs => exact .admitted rfl (.setA rfl (.setAccCy _ rfl rfl _))
  | aDaa => exact .ite (.setA rfl (.setAccCy _ rfl rfl _)) (.keep rfl)
  | aClc | aCmc | aStc => exact .admitted rfl (.setA rfl (.setCy _ rfl _))
  | aXch => exact .admitted rfl (.setA rfl (.setXAcc _ rfl rfl _ _))
  | aInc => exact .admitted rfl (.setA rfl (.setX _ rfl _))
  | aFim => exact .setA rfl (.setX _ rfl _)
  | aJcn => exact .ite (.setA rfl (.setPc _ rfl _)) (.keep rfl)
  | aJun => exact .setA rfl (.setPc _ rfl _)
  | aJin => exact .admitted rfl (.setA rfl (.setPc _ rfl _))
  | aIsz => exact .ite (.setA rfl (.setXPc _ rfl rfl _ _)) (.setA rfl (.setX _ rfl _))
  | aJms a12 => exact .setA rfl (.jms _ a12 _ _)
  | aBbl n => exact .next (.returnA s n)
  | aSrc p => exact .setA rfl (.src _ p _)
  | aDcl => exact .setA rfl (.dcl _ _)
  | aFin => exact .admitted rfl (.onRead rfl (.busReadMem _ _ _) fun _ _ => .setA rfl (.setX _ rfl _))
  | aRdr => exact .admitted rfl (.onRead rfl (.busReadPort _ _) fun _ _ => .setA rfl (.setAcc _ rfl _))
  | aRdm => exact .onRead rfl (.busReadMem _ _ _) fun _ _ => .setA rfl (.setAcc _ rfl _)
  | aAdm | aSbm => exact .onRead rfl (.busReadMem _ _ _) fun _ _ => .setA rfl (.setAccCy _ rfl rfl _)
  | aRd0 | aRd1 | aRd2 | aRd3 => exact .onRead rfl (.busReadStatus _ _ _ _) fun _ _ => .setA rfl (.setAcc _ rfl _)
  | aWrm | bLMr | bLMI => exact .onWrite rfl (.busWriteMem _ _ _ _)
  | aWr0 | aWr1 | aWr2 | aWr3 => exact .onWrite rfl (.busWriteStatus _ _ _ _ _)
  | aWmp | aWrr => exact .admitted rfl (.onWrite rfl (.busWritePort _ _ _))
  | bOUT => exact .onWrite rfl (.busWritePort _ _ _)
  | aWpm | aIllegalLow | aIllegalHigh | bIllegalIncDec | bIllegalRotate => exact .raise rfl _
  | bHltLow | bHltHigh => exact .next (.halt rfl)
  | bLr1r2 | bLrI => exact .setB rfl (.setReg _ _ _)
  | bLrM => exact .onRead rfl (.busReadMem _ _ _) fun _ _ => .setB rfl (.setReg _ _ _)
  | bINP => exact .onRead rfl (.busReadPort _ _) fun _ _ => .setB rfl (.setReg _ _ _)
  | bINr | bDCr => exact .setB rfl (.setIncDec _ rfl _ _)
  | bADr | bACr | bSUr | bSBr | bNDr | bXRr | bORr | bCPr | bADI | bACI | bSUI | bSBI | bNDI | bXRI | bORI | bCPI =>
    exact .setB rfl (.alu _ rfl _ _)
  | bADM | bACM | bSUM | bSBM | bNDM | bXRM | bORM | bCPM =>
    exact .onRead rfl (.busReadMem _ _ _) fun _ _ => .setB rfl (.alu _ rfl _ _)
  | bRLC | bRRC | bRAL | bRAR => exact .setB rfl (.setRotate _ rfl _)
  | bJMP => exact .setB rfl (.jump _ rfl _)
  | bJFc => exact .next (.ite (.ofKept rfl (.refl s)) (.setB rfl (.jump _ rfl _)))
  | bJTc => exact .next (.ite (.setB rfl (.jump _ rfl _)) (.ofKept rfl (.refl s)))
  | bCAL | bRST => exact .setB rfl (.stack _ rfl _ _)
  | bCFc => exact .next (.ite (.ofKept rfl (.refl s)) (.setB rfl (.stack _ rfl _ _)))
  | bCTc => exact .next (.ite (.setB rfl (.stack _ rfl _ _)) (.ofKept rfl (.refl s)))
  | bRET => exact .next (.returnB rfl rfl s)
  | bRFc => exact .next (.ite (.ofKept rfl (.refl s)) (.returnB rfl rfl s))
  | bRTc => exact .next (.ite (.returnB rfl rfl s) (.ofKept rfl (.refl s)))

/-- Settles O17: `halted`, the cancellation flag, the configuration and the queue in the frame of an instruction. -/
theorem onlyHaltHalts : Obligations.OnlyHaltHalts := by
  intro i s t h
  have hframe := exec_frame i s t h
  refine ⟨?_, hframe.cancel, hframe.cfg, hframe.hostQueue⟩
  rw [hframe.halted, Bool.or_eq_true, Instr.halts_iff]

/-- Settles O19: the engine of variant A in the frame of an instruction. -/
theorem variantAWriters : Obligations.VariantAWriters := by
  intro i s t h
  obtain ⟨test, cl, rc, stk, pc, cy, acc, x⟩ := (exec_frame i s t h).a
  exact ⟨test, cl, rc, stk, pc, cy, acc, x⟩

/-- Settles O20: the engine of variant B in the frame of an instruction. -/
theorem variantBWriters : Obligations.VariantBWriters := by
  intro i s t h
  obtain ⟨fC, zsp, stk, pc⟩ := (exec_frame i s t h).b
  exact ⟨fC, zsp, stk, pc⟩

end Sys2Proof.Machine
end

section
/-! PROOF. Which cells of the memory behind the Bus a step may change: contents cells of writable MemoryDevices only, in
variant A of RAM-kind ones only (20_memory.md R75, R82, R114, R123), and which instructions may change contents, status,
page registers and latches (20_memory.md R70, R76, R84, R105). -/

namespace Sys2Proof.Machine

/-- A store of the running program can reach the contents cell at this key: the cell of a writable MemoryDevice, which
in variant A is RAM-kind. -/
def StorableCell (c : MachineConfig) (key : Nat) : Prop :=
  ∃ e st img, c.memList[key / 65536]? = some e ∧ e.body = .memory false st img ∧ (c.variant = .A → e.kind = .ram)

/-- The contents `m'` are `m`, or `m` after a write of one storable cell. -/
def StoresOneCell (c : MachineConfig) (m m' : Memory) : Prop :=
  m' = m ∨ ∃ key v, StorableCell c key ∧ m' = m.write key v

theorem StorableCell.not_readOnlyCell {c : MachineConfig} {key : Nat} (h : StorableCell c key) :
    readOnlyCell c key = false := by
  obtain ⟨⟨kind, gate, body⟩, st, img, he, hbody, -⟩ := h
  obtain rfl : body = .memory false st img := hbody
  simp only [readOnlyCell, he]

theorem StorableCell.not_romCell {c : MachineConfig} {key : Nat} (h : StorableCell c key) (hv : c.variant = .A) :
    romCell c key = false := by
  obtain ⟨e, st, img, he, -, hkind⟩ := h
  simp [romCell, he, hkind hv]

/-- A cell that no store can reach keeps its byte. -/
theorem StoresOneCell.read_eq {c : MachineConfig} {m m' : Memory} (h : StoresOneCell c m m') (hm : m.wf = true)
    {key : Nat} (hkey : ¬StorableCell c key) : m'.read key = m.read key := by
  rcases h with rfl | ⟨k, v, hk, rfl⟩
  · rfl
  · rw [Memory.read_write hm, if_neg]
    rintro rfl
    exact hkey hk

/-! The contents under each shared operation. -/

/-- The number of a device is read back from the key of each of its cells. -/
theorem contentKey_div {dev off : Nat} (h : off < 65536) : contentKey dev off / 65536 = dev := by
  unfold contentKey
  omega

/-- A store writes one cell of the MemoryDevice that the scan finds, which its filter shows. -/
theorem busWriteMem_storesOneCell (a : Addr) (v : Byte) {f : Option DevKind} {s : State}
    (hf : s.cfg.variant = .A → f = some .ram) : StoresOneCell s.cfg s.mem (busWriteMem a v f s).2.mem := by
  rcases busWriteMem_state a v f s with h | ⟨dev, e, st, img, -, hscan, hbody, h⟩ | ⟨_, _, _, -, -, -, h⟩ <;> rw [h]
  · exact .inl rfl
  · obtain ⟨hentry, hvisible, -⟩ := scanMem_found hscan
    rw [mapChain_state] at hentry
    refine .inr ⟨_, v, ⟨e, st, img, ?_, hbody, fun hv => ?_⟩, rfl⟩
    · rwa [contentKey_div (offsetIn_lt _ _)]
    · simpa [hf hv, kindVisible] using hvisible
  · exact .inl rfl

theorem busWriteMem_stat (a : Addr) (v : Byte) (f : Option DevKind) (s : State) :
    (busWriteMem a v f s).2.stat = s.stat := by
  rcases busWriteMem_state a v f s with h | ⟨_, _, _, _, -, -, -, h⟩ | ⟨_, _, _, -, -, -, h⟩ <;> rw [h]
  rfl

theorem busWriteStatus_mem_pages (a : Addr) (i : Nat) (v : Byte) (f : Option DevKind) (s : State) :
    (busWriteStatus a i v f s).2.mem = s.mem ∧ (busWriteStatus a i v f s).2.pages = s.pages := by
  rcases busWriteStatus_state a i v f s with h | ⟨_, _, _, -, -, -, h⟩ <;> rw [h] <;> exact ⟨rfl, rfl⟩

theorem busWritePort_mem_stat (p : Addr) (v : Byte) (s : State) :
    (busWritePort p v s).2.mem = s.mem ∧ (busWritePort p v s).2.stat = s.stat := by
  rcases busWritePort_state p v s with h | ⟨_, _, -, -, -, h⟩ <;> rw [h] <;> exact ⟨rfl, rfl⟩

/-- An instruction of the running variant stores into at most one cell, a storable one. -/
theorem exec_storesOneCell {i : Instr} {s t : State} (hv : i.variant = s.cfg.variant) (h : exec i s = .next t) :
    StoresOneCell s.cfg s.mem t.mem := by
  rcases exec_effect h with hlocal | ⟨-, hraise⟩ | ⟨a, v, f, -, hf, hw⟩ | ⟨a, j, v, f, -, hw⟩ | ⟨p, v, -, hw⟩
  · unfold LocalEffect at hlocal
    rw [hlocal]
    exact .inl rfl
  · rw [hraise]
    exact .inl rfl
  · have hmem : t.mem = _ := congrArg Storage.mem (onWrite_storage hw)
    rw [hmem]
    exact busWriteMem_storesOneCell a v (hv ▸ hf)
  · have hmem : t.mem = _ := congrArg Storage.mem (onWrite_storage hw)
    exact .inl (hmem.trans (busWriteStatus_mem_pages a j v f s).1)
  · have hmem : t.mem = _ := congrArg Storage.mem (onWrite_storage hw)
    exact .inl (hmem.trans (busWritePort_mem_stat p v s).1)

theorem runTurn_storesOneCell {s t : State} (h : runTurn s = .next t) : StoresOneCell s.cfg s.mem t.mem := by
  obtain ⟨hkeep, hvariant⟩ := fetchInstr_keeps s
  have hmem : (fetchInstr s).2.mem = s.mem := congrArg Storage.mem (fetchInstr_storage s)
  rcases runTurn_cases s with ⟨-, g⟩ | ⟨f, -, g⟩ | ⟨e, u, hu, g⟩ | ⟨i, u, hu, g⟩ <;> rw [g] at h
  · cases h
  · cases h
  · rw [hu] at hmem
    cases h
    exact .inl hmem
  · rw [hu] at hkeep hvariant hmem
    have hexec := exec_storesOneCell ((hvariant i rfl).trans (congrArg MachineConfig.variant hkeep.cfg).symm) h
    rwa [hkeep.cfg, hmem] at hexec

/-- A step that takes no reset event stores into at most one cell, a storable one. -/
theorem step_storesOneCell {s t : State} (hreset : s.hostQueue.head? ≠ some .reset) (h : step s = .next t) :
    StoresOneCell s.cfg s.mem t.mem := by
  cases hq : s.hostQueue with
  | nil =>
    rw [step_idle hq] at h
    exact runTurn_storesOneCell h
  | cons e q =>
    cases e with
    | go =>
      rw [step_go hq] at h
      have hturn := runTurn_storesOneCell h
      exact hturn
    | setTest | setCancel =>
      rw [step_event hq nofun] at h
      cases h
      exact .inl rfl
    | reset => exact absurd (by rw [hq]; rfl) hreset

/-- Settles O14: no storable cell belongs to a read-only MemoryDevice. -/
theorem readOnlyDevicesKeepTheirContents : Obligations.ReadOnlyDevicesKeepTheirContents := by
  intro s t hs hreset h key hkey
  refine (step_storesOneCell hreset h).read_eq hs.1 fun hstorable => ?_
  rw [hstorable.not_readOnlyCell] at hkey
  cases hkey

/-- Settles O15: in variant A no storable cell belongs to a ROM-kind entry. -/
theorem variantACannotWriteRom : Obligations.VariantACannotWriteRom := by
  intro s t hv hs hreset h key hkey
  refine (step_storesOneCell hreset h).read_eq hs.1 fun hstorable => ?_
  rw [hstorable.not_romCell hv] at hkey
  cases hkey

/-! Contents, status, page registers and latches by instruction. -/

/-- Contents, status memory and page registers change only under an instruction that writes memory, status or a port. -/
theorem exec_storage_writers {i : Instr} {s t : State} (h : exec i s = .next t) :
    (i.writesContents = false → t.mem = s.mem) ∧ (i.writesStatus = false → t.stat = s.stat) ∧
      (i.writesContents = false → i.writesPort = false → t.pages = s.pages) := by
  rcases exec_effect h with hlocal | ⟨-, hraise⟩ | ⟨a, v, f, hi, -, hw⟩ | ⟨a, j, v, f, hi, hw⟩ | ⟨p, v, hi, hw⟩
  · unfold LocalEffect at hlocal
    rw [hlocal]
    exact ⟨fun _ => rfl, fun _ => rfl, fun _ _ => rfl⟩
  · rw [hraise]
    exact ⟨fun _ => rfl, fun _ => rfl, fun _ _ => rfl⟩
  · have hstat : t.stat = _ := congrArg Storage.stat (onWrite_storage hw)
    exact ⟨by simp [hi], fun _ => hstat.trans (busWriteMem_stat a v f s), by simp [hi]⟩
  · have hmem : t.mem = _ := congrArg Storage.mem (onWrite_storage hw)
    have hpages : t.pages = _ := congrArg Storage.pages (onWrite_storage hw)
    obtain ⟨hmem', hpages'⟩ := busWriteStatus_mem_pages a j v f s
    exact ⟨fun _ => hmem.trans hmem', by simp [hi], fun _ _ => hpages.trans hpages'⟩
  · have hmem : t.mem = _ := congrArg Storage.mem (onWrite_storage hw)
    have hstat : t.stat = _ := congrArg Storage.stat (onWrite_storage hw)
    obtain ⟨hmem', hstat'⟩ := busWritePort_mem_stat p v s
    exact ⟨fun _ => hmem.trans hmem', fun _ => hstat.trans hstat', by simp [hi]⟩

/-- Wherever the result is a next state, it has the latches of `s`. -/
def KeepsLatches (s : State) (r : Result) : Prop := ∀ t, r = .next t → t.latch = s.latch

namespace KeepsLatches

variable {s t : State} {r q : Result}

theorem next (h : t.latch = s.latch) : KeepsLatches s (.next t) := by
  rintro _ ⟨⟩
  exact h

theorem ite {c : Prop} [Decidable c] (hr : KeepsLatches s r) (hq : KeepsLatches s q) :
    KeepsLatches s (if c then r else q) := by
  split
  · exact hr
  · exact hq

theorem admitted {i : Instr} (h : KeepsLatches s r) : KeepsLatches s (admitted i s r) := ite h (next rfl)

theorem onRead {a : Answer Byte × State} {k : Byte → State → State} (ha : a.2.latch = s.latch)
    (hk : ∀ x u, (k x u).latch = u.latch) : KeepsLatches s (onRead a k) := by
  rcases onRead_next a k with ⟨x, -, g⟩ | ⟨e, -, g⟩ <;> rw [g]
  · exact next ((hk x a.2).trans ha)
  · exact next ha

theorem onWrite {a : Answer Unit × State} (ha : a.2.latch = s.latch) : KeepsLatches s (onWrite a) := by
  rcases onWrite_next a with g | ⟨e, -, -, g⟩ <;> rw [g] <;> exact next ha

end KeepsLatches

theorem State.returnA_latch (s : State) (d : Nibble) : (s.returnA d).latch = s.latch := by
  rcases s.returnA_cases d with ⟨-, h⟩ | ⟨_, _, -, h⟩ <;> rw [h] <;> rfl

theorem State.returnB_latch (s : State) : s.returnB.latch = s.latch := by
  rcases s.returnB_cases with ⟨-, h⟩ | ⟨_, _, -, h⟩ <;> rw [h] <;> rfl

/-! A port access drives no latch (20_memory.md R76). -/

theorem busReadPort_latch (p : Addr) (s : State) : (busReadPort p s).2.latch = s.latch := by
  rw [busReadPort_state]

theorem busWritePort_latch (p : Addr) (v : Byte) (s : State) : (busWritePort p v s).2.latch = s.latch := by
  rcases busWritePort_state p v s with h | ⟨_, _, -, -, -, h⟩ <;> rw [h]
  rfl

/-- An instruction without a memory or status access of its own drives no latch (20_memory.md R105): it updates the
engines, raises, halts, or makes a port access. -/
theorem exec_latch {i : Instr} (hi : i.accessesMemory = false) (s : State) : KeepsLatches s (exec i s) := by
  cases i with
  | aFin | aRdm | aAdm | aSbm | aRd0 | aRd1 | aRd2 | aRd3 | aWrm | aWr0 | aWr1 | aWr2 | aWr3 | bLrM | bLMr | bLMI
  | bADM | bACM | bSUM | bSBM | bNDM | bXRM | bORM | bCPM => cases hi
  | aNop | aLdm | aLd | aXch | aInc | aClb | aClc | aCmc | aTcc | aTcs | aStc | aJin => exact .admitted (.next rfl)
  | aAdd | aSub | aIac | aCma | aRal | aRar | aDac | aKbp | aDcl | aFim | aSrc | aJun | aJms => exact .next rfl
  | aJcn | aIsz | aDaa => exact .ite (.next rfl) (.next rfl)
  | aBbl d => exact .next (s.returnA_latch d)
  | aRdr => exact .admitted (.onRead (busReadPort_latch _ s) fun _ _ => rfl)
  | aWmp | aWrr => exact .admitted (.onWrite (busWritePort_latch _ _ s))
  | aWpm | aIllegalLow | aIllegalHigh | bIllegalIncDec | bIllegalRotate => exact .next rfl
  | bHltLow | bHltHigh => exact .next rfl
  | bLr1r2 | bLrI | bINr | bDCr | bADr | bACr | bSUr | bSBr | bNDr | bXRr | bORr | bCPr | bADI | bACI | bSUI | bSBI
  | bNDI | bXRI | bORI | bCPI | bRLC | bRRC | bRAL | bRAR | bJMP | bCAL | bRST => exact .next rfl
  | bJFc | bJTc | bCFc | bCTc => exact .next ((apply_ite State.latch ..).trans (ite_self _))
  | bRET => exact .next s.returnB_latch
  | bRFc | bRTc => exact .next ((apply_ite State.latch ..).trans (by rw [s.returnB_latch, ite_self]))
  | bINP => exact .onRead (k := fun v u => u.setB (u.b.setReg .A v)) (busReadPort_latch _ s) fun _ _ => rfl
  | bOUT => exact .onWrite (busWritePort_latch _ _ s)

/-- Settles O21: the storage by kind of effect, the latches by instruction. -/
theorem memoryWriters : Obligations.MemoryWriters := by
  intro i s t h
  obtain ⟨hmem, hstat, hpages⟩ := exec_storage_writers h
  exact ⟨hmem, hstat, hpages, fun hi => exec_latch hi s t h⟩

end Sys2Proof.Machine
end

section
/-! PROOF. The operations of a MemoryDevice, and what the Bus makes of them where a device answers and where none does
(20_memory.md R78, R81 to R84, R88, R100, R101). -/

namespace Sys2Proof.Machine

/-! The four operations of a MemoryDevice, one equation for each outcome. -/

section Device

variable {dev : Nat} {g : Gate} {a : Addr} {s : State}

theorem devRead_of_hasAddress (h : hasAddress g a s = true) :
    devRead dev g a s = .ok (s.mem.read (contentKey dev (offsetIn g a))) := by
  simp [devRead, h]

theorem devRead_of_not_hasAddress (h : hasAddress g a s = false) : devRead dev g a s = .error .invalidAddress := by
  simp [devRead, h]

theorem devWrite_of_not_hasAddress (ro : Bool) (v : Byte) (h : hasAddress g a s = false) :
    devWrite dev g ro a v s = .error .invalidAddress := by
  simp [devWrite, h]

theorem devWrite_of_hasAddress (ro : Bool) (v : Byte) (h : hasAddress g a s = true) :
    devWrite dev g ro a v s =
      if ro then .error .readOnly else .ok { s with mem := s.mem.write (contentKey dev (offsetIn g a)) v } := by
  simp [devWrite, h]

theorem devReadStatus_without_status (i : Nat) : devReadStatus dev g false a i s = .error .notImplemented := rfl

theorem devReadStatus_of_outside {i : Nat} (h : hasAddress g a s = false ∨ 3 < i) :
    devReadStatus dev g true a i s = .error .invalidAddress := by
  simp [devReadStatus, h]

theorem devReadStatus_of_inside {i : Nat} (h : hasAddress g a s = true) (hi : i ≤ 3) :
    devReadStatus dev g true a i s = .ok (s.stat.read (statusKey dev (offsetIn g a) i)) := by
  simp [devReadStatus, h, Nat.not_lt.mpr hi]

theorem devWriteStatus_without_status (ro : Bool) (i : Nat) (v : Byte) :
    devWriteStatus dev g ro false a i v s = .error .notImplemented := rfl

theorem devWriteStatus_of_outside (ro : Bool) {i : Nat} (v : Byte) (h : hasAddress g a s = false ∨ 3 < i) :
    devWriteStatus dev g ro true a i v s = .error .invalidAddress := by
  simp [devWriteStatus, h]

theorem devWriteStatus_of_inside (ro : Bool) {i : Nat} (v : Byte) (h : hasAddress g a s = true) (hi : i ≤ 3) :
    devWriteStatus dev g ro true a i v s =
      if ro then .error .readOnly
      else .ok { s with stat := s.stat.write (statusKey dev (offsetIn g a) i) v } := by
  simp [devWriteStatus, h, Nat.not_lt.mpr hi]

end Device

/-- Settles O27: an address outside, a device without status, and an address inside, in this order. -/
theorem memoryDeviceOperations : Obligations.MemoryDeviceOperations := by
  intro dev g a s hs
  refine ⟨fun h => ⟨devRead_of_not_hasAddress h, fun ro v => devWrite_of_not_hasAddress ro v h, fun i =>
      ⟨devReadStatus_of_outside (.inl h), fun ro v => devWriteStatus_of_outside ro v (.inl h)⟩⟩,
    fun i => ⟨devReadStatus_without_status i, fun ro v => devWriteStatus_without_status ro i v⟩,
    fun h => ⟨devRead_of_hasAddress h, (devWrite_of_hasAddress true · h), fun v => ?write, fun i hi =>
      ⟨devReadStatus_of_outside (.inr hi), fun ro v => devWriteStatus_of_outside ro v (.inr hi)⟩, fun i hi =>
      ⟨devReadStatus_of_inside h hi, (devWriteStatus_of_inside true · h hi), fun v => ?writeStatus⟩⟩⟩
  case write =>
    refine ⟨_, devWrite_of_hasAddress false v h, rfl, ?_, fun k hk => ?_⟩
    · exact (Memory.read_write hs.1 _ _ v).trans (if_pos rfl)
    · exact (Memory.read_write hs.1 _ _ v).trans (if_neg hk)
  case writeStatus =>
    refine ⟨_, devWriteStatus_of_inside false v h hi, rfl, ?_, fun k hk => ?_⟩
    · exact (Memory.read_write hs.2 _ _ v).trans (if_pos rfl)
    · exact (Memory.read_write hs.2 _ _ v).trans (if_neg hk)

/-! The Bus accesses, by what answers. -/

section Answering

variable {a : Addr} {f : Option DevKind} {s : State} {dev : Nat} {e : MemEntry}

theorem busWriteMem_of_none (h : answering s a f = none) (v : Byte) :
    busWriteMem a v f s = (.ok (), translated s a) := by
  unfold answering at h
  simp only [busWriteMem, h, mapChain_ticked]

theorem busReadStatus_of_none (h : answering s a f = none) (i : Nat) :
    busReadStatus a i f s = (.ok 0, translated s a) := by
  unfold answering at h
  simp only [busReadStatus, h, mapChain_ticked]

theorem busWriteStatus_of_none (h : answering s a f = none) (i : Nat) (v : Byte) :
    busWriteStatus a i v f s = (.ok (), translated s a) := by
  unfold answering at h
  simp only [busWriteStatus, h, mapChain_ticked]

theorem busReadMem_of_none (h : answering s a f = none) : busReadMem a f s = (.ok 0, translated s a) := by
  rw [busReadMem_eq, readAnswer, h]
  rfl

theorem busReadMem_of_some (h : answering s a f = some (dev, e)) :
    (busReadMem a f s).1 = entryRead e dev (mapChain a s).1 (mapChain a s).2 := by
  unfold answering at h
  simp only [busReadMem, h]

theorem busWriteMem_of_some (h : answering s a f = some (dev, e)) (v : Byte) :
    busWriteMem a v f s = finishWrite (mapChain a s).2 (entryWrite e dev (mapChain a s).1 v (mapChain a s).2) := by
  unfold answering at h
  simp only [busWriteMem, h]

theorem busReadStatus_of_some (h : answering s a f = some (dev, e)) (i : Nat) :
    (busReadStatus a i f s).1 = entryReadStatus e dev (mapChain a s).1 i (mapChain a s).2 := by
  unfold answering at h
  simp only [busReadStatus, h]

theorem busWriteStatus_of_some (h : answering s a f = some (dev, e)) (i : Nat) (v : Byte) :
    busWriteStatus a i v f s =
      finishWrite (mapChain a s).2 (entryWriteStatus e dev (mapChain a s).1 i v (mapChain a s).2) := by
  unfold answering at h
  simp only [busWriteStatus, h]

/-- The window of the entry that answers has the translated address, with the latches as the translation left them. -/
theorem hasAddress_of_answering (h : answering s a f = some (dev, e)) :
    hasAddress e.gate (mapChain a s).1 (mapChain a s).2 = true := (scanMem_found h).2.2

end Answering

/-- Settles O25: memory and status accesses, port accesses, and a fetch, where nothing answers. -/
theorem openBus : Obligations.OpenBus := by
  refine ⟨fun a f s h => ?memory, fun p s h => ?port, fun s h => ?fetch⟩
  case memory =>
    exact ⟨busReadMem_of_none h, busWriteMem_of_none h, busReadStatus_of_none h, busWriteStatus_of_none h⟩
  case port =>
    refine ⟨?_, fun v => ?_⟩
    · rw [busReadPort_eq, portAnswer, h]
      rfl
    · rw [busWritePort, h]
      rfl
  case fetch => rw [fetchByte, busReadMem_of_none h]

/-- A write that an entry refuses reports the entry's error. -/
theorem finishWrite_error (s : State) (e : TypedError) : (finishWrite s (.error e)).1 = .error e := rfl

/-- Settles O26: the device that answers has the address, so `InvalidAddress` is left to a status index. -/
theorem noInvalidAddressThroughTheBus : Obligations.NoInvalidAddressThroughTheBus := by
  intro a f s dev e ro st img h hbody
  have haddr := hasAddress_of_answering h
  have hread (i : Nat) : (busReadStatus a i f s).1 = devReadStatus dev e.gate st (mapChain a s).1 i (mapChain a s).2 := by
    rw [busReadStatus_of_some h]
    simp only [entryReadStatus, hbody]
  have hwrite (i : Nat) (v : Byte) : (busWriteStatus a i v f s).1 =
      (finishWrite (mapChain a s).2 (devWriteStatus dev e.gate ro st (mapChain a s).1 i v (mapChain a s).2)).1 := by
    rw [busWriteStatus_of_some h]
    simp only [entryWriteStatus, hbody]
  refine ⟨?readMem, fun v => ?writeMem, fun i => ⟨?_, ?_, ?_⟩, fun i v => ⟨?_, ?_, ?_⟩⟩
  case readMem =>
    rw [busReadMem_of_some h]
    simp only [entryRead, hbody]
    exact ⟨_, devRead_of_hasAddress haddr⟩
  case writeMem =>
    rw [busWriteMem_of_some h]
    simp only [entryWrite, hbody, devWrite_of_hasAddress ro v haddr]
    cases ro <;> rfl
  · rintro rfl
    exact (hread i).trans (devReadStatus_without_status i)
  · rintro rfl hi
    exact (hread i).trans (devReadStatus_of_outside (.inr hi))
  · rintro rfl hi
    exact ⟨_, (hread i).trans (devReadStatus_of_inside haddr hi)⟩
  · rintro rfl
    rw [hwrite, devWriteStatus_without_status, finishWrite_error]
  · rintro rfl hi
    rw [hwrite, devWriteStatus_of_outside ro v (.inr hi), finishWrite_error]
  · rintro rfl hi
    rw [hwrite, devWriteStatus_of_inside ro v haddr hi]
    cases ro <;> rfl

/-- A page register after a write into a mapper's register window. -/
theorem mapperWrite_pageReg {m : Nat} {s : State} (hm : m < s.pages.length) (g : Gate) (a : Addr) (v : Byte) (n : Nat)
    (k : Fin 16) :
    (mapperWrite m g a v s).pageReg n k = if n = m ∧ k.val = offsetIn g a % 4 then v else s.pageReg n k := by
  simp only [State.pageReg, mapperWrite, List.getD_eq_getElem?_getD, List.getElem?_modify]
  by_cases hn : n = m
  · subst hn
    simp [List.getElem?_eq_getElem hm, Vector.getElem_set, eq_comm]
  · simp [hn, Ne.symm hn]

/-- Settles O29: the write of a register window is the write of one page register. -/
theorem mapperRegisterWrite : Obligations.MapperRegisterWrite := by
  intro m dev e a v s hbody hm _
  refine ⟨mapperWrite m e.gate a v s, ?_, rfl, mapperWrite_pageReg hm e.gate a v⟩
  simp only [entryWrite, hbody]

end Sys2Proof.Machine
end

section
/-! PROOF. The mappers: what one of them and their chain do to an address and to the latches (20_memory.md R102 to R104),
and a load that follows a store through the same chain (20_memory.md R120). -/

namespace Sys2Proof.Machine

/-! The rewrite slots: the last slot that names a bit decides it (20_memory.md R102). -/

theorem setBit_getElem (a : Addr) (i j : Fin 16) (v : Bool) : (setBit a i v)[j] = if j = i then v else a[j] :=
  BitVec.getElem_ofFnLE _ _ j.isLt

theorem rewriteBits_unnamed (p : Byte) (a : Addr) {ss : List (Option Slot)} {j : Fin 16}
    (h : ∀ w, some w ∈ ss → w.dst ≠ j) : (rewriteBits p a ss)[j] = a[j] := by
  induction ss generalizing a with
  | nil => rfl
  | cons o ss ih =>
    have hrest : ∀ w, some w ∈ ss → w.dst ≠ j := fun w hw => h w (List.mem_cons_of_mem _ hw)
    cases o with
    | none => exact ih a hrest
    | some w =>
      have hdst : j ≠ w.dst := (h w List.mem_cons_self).symm
      exact (ih _ hrest).trans ((setBit_getElem ..).trans (if_neg hdst))

theorem rewriteBits_named (p : Byte) (a : Addr) {ss : List (Option Slot)} {i : Nat} {w : Slot}
    (hw : ss[i]? = some (some w))
    (hlast : ∀ (i' : Nat) (w' : Slot), i < i' → ss[i']? = some (some w') → w'.dst ≠ w.dst) :
    (rewriteBits p a ss)[w.dst] = p[w.src] := by
  induction ss generalizing a i with
  | nil => simp at hw
  | cons o ss ih =>
    cases i with
    | zero =>
      obtain rfl : o = some w := by simpa using hw
      have hrest : ∀ w', some w' ∈ ss → w'.dst ≠ w.dst := by
        intro w' hw'
        obtain ⟨n, hn⟩ := List.mem_iff_getElem?.mp hw'
        exact hlast (n + 1) w' (Nat.zero_lt_succ n) (by simpa using hn)
      exact (rewriteBits_unnamed p _ hrest).trans ((setBit_getElem ..).trans (if_pos rfl))
    | succ i =>
      have hw' : ss[i]? = some (some w) := by simpa using hw
      have hlast' (i' : Nat) (w' : Slot) (hi : i < i') (h : ss[i']? = some (some w')) : w'.dst ≠ w.dst :=
        hlast (i' + 1) w' (Nat.succ_lt_succ hi) (by simpa using h)
      cases o with
      | none => exact ih a hw' hlast'
      | some x => exact ih _ hw' hlast'

/-! The latch slots: the last slot that names a latch decides it (20_memory.md R102). -/

theorem driveLatches_unnamed (p : Byte) (j : Nat) (l : List Bool) {rs : List (Option Nat)} {n : Nat}
    (h : some n ∉ rs) : (driveLatches p j l rs)[n]? = l[n]? := by
  induction rs generalizing j l with
  | nil => rfl
  | cons r rs ih =>
    obtain ⟨hr, hrest⟩ := not_or.mp (List.mem_cons.not.mp h)
    cases r with
    | none => exact ih _ _ hrest
    | some k =>
      have hk : k ≠ n := fun hk => hr (congrArg some hk.symm)
      exact (ih _ _ hrest).trans (List.getElem?_set_ne hk)

theorem driveLatches_named (p : Byte) (j₀ : Nat) {l : List Bool} {rs : List (Option Nat)} {n j : Nat}
    (hn : n < l.length) (hj : rs[j]? = some (some n)) (hlast : ∀ j', j < j' → rs[j']? ≠ some (some n)) :
    (driveLatches p j₀ l rs)[n]? = some (p.getLsbD (j₀ + j)) := by
  induction rs generalizing j₀ l j with
  | nil => simp at hj
  | cons r rs ih =>
    cases j with
    | zero =>
      obtain rfl : r = some n := by simpa using hj
      have hrest : some n ∉ rs := by
        intro hmem
        obtain ⟨m, hm⟩ := List.mem_iff_getElem?.mp hmem
        exact hlast (m + 1) (Nat.zero_lt_succ m) (by simpa using hm)
      exact (driveLatches_unnamed p _ _ hrest).trans (List.getElem?_set_self hn)
    | succ j =>
      have hj' : rs[j]? = some (some n) := by simpa using hj
      have hlast' (j' : Nat) (h : j < j') : rs[j']? ≠ some (some n) := by
        simpa using hlast (j' + 1) (Nat.succ_lt_succ h)
      rw [show j₀ + (j + 1) = j₀ + 1 + j by omega]
      cases r with
      | none => exact ih _ hn hj' hlast'
      | some k => exact ih _ (by simpa using hn) hj' hlast'

/-- A latch that a slot names takes a value that does not depend on the latches before. -/
theorem driveLatches_congr (p : Byte) (j : Nat) {l l' : List Bool} (hl : l.length = l'.length)
    {rs : List (Option Nat)} {n : Nat} (h : some n ∈ rs) :
    (driveLatches p j l rs)[n]? = (driveLatches p j l' rs)[n]? := by
  induction rs generalizing j l l' with
  | nil => cases h
  | cons r rs ih =>
    by_cases hrest : some n ∈ rs
    · cases r with
      | none => exact ih _ hl hrest
      | some k => exact ih _ (by simpa using hl) hrest
    · obtain rfl : some n = r := (List.mem_cons.mp h).resolve_right hrest
      simp only [driveLatches, driveLatches_unnamed p _ _ hrest, List.getElem?_set, hl, if_true]

/-! One mapper. -/

/-- The page register that a mapper's translation reads depends on the page registers only. -/
theorem pageReg_congr {s t : State} (h : s.pages = t.pages) (m : Nat) (k : Fin 16) : s.pageReg m k = t.pageReg m k := by
  rw [State.pageReg, State.pageReg, h]

theorem mapOne_state (m : Nat) (c : MapperCfg) (a : Addr) (s : State) :
    (mapOne m c a s).2 = { s with latch := (mapOne m c a s).2.latch } := rfl

@[simp] theorem mapOne_latch_length (m : Nat) (c : MapperCfg) (a : Addr) (s : State) :
    (mapOne m c a s).2.latch.length = s.latch.length := driveLatches_length ..

theorem mapOne_addr_congr (m : Nat) (c : MapperCfg) (a : Addr) {s t : State} (h : s.pages = t.pages) :
    (mapOne m c a s).1 = (mapOne m c a t).1 := by
  simp only [mapOne, pageReg_congr h]

theorem mapOne_latch_unnamed {c : MapperCfg} {n : Nat} (h : some n ∉ c.lat) (m : Nat) (a : Addr) (s : State) :
    (mapOne m c a s).2.latch[n]? = s.latch[n]? := driveLatches_unnamed _ _ _ h

theorem mapOne_latch_named {c : MapperCfg} {n : Nat} (h : some n ∈ c.lat) (m : Nat) (a : Addr) {s t : State}
    (hp : s.pages = t.pages) (hl : s.latch.length = t.latch.length) :
    (mapOne m c a s).2.latch[n]? = (mapOne m c a t).2.latch[n]? := by
  simp only [mapOne, pageReg_congr hp]
  exact driveLatches_congr _ _ hl h

theorem latchAt_congr {s t : State} {n : Nat} (h : s.latch[n]? = t.latch[n]?) : s.latchAt n = t.latchAt n := by
  rw [State.latchAt, State.latchAt, List.getD_eq_getElem?_getD, List.getD_eq_getElem?_getD, h]

/-- An address shifted right by at least 12 is a page-register number (10_state.md R57). -/
theorem pageIndex_val {c : MapperCfg} (h : 12 ≤ c.sourceBit) (a : Addr) :
    (pageIndex c a).val = a.toNat / 2 ^ c.sourceBit := by
  have hpow : 2 ^ 12 ≤ 2 ^ c.sourceBit := Nat.pow_le_pow_right (by decide) h
  have hle : a.toNat / 2 ^ c.sourceBit ≤ a.toNat / 2 ^ 12 := Nat.div_le_div_left hpow (by decide)
  exact Nat.mod_eq_of_lt (by omega)

/-! The mappers one after another. -/

/-- The mappers with one more at the end: it takes what the others left. -/
theorem mapFrom_concat (m : Nat) (a : Addr) (s : State) (cs : List MapperCfg) (c : MapperCfg) :
    mapFrom m a s (cs ++ [c]) = mapOne (m + cs.length) c (mapFrom m a s cs).1 (mapFrom m a s cs).2 := by
  induction cs generalizing m a s with
  | nil => rfl
  | cons d cs ih =>
    rw [List.cons_append, mapFrom, ih, List.length_cons, Nat.add_right_comm, ← Nat.add_assoc]
    rfl

theorem mapFrom_addr_congr (m : Nat) (a : Addr) {s t : State} (h : s.pages = t.pages) (cs : List MapperCfg) :
    (mapFrom m a s cs).1 = (mapFrom m a t cs).1 := by
  induction cs generalizing m a s t with
  | nil => rfl
  | cons c cs ih =>
    rw [mapFrom, mapFrom, mapOne_addr_congr m c a h]
    exact ih _ _ h

theorem mapFrom_latch_unnamed {cs : List MapperCfg} {n : Nat} (h : ∀ c ∈ cs, some n ∉ c.lat) (m : Nat) (a : Addr)
    (s : State) : (mapFrom m a s cs).2.latch[n]? = s.latch[n]? := by
  induction cs generalizing m a s with
  | nil => rfl
  | cons c cs ih =>
    obtain ⟨hc, hrest⟩ := List.forall_mem_cons.mp h
    exact (ih hrest _ _ _).trans (mapOne_latch_unnamed hc m a s)

/-- A latch that some mapper drives takes a value that does not depend on the latches before. -/
theorem mapFrom_latch_named {cs : List MapperCfg} {n : Nat} (h : ∃ c ∈ cs, some n ∈ c.lat) (m : Nat) (a : Addr)
    {s t : State} (hp : s.pages = t.pages) (hl : s.latch.length = t.latch.length) :
    (mapFrom m a s cs).2.latch[n]? = (mapFrom m a t cs).2.latch[n]? := by
  induction cs generalizing m a s t with
  | nil => simp at h
  | cons c cs ih =>
    rw [mapFrom, mapFrom, mapOne_addr_congr m c a hp]
    by_cases hrest : ∃ c ∈ cs, some n ∈ c.lat
    · exact ih hrest _ _ hp (by simpa using hl)
    · have hc : some n ∈ c.lat := by simpa [hrest] using h
      have hrest' : ∀ c ∈ cs, some n ∉ c.lat := by simpa using hrest
      rw [mapFrom_latch_unnamed hrest', mapFrom_latch_unnamed hrest']
      exact mapOne_latch_named hc m a hp hl

/-- Mapping again, in a state with the page registers that were and the latches that the mappers left, leaves the
latches as they are (20_memory.md R103). -/
theorem mapFrom_latch_again (m : Nat) (a : Addr) {s t : State} (cs : List MapperCfg) (hp : t.pages = s.pages)
    (hl : t.latch = (mapFrom m a s cs).2.latch) : (mapFrom m a t cs).2.latch = t.latch := by
  apply List.ext_getElem?
  intro n
  by_cases h : ∃ c ∈ cs, some n ∈ c.lat
  · have hlen : t.latch.length = s.latch.length := by rw [hl, mapFrom_latch_length]
    rw [mapFrom_latch_named h m a hp hlen, hl]
  · have h' : ∀ c ∈ cs, some n ∉ c.lat := by simpa using h
    exact mapFrom_latch_unnamed h' m a t

/-- Settles O22: page register, address bits and latches of one mapper, then the chain as the mappers that are the first
`n` of the configuration leave it. -/
theorem mapRewritesAndDrives : Obligations.MapRewritesAndDrives := by
  refine ⟨fun m c a s hc => ⟨pageIndex c a, pageIndex_val hc a, mapOne_state m c a s,
    fun j => ⟨fun h => ?bitKept, fun i w hw hdst hlast => ?bitSet⟩,
    fun n hn => ⟨fun h => ?latchKept, fun j hj hlast => ?latchSet⟩⟩, fun a s => ?chain⟩
  case bitKept => exact rewriteBits_unnamed _ a h
  case bitSet =>
    subst hdst
    exact rewriteBits_named _ a hw hlast
  case latchKept => exact latchAt_congr (mapOne_latch_unnamed h m a s)
  case latchSet =>
    have hlatch := driveLatches_named (s.pageReg m (pageIndex c a)) 0 hn hj hlast
    rw [Nat.zero_add] at hlatch
    rw [State.latchAt, List.getD_eq_getElem?_getD, mapOne, hlatch]
    rfl
  case chain =>
    refine ⟨fun n => (mapFrom 0 a s (s.cfg.mappers.take n)).1, fun n => (mapFrom 0 a s (s.cfg.mappers.take n)).2, rfl,
      rfl, fun m c hm => ?_, ?_⟩
    · have hlt : m < s.cfg.mappers.length := (List.getElem?_eq_some_iff.mp hm).1
      have htake : s.cfg.mappers.take (m + 1) = s.cfg.mappers.take m ++ [c] := by
        rw [List.take_add_one, hm]
        rfl
      have hstep := mapFrom_concat 0 a s (s.cfg.mappers.take m) c
      rw [List.length_take_of_le hlt.le, Nat.zero_add] at hstep
      simp only [htake, hstep]
    · simp only [List.take_length, mapChain]

/-- A mapper that copies bit 0 of the page register to address bit 12. -/
def bit12Mapper : MapperCfg := { sourceBit := 12, slots := [some ⟨0, 12⟩], lat := [] }

/-- A machine with 1 in page register 0 of its mapper, and 0 in the others. -/
def bit12State : State :=
  { State.reset with pages := [(Vector.replicate 16 0).set 0 1] }

/-- Settles O23: the translation reads the page registers only, a second call finds the latches as it would drive them,
and address 0 goes to 0x1000, which goes back to 0. -/
theorem mapIsDeterministic : Obligations.MapIsDeterministic := by
  refine ⟨fun m c a s t hp hl => ⟨mapOne_addr_congr m c a hp, rfl, ?idempotent,
    fun n hn => latchAt_congr (mapOne_latch_named hn m a hp hl)⟩, bit12Mapper, 0, bit12State, by decide, ?notAgain⟩
  case idempotent =>
    have hlatch : (mapOne m c a (mapOne m c a s).2).2.latch = (mapOne m c a s).2.latch :=
      mapFrom_latch_again m a [c] (s := s) rfl rfl
    refine Prod.ext rfl ?_
    rw [mapOne_state, hlatch]
  case notAgain =>
    have hfirst : (mapOne 0 bit12Mapper 0 bit12State).1 = 0x1000 := by decide
    have hsecond : (mapOne 0 bit12Mapper 0x1000 bit12State).1 = 0 := by decide
    have hagain : (mapOne 0 bit12Mapper 0x1000 (mapOne 0 bit12Mapper 0 bit12State).2).1 = 0 :=
      (mapOne_addr_congr 0 bit12Mapper 0x1000 rfl).trans hsecond
    rw [hfirst, hagain]
    decide

/-! A store, then a load of the same address. -/

/-- The chain run again, in a state with the same mappers and page registers and the latches that it left: the same
address, and nothing changes (20_memory.md R103, R104). -/
theorem mapChain_again (a : Addr) {s t : State} (hc : t.cfg = s.cfg) (hp : t.pages = s.pages)
    (hl : t.latch = (mapChain a s).2.latch) : mapChain a t = ((mapChain a s).1, t) := by
  have haddr : (mapChain a t).1 = (mapChain a s).1 := by
    rw [mapChain, hc]
    exact mapFrom_addr_congr 0 a hp _
  have hlatch : (mapChain a t).2.latch = t.latch := by
    rw [mapChain, hc]
    exact mapFrom_latch_again 0 a _ hp hl
  refine Prod.ext haddr ?_
  rw [mapChain_state, hlatch]

/-- An Enabler that observes no byte of a foreign device depends on the latches and on `CL` only. -/
theorem evalEnabler_congr {s t : State} (hl : s.latch = t.latch) (ha : s.a = t.a) {e : Enabler}
    (he : ∀ r w, e ≠ .regEqForeign r w) : evalEnabler s e = evalEnabler t e := by
  cases e with
  | always => rfl
  | never => rfl
  | flag k inv => simp only [evalEnabler, State.latchAt, hl]
  | regEqCL v => simp only [evalEnabler, ha]
  | regEqForeign r w => exact absurd rfl (he r w)

theorem scanMemFrom_congr {f : Option DevKind} {a : Addr} {s t : State} {es : List MemEntry}
    (h : ∀ e ∈ es, hasAddress e.gate a s = hasAddress e.gate a t) (dev : Nat) :
    scanMemFrom f a s dev es = scanMemFrom f a t dev es := by
  induction es generalizing dev with
  | nil => rfl
  | cons e es ih =>
    obtain ⟨he, hrest⟩ := List.forall_mem_cons.mp h
    rw [scanMemFrom, scanMemFrom, he, ih hrest]

/-- The state after a store that a writable MemoryDevice answers. -/
theorem busWriteMem_of_writable {a : Addr} {f : Option DevKind} {s : State} {dev : Nat} {e : MemEntry} {st : Bool}
    {img : List Byte} (h : answering s a f = some (dev, e)) (hbody : e.body = .memory false st img) (v : Byte) :
    busWriteMem a v f s = (.ok (), { translated s a with mem := s.mem.write (cellKey s a dev e) v }) := by
  rw [busWriteMem_of_some h]
  simp only [entryWrite, hbody, devWrite_of_hasAddress false v (hasAddress_of_answering h)]
  rw [mapChain_state]
  rfl

/-- After an access at an address, in a state with the memory list, `CL` and page registers that were and the latches
that the access left, the same entry answers the same address. -/
theorem answering_again {a : Addr} {f : Option DevKind} {s t : State} (hc : t.cfg = s.cfg) (ha : t.a = s.a)
    (hp : t.pages = s.pages) (hl : t.latch = (mapChain a s).2.latch)
    (hforeign : ∀ d ∈ s.cfg.memList, ∀ r w, d.gate.enabler ≠ .regEqForeign r w) :
    answering t a f = answering s a f := by
  rw [answering, mapChain_again a hc hp hl, answering, scanMem, scanMem, mapChain_state, hc]
  refine scanMemFrom_congr (fun e he => ?_) 0
  have heval := evalEnabler_congr (t := { s with latch := (mapChain a s).2.latch }) hl ha (hforeign e he)
  rw [hasAddress, hasAddress, ← heval]

/-- Settles O28: the load finds the entry that the store found, and reads the cell that it wrote. -/
theorem storeThenLoad : Obligations.StoreThenLoad := by
  intro a f v s dev e st img hs hforeign h hbody
  obtain ⟨t, hstore, ht⟩ : ∃ t, busWriteMem a v f s = (.ok (), t) ∧
      t = { translated s a with mem := s.mem.write (cellKey s a dev e) v } :=
    ⟨_, busWriteMem_of_writable h hbody v, rfl⟩
  have hc : t.cfg = s.cfg := by simp only [ht, translated]
  have ha : t.a = s.a := by simp only [ht, translated]
  have hp : t.pages = s.pages := by simp only [ht, translated]
  have hl : t.latch = (mapChain a s).2.latch := by simp only [ht, translated]
  have hanswer := answering_again (f := f) hc ha hp hl hforeign
  have hkey : cellKey t a dev e = cellKey s a dev e := by
    rw [cellKey, cellKey, mapChain_again a hc hp hl]
  have hcell : t.mem.read (cellKey s a dev e) = v := by
    rw [ht]
    exact (Memory.read_write hs.1 _ _ v).trans (if_pos rfl)
  refine ⟨t, translated t a, hstore, ?_⟩
  rw [busReadMem_eq, readAnswer, hanswer, h]
  simp only [hbody, hkey, hcell, answerOf]

end Sys2Proof.Machine
end

section
/-! PROOF. The decoder reads back what the encoder writes (30_encoding.md R130 to R134, R141 to R145): the rows of a
decode ROM exclude each other, so the row that an instruction is written by is the one that its bytes match. -/

namespace Sys2Proof

/-! The bits of an opcode: fixed bits above, and where there are some below, a field of operand bits. -/

theorem toNat_append_eq {m n : Nat} (x : BitVec m) (y : BitVec n) : (x ++ y).toNat = x.toNat * 2 ^ n + y.toNat := by
  rw [BitVec.toNat_append, ← Nat.shiftLeft_add_eq_or_of_lt y.isLt, Nat.shiftLeft_eq]

theorem extractLsb'_append_middle {m n k : Nat} (x : BitVec m) (y : BitVec n) (z : BitVec k) :
    (x ++ y ++ z).extractLsb' k n = y := by
  rw [BitVec.extractLsb'_append_eq_of_le (Nat.le_refl k), Nat.sub_self]
  exact BitVec.extractLsb'_append_eq_right

/-- A mask for the bits above a field. -/
theorem append_and_mask {m n : Nat} (x : BitVec m) (y : BitVec n) :
    (x ++ y) &&& (BitVec.allOnes m ++ 0#n) = x ++ 0#n := by
  rw [BitVec.and_append, BitVec.and_allOnes, BitVec.and_zero]

/-- A mask for the bits on both sides of a field. -/
theorem append_append_and_mask {m n k : Nat} (x : BitVec m) (y : BitVec n) (z : BitVec k) :
    (x ++ y ++ z) &&& (BitVec.allOnes m ++ 0#n ++ BitVec.allOnes k) = x ++ 0#n ++ z := by
  rw [BitVec.and_append, append_and_mask, BitVec.and_allOnes]

/-! Each field is read back from the place where the opcode has it (30_encoding.md R132, R141). -/

@[simp] theorem immField_append (k c : Nibble) : immField (k ++ c) = c :=
  BitVec.extractLsb'_append_eq_right

@[simp] theorem regField_append (k : Nibble) (r : RegA) : regField (k ++ (BitVec.ofFin r : Nibble)) = r := by
  have hr : (BitVec.ofFin r : Nibble).toNat = r.val := rfl
  apply Fin.ext
  simp only [regField, toNat_append_eq, hr]
  omega

@[simp] theorem pairField_append (k : Nibble) (p : PairA) (z : BitVec 1) :
    pairField (k ++ (BitVec.ofFin p : BitVec 3) ++ z) = p := by
  have hp : (BitVec.ofFin p : BitVec 3).toNat = p.val := rfl
  apply Fin.ext
  simp only [pairField, toNat_append_eq, hp]
  omega

@[simp] theorem target12_append (k : Nibble) (a : PcA) :
    target12 (k ++ a.extractLsb' 8 4) (a.extractLsb' 0 8) = a := by
  rw [target12, immField_append, BitVec.extractLsb'_append_extractLsb'_eq_extractLsb' (start₁ := 0) (len₁ := 8) rfl]
  exact BitVec.extractLsb'_eq_self

@[simp] theorem target14_split (a : PcB) : target14 (a.extractLsb' 0 8) ((a.extractLsb' 8 6).setWidth 8) = a := by
  have hhigh : ((a.extractLsb' 8 6).setWidth 8).extractLsb' 0 6 = a.extractLsb' 8 6 := by
    ext j hj
    have hbyte : j < 8 := by omega
    simp [hj, hbyte]
  rw [target14, hhigh, BitVec.extractLsb'_append_extractLsb'_eq_extractLsb' (start₁ := 0) (len₁ := 8) rfl]
  exact BitVec.extractLsb'_eq_self

theorem RegB.ofBits_bits (r : RegB) : RegB.ofBits r.bits = some r := by
  cases r <;> rfl

theorem FlagB.ofBits_bits (c : FlagB) : FlagB.ofBits c.bits = c := by
  cases c <;> rfl

@[simp] theorem dstReg_append (k : BitVec 2) (d : RegB) (z : BitVec 3) : dstReg (k ++ d.bits ++ z) = some d :=
  (congrArg RegB.ofBits (extractLsb'_append_middle k d.bits z)).trans d.ofBits_bits

@[simp] theorem srcReg_append (k : BitVec 5) (s : RegB) : srcReg (k ++ s.bits) = some s :=
  (congrArg RegB.ofBits BitVec.extractLsb'_append_eq_right).trans s.ofBits_bits

@[simp] theorem flagField_append (k : BitVec 3) (c : FlagB) (z : BitVec 3) : flagField (k ++ c.bits ++ z) = c :=
  (congrArg FlagB.ofBits (extractLsb'_append_middle k c.bits z)).trans c.ofBits_bits

/-- The two high bits of an output port number, which say that it is none of 0 to 7 (30_encoding.md R143 row 24). -/
theorem outPort_high (k : BitVec 2) (n : BitVec 5) (z : BitVec 1) :
    (k ++ n ++ z : Byte).extractLsb' 4 2 = n.extractLsb' 3 2 := by
  apply BitVec.eq_of_toNat_eq
  simp only [BitVec.extractLsb'_toNat, toNat_append_eq, Nat.shiftRight_eq_div_pow]
  omega

/-! The row of an instruction. -/

/-- Where in the decode ROM of its variant an instruction has its row: constructors and rows stand in the order of the
encoding tables (30_encoding.md R134, R143). -/
def Instr.rowIndex (i : Instr) : Nat :=
  match i.variant with
  | .A => i.ctorIdx
  | .B => i.ctorIdx - Instr.bHltLow.ctorIdx

/-- A row fits an instruction: the opcode has the row's fixed bits, there are the operand bytes that the row asks for,
and the row's handler reads the instruction from them. -/
structure DecodeRow.Fits (r : DecodeRow) (i : Instr) : Prop where
  fixed : i.opcode &&& r.mask = r.fixed
  operands : i.operands.length = r.len - 1
  reads : r.instr i.opcode i.operands = some i

/-- A well-formed instruction fits the row at its place, by the field that its opcode has (30_encoding.md R134, R135,
R143, R144). -/
theorem fits_rowIndex {i : Instr} (h : i.WellFormed = true) :
    ∃ r, (decodeRom i.variant)[i.rowIndex]? = some r ∧ r.Fits i := by
  cases i with
  | aNop | aWrm | aWmp | aWrr | aWpm | aWr0 | aWr1 | aWr2 | aWr3 | aSbm | aRdm | aRdr | aAdm | aRd0 | aRd1 | aRd2
  | aRd3 | aClb | aClc | aIac | aCmc | aCma | aRal | aRar | aTcc | aDac | aTcs | aStc | aDaa | aKbp | aDcl =>
    exact ⟨_, rfl, rfl, rfl, rfl⟩
  | aJcn c _ | aBbl c | aLdm c =>
    exact ⟨_, rfl, append_and_mask _ c, rfl, by simp [DecodeRow.instr, Instr.opcode, Instr.operands]⟩
  | aInc r | aIsz r _ | aAdd r | aSub r | aLd r | aXch r =>
    exact ⟨_, rfl, append_and_mask _ (BitVec.ofFin r : Nibble), rfl,
      by simp [DecodeRow.instr, Instr.opcode, Instr.operands]⟩
  | aFim p _ | aSrc p | aFin p | aJin p =>
    exact ⟨_, rfl, append_append_and_mask _ (BitVec.ofFin p : BitVec 3) _, rfl,
      by simp [DecodeRow.instr, Instr.opcode, Instr.operands]⟩
  | aJun a | aJms a =>
    exact ⟨_, rfl, append_and_mask _ (a.extractLsb' 8 4), rfl,
      by simp [DecodeRow.instr, Instr.opcode, Instr.operands]⟩
  | aIllegalLow x =>
    have hx : x ≠ 0#4 := by simpa [Instr.WellFormed] using h
    exact ⟨_, rfl, append_and_mask _ x, rfl, by simp [DecodeRow.instr, Instr.opcode, hx]⟩
  | aIllegalHigh x =>
    exact ⟨_, rfl, append_and_mask _ x, rfl, congrArg (some ∘ Instr.aIllegalHigh) BitVec.extractLsb'_append_eq_right⟩
  | bHltLow | bHltHigh | bADM | bACM | bSUM | bSBM | bNDM | bXRM | bORM | bCPM | bRLC | bRRC | bRAL | bRAR | bRET =>
    exact ⟨_, rfl, rfl, rfl, rfl⟩
  | bLMI | bADI | bACI | bSUI | bSBI | bNDI | bXRI | bORI | bCPI =>
    exact ⟨_, rfl, by simp [Instr.opcode], rfl, rfl⟩
  | bJMP | bCAL =>
    exact ⟨_, rfl, by simp [Instr.opcode], rfl, by simp [DecodeRow.instr, Instr.operands]⟩
  | bLr1r2 d s =>
    have hmask : (0b11#2 ++ d.bits ++ s.bits) &&& (BitVec.allOnes 2 ++ 0#3 ++ 0#3) = 0b11#2 ++ 0#3 ++ 0#3 := by
      rw [BitVec.and_append, append_and_mask, BitVec.and_zero]
    exact ⟨_, rfl, hmask, rfl, by simp [DecodeRow.instr, Instr.opcode]⟩
  | bLMr s | bADr s | bACr s | bSUr s | bSBr s | bNDr s | bXRr s | bORr s | bCPr s =>
    exact ⟨_, rfl, append_and_mask _ s.bits, rfl, by simp [DecodeRow.instr, Instr.opcode]⟩
  | bLrM d | bLrI d _ =>
    exact ⟨_, rfl, append_append_and_mask _ d.bits _, rfl,
      by simp [DecodeRow.instr, Instr.opcode, Instr.operands]⟩
  | bINr d | bDCr d =>
    have hd : d ≠ .A := by simpa [Instr.WellFormed] using h
    exact ⟨_, rfl, append_append_and_mask _ d.bits _, rfl, by simp [DecodeRow.instr, Instr.opcode, hd]⟩
  | bRFc c | bRTc c | bJFc c _ | bJTc c _ | bCFc c _ | bCTc c _ =>
    exact ⟨_, rfl, append_append_and_mask _ c.bits _, rfl,
      by simp [DecodeRow.instr, Instr.opcode, Instr.operands]⟩
  | bRST n =>
    exact ⟨_, rfl, append_append_and_mask _ n _, rfl, congrArg (some ∘ Instr.bRST) (extractLsb'_append_middle _ n _)⟩
  | bINP n =>
    exact ⟨_, rfl, append_append_and_mask _ n _, rfl, congrArg (some ∘ Instr.bINP) (extractLsb'_append_middle _ n _)⟩
  | bOUT n =>
    have hn : n.extractLsb' 3 2 ≠ 0 := by simpa [Instr.WellFormed] using h
    refine ⟨_, rfl, append_append_and_mask _ n _, rfl, ?_⟩
    simp only [DecodeRow.instr, Instr.opcode, outPort_high, hn, if_false]
    exact congrArg (some ∘ Instr.bOUT) (extractLsb'_append_middle _ n _)
  | bIllegalIncDec x =>
    exact ⟨_, rfl, append_and_mask _ x, rfl, congrArg (some ∘ Instr.bIllegalIncDec) BitVec.extractLsb'_append_eq_right⟩
  | bIllegalRotate x =>
    exact ⟨_, rfl, append_append_and_mask _ x _, rfl,
      congrArg (some ∘ Instr.bIllegalRotate) (extractLsb'_append_middle _ x _)⟩

/-! Only that row matches the first byte. -/

/-- The rows of a decode ROM exclude each other: every first byte matches exactly one of them (30_encoding.md R134,
R135, R143, R144). -/
theorem length_accepting_rows (v : Variant) (b : Byte) : ((decodeRom v).filter fun r => r.accepts b).length = 1 := by
  revert b
  cases v <;> decide

/-- A row that matches a first byte is the one the decoder finds. -/
theorem findRow_of_accepts {v : Variant} {r : DecodeRow} {b : Byte} (hr : r ∈ decodeRom v) (hb : r.accepts b = true) :
    findRow v b = some r := by
  obtain ⟨q, hq⟩ := List.length_eq_one_iff.mp (length_accepting_rows v b)
  have hrq : r ∈ [q] := hq ▸ List.mem_filter.mpr ⟨hr, hb⟩
  rw [findRow, ← List.head?_filter, hq, List.mem_singleton.mp hrq, List.head?_cons]

theorem DecodeRow.Fits.accepts {r : DecodeRow} {i : Instr} (h : r.Fits i) (hr : r ∈ decodeRom i.variant) :
    r.accepts i.opcode = true := by
  have hreads : (r.build i.opcode 0 0).isSome = true := by
    rw [DecodeRow.build_isSome hr _ _ _ (i.operands.getD 0 0) (i.operands.getD 1 0), ← DecodeRow.instr, h.reads]
    rfl
  simp only [DecodeRow.accepts, h.fixed, hreads, beq_self_eq_true, Bool.and_true]

/-- What the decoder reads: a first byte, as many operand bytes as its row asks for, and what follows them. -/
theorem decode_eq_ok_iff {v : Variant} {bs rest : List Byte} {i : Instr} :
    decode v bs = .ok (i, rest) ↔ ∃ b ops r, bs = b :: (ops ++ rest) ∧ findRow v b = some r ∧
      ops.length = r.len - 1 ∧ r.instr b ops = some i := by
  constructor
  · intro h
    cases bs with
    | nil => cases h
    | cons b bytes =>
      obtain ⟨r, hr, -, -, hreads⟩ := findRow_reads v b
      obtain ⟨j, hj⟩ := hreads (bytes.take (r.len - 1))
      simp only [decode, hr, hj] at h
      split_ifs at h with hlen
      obtain ⟨rfl, rfl⟩ := Prod.mk.inj (Except.ok.inj h)
      exact ⟨b, bytes.take (r.len - 1), r, by rw [List.take_append_drop], hr,
        List.length_take_of_le (not_lt.mp hlen), hj⟩
  · rintro ⟨b, ops, r, rfl, hr, hlen, hi⟩
    simp [decode, hr, ← hlen, hi]

/-- Settles O1: the row at the instruction's place fits it, and is the one its opcode finds. -/
theorem decodeEncodeAgree : Obligations.DecodeEncodeAgree := by
  intro i rest h
  obtain ⟨r, hrow, hfits⟩ := fits_rowIndex h
  have hr : r ∈ decodeRom i.variant := List.mem_of_getElem? hrow
  exact decode_eq_ok_iff.mpr
    ⟨i.opcode, i.operands, r, rfl, findRow_of_accepts hr (hfits.accepts hr), hfits.operands, hfits.reads⟩

end Sys2Proof
end

section
/-! PROOF. What the decoder answers is as long as the row it comes from, and in variant A its bytes are the encoding
(30_encoding.md R131, R133, R134, R143). -/

namespace Sys2Proof

@[simp] theorem target12_high (b x : Byte) : (target12 b x).extractLsb' 8 4 = immField b :=
  BitVec.extractLsb'_append_eq_left

@[simp] theorem target12_low (b x : Byte) : (target12 b x).extractLsb' 0 8 = x :=
  BitVec.extractLsb'_append_eq_right

/-- A row asks for as many operand bytes as the encoding of what it reads has (30_encoding.md R131). -/
theorem DecodeRow.build_operands_length {v : Variant} {r : DecodeRow} (h : r ∈ decodeRom v) (b x y : Byte) :
    (r.build b x y).all fun i => i.operands.length == r.len - 1 := by
  revert r
  cases v <;> simp only [decodeRom, romA, romB, romA1, romA2, romA3, romA4, romB1, romB2, romB3, romB4,
    List.cons_append, List.nil_append, List.forall_mem_cons]
  · simp [Instr.operands, apply_ite]
  · simp [Instr.operands, Option.all_bind, Option.all_map, Option.all_eq_true, apply_ite]

/-- In variant A the operand bytes that a row reads are those of the encoding (30_encoding.md R133). -/
theorem DecodeRow.build_operands {r : DecodeRow} (h : r ∈ romA) (b x y : Byte) :
    (r.build b x y).all fun i => i.operands == [x].take (r.len - 1) := by
  revert r
  simp only [romA, romA1, romA2, romA3, romA4, List.cons_append, List.nil_append, List.forall_mem_cons]
  simp [Instr.operands, apply_ite]

/-- In variant A operand bytes do not change the opcode of what a row reads. -/
theorem DecodeRow.map_opcode_build {r : DecodeRow} (h : r ∈ romA) (b x y : Byte) :
    (r.build b x y).map Instr.opcode = (r.build b 0 0).map Instr.opcode := by
  revert r
  simp only [romA, romA1, romA2, romA3, romA4, List.cons_append, List.nil_append, List.forall_mem_cons]
  simp [Instr.opcode]

/-- In variant A, which has no don't-care bits, every first byte is the opcode of what its row reads (30_encoding.md
R134, R135). -/
theorem opcode_of_findRow (b : Byte) : ((findRow .A b).bind fun r => r.build b 0 0).map Instr.opcode = some b := by
  revert b
  decide

/-- In variant A the bytes that a row reads an instruction from are the encoding of that instruction. -/
theorem encode_of_findRow {b : Byte} {ops : List Byte} {r : DecodeRow} {i : Instr} (hr : findRow .A b = some r)
    (hlen : ops.length = r.len - 1) (hi : r.instr b ops = some i) : encode i = b :: ops := by
  have hmem : r ∈ romA := List.mem_of_find?_eq_some hr
  rw [DecodeRow.instr] at hi
  have hopcode : i.opcode = b := by
    have hbyte := opcode_of_findRow b
    rw [hr, Option.bind_some, ← DecodeRow.map_opcode_build hmem b (ops.getD 0 0) (ops.getD 1 0), hi] at hbyte
    exact Option.some.inj hbyte
  have hoperands : i.operands = [ops.getD 0 0].take ops.length := by
    have hrow := DecodeRow.build_operands hmem b (ops.getD 0 0) (ops.getD 1 0)
    rw [hi, ← hlen] at hrow
    exact eq_of_beq hrow
  have hshort : ops.length ≤ 1 := by
    have hrows : ∀ r ∈ romA, r.len - 1 ≤ 1 := by decide
    exact hlen ▸ hrows r hmem
  rw [encode, hopcode, hoperands]
  match ops, hshort with
  | [], _ => rfl
  | [x], _ => rfl

/-- Settles O2: what the row of the first byte reads is well-formed, of the row's variant and as long as the row. -/
theorem decodedInstructionsAreWellFormed : Obligations.DecodedInstructionsAreWellFormed := by
  intro v bs rest i h
  have hvariant := decode_variant h
  obtain ⟨b, ops, r, rfl, hr, hlen, hi⟩ := decode_eq_ok_iff.mp h
  have hmem : r ∈ decodeRom v := List.mem_of_find?_eq_some hr
  have hwf := DecodeRow.build_wellFormed hmem b (ops.getD 0 0) (ops.getD 1 0)
  have hcount := DecodeRow.build_operands_length hmem b (ops.getD 0 0) (ops.getD 1 0)
  rw [← DecodeRow.instr, hi] at hwf hcount
  have hoperands : i.operands.length = ops.length := (eq_of_beq hcount).trans hlen.symm
  refine ⟨hwf, hvariant, ?length, ?bytes, findRow_isSome .B⟩
  case length =>
    simp only [encode, List.length_cons, List.length_append, hoperands]
    omega
  case bytes =>
    rintro rfl
    rw [encode_of_findRow hr hlen hi, List.cons_append]

/-- Settles O3: the rows written out, the don't-care bits of a jump's address among them. -/
theorem sampleWordsDecode : Obligations.SampleWordsDecode :=
  ⟨rfl, rfl, rfl, rfl, rfl, rfl, rfl, rfl⟩

end Sys2Proof
end

section
/-! PROOF. The illegal bytes of both variants and WPM (30_encoding.md R135, R144, 42_a_pair_and_ram.md R249), and the
rows of variant A marked G, with NOP, LDM, LD, XCH and INC (30_encoding.md R136, 40_a_accumulator_and_register.md R162
to R166). -/

namespace Sys2Proof.Machine

/-! Opcodes as numbers. -/

theorem append_eq_ofNat {m n : Nat} (x : BitVec m) (y : BitVec n) :
    x ++ y = BitVec.ofNat (m + n) (x.toNat * 2 ^ n + y.toNat) := by
  rw [← toNat_append_eq, BitVec.ofNat_toNat, BitVec.setWidth_eq]

theorem opcode_bIllegalRotate (x : BitVec 2) :
    (Instr.bIllegalRotate x).opcode = BitVec.ofNat 8 (0x22 + 8 * x.toNat) := by
  revert x
  decide

/-- A well-formed one-byte instruction that raises InvalidOpcode of its own byte, by decoder, encoder and meaning. -/
theorem decode_runsAs_of_raise {i : Instr} {s : State} {b : Nat} (hwf : i.WellFormed = true) (hops : i.operands = [])
    (hb : i.opcode = BitVec.ofNat 8 b) (hexec : exec i s = .next (s.raise (.invalidOpcode i.opcode))) :
    decode i.variant [BitVec.ofNat 8 b] = .ok (i, []) ∧
      RunsAs i s b { s with err := some (.invalidOpcode (BitVec.ofNat 8 b)) } := by
  have hencode : encode i = [BitVec.ofNat 8 b] := by rw [encode, hops, hb]
  have hdecode := decodeEncodeAgree i [] hwf
  rw [List.append_nil, hencode] at hdecode
  exact ⟨hdecode, hencode, hb ▸ hexec⟩

/-- Settles O48: each byte is the opcode of an instruction whose whole meaning is to raise it. -/
theorem illegalInstructionsRaise : Obligations.IllegalInstructionsRaise := by
  refine fun s => ⟨?wpm, fun x hx => ?low, fun x => ?high, fun x => ?incDec, fun x => ?rotate⟩
  case wpm => exact decode_runsAs_of_raise (i := .aWpm) rfl rfl rfl rfl
  case low =>
    have hwf : (Instr.aIllegalLow x).WellFormed = true := bne_iff_ne.mpr hx
    have hopcode : (Instr.aIllegalLow x).opcode = BitVec.ofNat 8 x.toNat :=
      (append_eq_ofNat 0#4 x).trans (congrArg (BitVec.ofNat 8) (by simp))
    exact decode_runsAs_of_raise hwf rfl hopcode rfl
  case high => exact decode_runsAs_of_raise (i := .aIllegalHigh x) rfl rfl (append_eq_ofNat _ x) rfl
  case incDec => exact decode_runsAs_of_raise (i := .bIllegalIncDec x) rfl rfl (append_eq_ofNat _ x) rfl
  case rotate => exact decode_runsAs_of_raise rfl rfl (opcode_bIllegalRotate x) rfl

/-! The rows marked G. -/

/-- Without `A_ADMIT_UNNAMED` an instruction marked G raises InvalidOpcode of its own byte; WPM does so in any case. -/
theorem exec_of_isUnnamed {i : Instr} {s : State} (hi : i.isUnnamed = true)
    (hs : s.cfg.params.admitUnnamed = false) :
    exec i s = .next { s with err := some (.invalidOpcode i.opcode) } := by
  cases i with
  | aNop | aFin | aJin | aInc | aLd | aXch | aLdm | aWmp | aWrr | aRdr | aClb | aClc | aCmc | aTcc | aTcs | aStc =>
    exact admitted_of_false hs _ _
  | aWpm => rfl
  | _ => cases hi

theorem encode_of_isUnnamed {i : Instr} (hi : i.isUnnamed = true) : encode i = [i.opcode] := by
  cases i with
  | aNop | aFin | aJin | aInc | aLd | aXch | aLdm | aWmp | aWrr | aWpm | aRdr | aClb | aClc | aCmc | aTcc | aTcs
  | aStc => rfl
  | _ => cases hi

/-- An instruction marked G is the one-byte instruction of its opcode, and ends in `t` where it is admitted. -/
theorem unnamedRunsAs {i : Instr} {s t : State} {b : Nat} (hi : i.isUnnamed = true) (hb : i.opcode = BitVec.ofNat 8 b)
    (hexec : exec i s = admitted i s (.next t)) : UnnamedRunsAs i s b t :=
  ⟨hb ▸ encode_of_isUnnamed hi, fun h => hexec.trans (admitted_of_true h _ _), fun h => hb ▸ exec_of_isUnnamed hi h⟩

/-- INC in numbers: the register goes from 15 to 0 (R166). -/
theorem incReg_eq (c : CpuA) (r : RegA) :
    c.incReg r = { c with x := c.x.set r (BitVec.ofNat 4 ((c.x[r].toNat + 1) % 16)) } := by
  have hsum : c.reg r + 1 = BitVec.ofNat 4 ((c.x[r].toNat + 1) % 16) := by
    apply BitVec.eq_of_toNat_eq
    simp [CpuA.reg]
  rw [CpuA.incReg, hsum, CpuA.setReg]

/-- Settles O33: the five meanings under `A_ADMIT_UNNAMED`, and what every row marked G does without it. -/
theorem aLoadsExchangeIncrement : Obligations.ALoadsExchangeIncrement := by
  refine fun s => ⟨?nop, fun d => ?ldm, fun r => ?ld, fun r => ?xch, fun r => ?inc, rfl,
    fun i hi => ⟨i.opcode, encode_of_isUnnamed hi, exec_of_isUnnamed hi⟩⟩
  case nop => exact unnamedRunsAs rfl rfl rfl
  case ldm => exact unnamedRunsAs rfl (append_eq_ofNat _ d) rfl
  case ld => exact unnamedRunsAs rfl (append_eq_ofNat _ (BitVec.ofFin r : Nibble)) rfl
  case xch => exact unnamedRunsAs rfl (append_eq_ofNat _ (BitVec.ofFin r : Nibble)) rfl
  case inc =>
    refine unnamedRunsAs rfl (append_eq_ofNat _ (BitVec.ofFin r : Nibble)) ?_
    rw [← incReg_eq]
    rfl

end Sys2Proof.Machine
end

section
/-! PROOF. The accumulator group of variant A (40_a_accumulator_and_register.md R171 to R194): sums and inverted-carry
differences as numbers, the rotates as a ring of five bits, the rows marked G, and the operations with open
parameters. -/

namespace Sys2Proof.Machine

/-- An instruction without operand bytes that answers `t` is the one-byte instruction of its opcode. -/
theorem runsAs {i : Instr} {s t : State} {b : Nat} (hops : i.operands = []) (hb : i.opcode = BitVec.ofNat 8 b)
    (hexec : exec i s = .next t) : RunsAs i s b t :=
  ⟨by rw [encode, hops, hb], hexec⟩

/-- The same where the meaning is to load accumulator and carry with a pair whose value `q` is known otherwise. -/
theorem runsAs_setAccCy {i : Instr} {s : State} {b : Nat} {p q : Nibble × Bool} (hops : i.operands = [])
    (hb : i.opcode = BitVec.ofNat 8 b) (hexec : exec i s = .next (s.setA (s.a.setAccCy p))) (hpq : p = q) :
    RunsAs i s b { s with a := { s.a with acc := q.1, cy := q.2 } } :=
  runsAs hops hb (hpq ▸ hexec)

/-! The adder. -/

theorem addNib_false (a b : Nibble) :
    addNib a b false = (BitVec.ofNat 4 (a.toNat + b.toNat), decide (16 ≤ a.toNat + b.toNat)) := rfl

/-- Adding the complement subtracts, and the carry is the inverted borrow (R172). -/
theorem addNib_not (a b : Nibble) (c : Bool) :
    addNib a (~~~b) c = (BitVec.ofInt 4 ((a.toNat : Int) - b.toNat - (1 - c.toNat)),
      decide (b.toNat + (1 - c.toNat) ≤ a.toNat)) := by
  have hb : (~~~b).toNat = 15 - b.toNat := BitVec.toNat_not
  have hlt := b.isLt
  have hc := c.toNat_le
  refine Prod.ext (BitVec.eq_of_toNat_eq ?_) ?_
  · simp only [addNib, hb, BitVec.toNat_ofNat, BitVec.toNat_ofInt]
    omega
  · simp only [addNib, hb, decide_eq_decide]
    omega

/-- The carry out of `a + 1` (R182). -/
theorem addNib_one (a : Nibble) : addNib a 1 false = (BitVec.ofNat 4 (a.toNat + 1), decide (a.toNat = 15)) := by
  have hlt := a.isLt
  have hcarry : 16 ≤ a.toNat + 1 ↔ a.toNat = 15 := by omega
  exact (addNib_false a 1).trans (by simp [hcarry])

/-- Adding 15 takes 1 away, and there is no borrow unless `a` is 0 (R188). -/
theorem addNib_fifteen (a : Nibble) :
    addNib a 15 false = (BitVec.ofInt 4 ((a.toNat : Int) - 1), decide (a.toNat ≠ 0)) := by
  have hborrow : 1 ≤ a.toNat ↔ a.toNat ≠ 0 := Nat.one_le_iff_ne_zero
  exact (addNib_not a 0 false).trans (by simp [hborrow])

/-- Settles O34: each of the four is a use of the adder, whose result and carry are known as numbers. -/
theorem aAddSubtract : Obligations.AAddSubtract := by
  refine fun s => ⟨fun r => ?add, fun r => ?sub, ?iac, ?dac⟩
  case add => exact runsAs rfl (append_eq_ofNat _ (BitVec.ofFin r : Nibble)) rfl
  case sub =>
    exact runsAs_setAccCy rfl (append_eq_ofNat _ (BitVec.ofFin r : Nibble)) rfl
      (addNib_not s.a.acc s.a.x[r] s.a.cy)
  case iac => exact runsAs_setAccCy rfl rfl rfl (addNib_one s.a.acc)
  case dac => exact runsAs_setAccCy rfl rfl rfl (addNib_fifteen s.a.acc)

/-! The rotates. -/

theorem rotLeftNib_toNat (t : Nibble) (c : Bool) : (rotLeftNib t c).1.toNat = 2 * (t.toNat % 8) + c.toNat :=
  (toNat_append_eq _ _).trans (by simp [Nat.mul_comm])

theorem rotRightNib_toNat (t : Nibble) (c : Bool) : (rotRightNib t c).1.toNat = 8 * c.toNat + t.toNat / 2 := by
  have hhalf : t.toNat / 2 % 8 = t.toNat / 2 := Nat.mod_eq_of_lt (by omega)
  exact (toNat_append_eq _ _).trans (by simp [Nat.mul_comm, Nat.shiftRight_eq_div_pow, hhalf])

/-- Five turns of the ring of four bits and the carry are a full turn (R185). -/
theorem rotLeftNib_five (p : Nibble × Bool) : (Function.uncurry rotLeftNib)^[5] p = p := by
  have h : ∀ (t : Nibble) (c : Bool), (Function.uncurry rotLeftNib)^[5] (t, c) = (t, c) := by decide
  exact h p.1 p.2

/-- RAR turns the ring back by the step that RAL turns it (R185, R186). -/
theorem rotRightNib_leftInverse :
    Function.LeftInverse (Function.uncurry rotRightNib) (Function.uncurry rotLeftNib) := by
  have h : ∀ (t : Nibble) (c : Bool), Function.uncurry rotRightNib (rotLeftNib t c) = (t, c) := by decide
  exact fun p => h p.1 p.2

theorem rotRightNib_five (p : Nibble × Bool) : (Function.uncurry rotRightNib)^[5] p = p := by
  have hback := rotRightNib_leftInverse.iterate 5 p
  rwa [rotLeftNib_five] at hback

/-- A meaning that always answers a next state runs `n` times as the iterate of that next state. -/
theorem iterate_of_next {f : State → Result} {g : State → State} (h : ∀ s, f s = .next (g s)) (n : Nat) (s : State) :
    iterate f n s = some (g^[n] s) := by
  induction n generalizing s with
  | zero => rfl
  | succ n ih => rw [iterate, h, Function.iterate_succ_apply, ← ih]

/-- A meaning that only passes accumulator and carry through `g` restores the state after `n` runs, where `n` passes
restore the pair: each run commutes with one pass. -/
theorem iterate_of_period {f : State → Result} {g : Nibble × Bool → Nibble × Bool} {n : Nat}
    (h : ∀ s, f s = .next (s.setA (s.a.setAccCy (g (s.a.acc, s.a.cy))))) (hn : ∀ p, g^[n] p = p) (s : State) :
    iterate f n s = some s := by
  have hpass : Function.Semiconj (fun p => s.setA (s.a.setAccCy p)) g
      (fun t => t.setA (t.a.setAccCy (g (t.a.acc, t.a.cy)))) := fun _ => rfl
  have hruns := hpass.iterate_right n (s.a.acc, s.a.cy)
  rw [hn] at hruns
  rw [iterate_of_next h]
  exact congrArg some hruns.symm

/-- Settles O35: the results as numbers, and five passes of each ring. -/
theorem aRotates : Obligations.ARotates := by
  refine fun s => ⟨⟨_, _, runsAs rfl rfl rfl, rotLeftNib_toNat _ _, rfl⟩,
    ⟨_, _, runsAs rfl rfl rfl, rotRightNib_toNat _ _, rfl⟩, ?ral, ?rar⟩
  case ral => exact iterate_of_period (fun _ => rfl) rotLeftNib_five s
  case rar => exact iterate_of_period (fun _ => rfl) rotRightNib_five s

/-! Carry and clear. -/

theorem not_eq_ofNat (a : Nibble) : ~~~a = BitVec.ofNat 4 (15 - a.toNat) :=
  BitVec.eq_of_toNat_eq (by rw [BitVec.toNat_not, BitVec.toNat_ofNat, Nat.mod_eq_of_lt (by omega)])

theorem carry_setWidth (c : Bool) : (BitVec.ofBool c).setWidth 4 = BitVec.ofNat 4 c.toNat := by
  cases c <;> rfl

/-- What TCS loads: 9, or 10 with the carry set (R189). -/
theorem nine_plus_carry (c : Bool) : (if c then 10 else 9 : Nibble) = BitVec.ofNat 4 (9 + c.toNat) := by
  cases c <;> rfl

/-- Settles O36: six rows marked G, and CMA, which every machine admits. -/
theorem aCarryAndClear : Obligations.ACarryAndClear := by
  refine fun s => ⟨?clb, ?clc, ?cmc, ?cma, ?tcc, ?tcs, ?stc⟩
  case clb => exact unnamedRunsAs rfl rfl rfl
  case clc => exact unnamedRunsAs rfl rfl rfl
  case cmc => exact unnamedRunsAs rfl rfl rfl
  case cma => exact not_eq_ofNat s.a.acc ▸ runsAs rfl rfl rfl
  case tcc => exact carry_setWidth s.a.cy ▸ unnamedRunsAs rfl rfl rfl
  case tcs => exact nine_plus_carry s.a.cy ▸ unnamedRunsAs rfl rfl rfl
  case stc => exact unnamedRunsAs rfl rfl rfl

/-! Decimal adjust, and the latch that DCL writes. -/

theorem execADaa_of_decimal {s : State} (hacc : s.a.acc.toNat ≤ 9) (hcy : s.a.cy = false) : execADaa s = .next s := by
  simp [execADaa, hcy, hacc]

/-- The adjustment by 6: a carry out sets CY, and without one CY stays only under `A_DAA_KEEPS_CARRY` (R191). -/
theorem execADaa_of_adjust {s : State} (h : 9 < s.a.acc.toNat ∨ s.a.cy = true) :
    execADaa s = .next (s.setA (s.a.setAccCy (BitVec.ofNat 4 (s.a.acc.toNat + 6),
      if 16 ≤ s.a.acc.toNat + 6 then true else s.cfg.params.daaKeepsCarry && s.a.cy))) := by
  have hcond : (decide (9 < s.a.acc.toNat) || s.a.cy) = true := by simpa using h
  rw [execADaa, if_pos hcond, addNib_false]
  by_cases hcarry : 16 ≤ s.a.acc.toNat + 6
  · simp [hcarry]
  · simp [hcarry, Bool.and_comm]

/-- After DCL an Enabler on CL compares its byte with the masked accumulator (R194, 10_state.md R60). -/
theorem evalEnabler_of_exec_aDcl {s t : State} (h : exec .aDcl s = .next t) (m : Byte) :
    evalEnabler t (.regEqCL m) = true ↔ m.toNat = (s.a.acc &&& s.cfg.params.dclMask).toNat := by
  cases h
  rw [evalEnabler_iff]
  exact eq_comm

/-- Settles O37: DAA by its two cases, KBP and DCL through their parameters, and the default parameters. -/
theorem aDecimalKeyboardDcl : Obligations.ADecimalKeyboardDcl := by
  refine fun s => ⟨fun hacc hcy => ?decimal, fun h => ?adjust, ?kbp, by decide, rfl, rfl, ?dcl,
    fun t m ht => evalEnabler_of_exec_aDcl ht m⟩
  case decimal => exact runsAs rfl rfl (execADaa_of_decimal hacc hcy)
  case adjust => exact runsAs rfl rfl (execADaa_of_adjust h)
  case kbp => exact runsAs rfl rfl rfl
  case dcl => exact runsAs rfl rfl rfl

end Sys2Proof.Machine
end

section
/-! PROOF. Control transfer of variant A (41_a_control_transfer.md R200 to R207): targets in the page of the `pc`, the
condition of JCN, and one push or pop of a call stack of any width and depth (10_state.md R32, R33). -/

namespace Sys2Proof.Machine

/-! Bit fields as numbers. -/

theorem extractLsb'_page_toNat (a : PcA) : (a.extractLsb' 8 4).toNat = a.toNat / 256 := by
  rw [BitVec.extractLsb'_toNat, Nat.shiftRight_eq_div_pow, Nat.mod_eq_of_lt (by omega)]

theorem extractLsb'_offset (a : PcA) : a.extractLsb' 0 8 = BitVec.ofNat 8 (a.toNat % 256) :=
  BitVec.eq_of_toNat_eq (by simp)

/-- The opcode of an instruction that names a pair: four fixed bits, the pair, one fixed bit. -/
theorem pairOpcode_eq_ofNat (k : Nibble) (p : PairA) (z : BitVec 1) :
    k ++ (BitVec.ofFin p : BitVec 3) ++ z = BitVec.ofNat 8 (16 * k.toNat + z.toNat + 2 * p.val) := by
  have hpair : (BitVec.ofFin p : BitVec 3).toNat = p.val := rfl
  rw [append_eq_ofNat, toNat_append_eq, hpair]
  exact congrArg (BitVec.ofNat 8) (by omega)

/-- A two-byte instruction with a 12-bit target has its page in the opcode and its offset in the operand (R200). -/
theorem encode_target12 {i : Instr} {k : Nibble} {a12 : PcA} (hop : i.opcode = k ++ a12.extractLsb' 8 4)
    (hops : i.operands = [a12.extractLsb' 0 8]) :
    encode i = [BitVec.ofNat 8 (k.toNat * 16 + a12.toNat / 256), BitVec.ofNat 8 (a12.toNat % 256)] := by
  rw [encode, hop, hops, append_eq_ofNat, extractLsb'_page_toNat, extractLsb'_offset]
  rfl

theorem CpuA.pair_toNat (c : CpuA) (p : PairA) :
    (c.pair p).toNat = 16 * c.x[evenReg p].toNat + c.x[oddReg p].toNat := by
  rw [CpuA.pair, toNat_append_eq, Nat.mul_comm]
  rfl

/-- A page-relative target keeps the multiple of 256 of the `pc` and has the given low byte (R200). -/
theorem pageTarget_eq_ofNat (pc : PcA) (a8 : Byte) :
    pageTarget pc a8 = BitVec.ofNat 12 (pc.toNat / 256 * 256 + a8.toNat) := by
  rw [pageTarget, append_eq_ofNat, extractLsb'_page_toNat]
  rfl

theorem pageTarget_pair (pc : PcA) (c : CpuA) (p : PairA) :
    pageTarget pc (c.pair p) =
      BitVec.ofNat 12 (pc.toNat / 256 * 256 + 16 * c.x[evenReg p].toNat + c.x[oddReg p].toNat) := by
  rw [pageTarget_eq_ofNat, CpuA.pair_toNat, Nat.add_assoc]

/-! The condition of JCN. -/

theorem bne_eq_true_iff_ite {b : Bool} {p : Prop} (h : b = true ↔ p) (i : Bool) :
    (b != i) = true ↔ if i = true then ¬p else p := by
  cases i <;> simp [← h]

/-- Bit 3 of the condition field inverts the OR of the conditions that bits 0 to 2 select (R201). -/
theorem jcnCond_iff (f acc : Nibble) (cy test : Bool) :
    let hit := (f[2] = true ∧ acc = 0) ∨ (f[1] = true ∧ cy = true) ∨ (f[0] = true ∧ test = false)
    jcnCond f acc cy test = true ↔ if f[3] = true then ¬hit else hit := by
  intro hit
  have hhit : (f[2] && acc == 0 || f[1] && cy || f[0] && !test) = true ↔ hit := by simp [hit, or_assoc]
  exact bne_eq_true_iff_ite hhit f[3]

/-- Settles O38: the condition as the obligation spells it out decides between the jump and the unchanged state. -/
theorem aConditionalJump : Obligations.AConditionalJump := by
  intro f a8 s hit taken
  have hcond : jcnCond f s.a.acc s.a.cy s.a.test = true ↔ taken := jcnCond_iff f s.a.acc s.a.cy s.a.test
  refine ⟨congrArg (· :: [a8]) (append_eq_ofNat _ f), fun h => ?taken, fun h => ?untaken⟩
  case taken =>
    rw [← pageTarget_eq_ofNat]
    exact if_pos (hcond.mpr h)
  case untaken => exact if_neg (mt hcond.mp h)

/-! One push and one pop. -/

namespace CallStack

variable {w d : Nat} {k k' : CallStack w d} {v : BitVec w}

theorem push_pushedStack (k : CallStack w d) (v : BitVec w) : PushedStack k (k.push v) v := by
  have hsp := k.sp.isLt
  refine ⟨rfl, ?_, rfl⟩
  rw [push_sp_val]
  split
  · rw [Nat.mod_eq_of_lt ‹_›]
  · rw [show k.sp.val + 1 = d by omega, Nat.mod_self]

theorem pop_eq_none_iff : k.pop = none ↔ k.sp.val = 0 ∧ k.nest.val = 0 := by
  simp [pop]

theorem poppedStack_of_pop (h : k.pop = some (v, k')) : PoppedStack k k' v := by
  obtain ⟨-, hslots, hv, hnest, hsp⟩ := pop_some h
  have hlt := k.sp.isLt
  refine ⟨hslots, ?_, hnest, hv⟩
  rw [hsp]
  split
  · rw [Nat.mod_eq_of_lt (by omega)]
    omega
  · rw [show k.sp.val + d - 1 = k.sp.val - 1 + d by omega, Nat.add_mod_right, Nat.mod_eq_of_lt (by omega)]

end CallStack

/-- Settles O39: JUN and JMS always complete; BBL by the two outcomes of the pop. -/
theorem aJumpCallReturn : Obligations.AJumpCallReturn := by
  refine fun s => ⟨fun a12 => ⟨encode_target12 (k := 4) rfl rfl, rfl⟩,
    fun a12 => ⟨encode_target12 (k := 5) rfl rfl, _, s.a.stk.push_pushedStack s.a.pc, rfl⟩,
    fun d => ⟨congrArg (· :: []) (append_eq_ofNat _ d), ?bbl⟩⟩
  rcases s.returnA_cases d with ⟨hpop, hend⟩ | ⟨v, k, hpop, hend⟩
  case bbl.inl =>
    have hempty := CallStack.pop_eq_none_iff.mp hpop
    exact ⟨fun _ _ => congrArg _ hend, fun hne => by omega⟩
  case bbl.inr =>
    obtain ⟨hne, -⟩ := CallStack.pop_some hpop
    exact ⟨fun hsp hnest => absurd ⟨hsp, hnest⟩ hne,
      fun _ => ⟨k, v, CallStack.poppedStack_of_pop hpop, congrArg _ hend⟩⟩

/-! The increment of ISZ. -/

theorem CpuA.reg_incReg (c : CpuA) (r : RegA) : (c.incReg r).reg r = c.x[r] + 1 := by
  simp [CpuA.reg, CpuA.incReg]

theorem nibble_add_one_eq_zero_iff (n : Nibble) : n + 1 = 0 ↔ n.toNat = 15 := by
  bv_omega

theorem execAIsz_of_wrap {s : State} {r : RegA} (h : s.a.x[r].toNat = 15) (a8 : Byte) :
    execAIsz r a8 s = .next (s.setA (s.a.setReg r 0)) := by
  have hzero : s.a.x[r] + 1 = 0 := (nibble_add_one_eq_zero_iff _).mpr h
  have hstay : execAIsz r a8 s = .next (s.setA (s.a.incReg r)) :=
    if_neg (not_not_intro ((s.a.reg_incReg r).trans hzero))
  rw [hstay, CpuA.incReg, CpuA.reg, hzero]

theorem execAIsz_of_not_wrap {s : State} {r : RegA} (h : s.a.x[r].toNat ≠ 15) (a8 : Byte) :
    execAIsz r a8 s = .next ((s.setA (s.a.setReg r (s.a.x[r] + 1))).jumpA (pageTarget s.a.pc a8)) := by
  have hne : (s.a.incReg r).reg r ≠ 0 := by
    rw [CpuA.reg_incReg]
    exact mt (nibble_add_one_eq_zero_iff _).mp h
  exact if_pos hne

/-- Settles O40: ISZ by whether the register wraps to 0, JIN as a row marked G. -/
theorem aIszAndJin : Obligations.AIszAndJin := by
  refine fun s => ⟨fun r a8 => ⟨congrArg (· :: [a8]) (append_eq_ofNat _ (BitVec.ofFin r : Nibble)),
    fun h => execAIsz_of_wrap h a8, fun h => ?jumps⟩, fun p => ?jin⟩
  case jumps =>
    rw [← pageTarget_eq_ofNat]
    exact execAIsz_of_not_wrap h a8
  case jin =>
    rw [← pageTarget_pair]
    exact unnamedRunsAs rfl (pairOpcode_eq_ofNat _ p _) rfl

end Sys2Proof.Machine
end

section
/-! PROOF. Register pairs, RAM and status instructions of variant A (42_a_pair_and_ram.md R221 to R243): a pair as two
nibbles, the Bus reads of which one nibble goes into the accumulator, and the writes of the accumulator at `RC`. -/

namespace Sys2Proof.Machine

/-! Pairs. -/

theorem extractLsb'_highNibble_toNat (v : Byte) : (v.extractLsb' 4 4).toNat = v.toNat / 16 := by
  rw [BitVec.extractLsb'_toNat, Nat.shiftRight_eq_div_pow, Nat.mod_eq_of_lt (by omega)]

theorem extractLsb'_highNibble (v : Byte) : v.extractLsb' 4 4 = BitVec.ofNat 4 (v.toNat / 16) := by
  rw [← extractLsb'_highNibble_toNat, BitVec.ofNat_toNat, BitVec.setWidth_eq]

theorem extractLsb'_lowNibble_toNat (v : Byte) : (v.extractLsb' 0 4).toNat = v.toNat % 16 :=
  BitVec.extractLsb'_toNat _ _ _

theorem oddReg_ne_evenReg (p q : PairA) : oddReg p ≠ evenReg q := by
  simp only [oddReg, evenReg, ne_eq, Fin.mk.injEq]
  omega

namespace CpuA

variable (c : CpuA) (p : PairA) (v : Byte)

/-- What every register holds after a write to a pair (10_state.md R14, R22). -/
theorem reg_setPair (r : RegA) :
    (c.setPair p v).reg r =
      if oddReg p = r then v.extractLsb' 0 4 else if evenReg p = r then v.extractLsb' 4 4 else c.reg r := by
  rw [setPair, reg_setReg, reg_setReg]

theorem reg_setPair_odd : (c.setPair p v).reg (oddReg p) = v.extractLsb' 0 4 := by
  rw [reg_setPair, if_pos rfl]

theorem reg_setPair_even : (c.setPair p v).reg (evenReg p) = v.extractLsb' 4 4 := by
  rw [reg_setPair, if_neg (oddReg_ne_evenReg p p), if_pos rfl]

theorem reg_setPair_of_ne {r : RegA} (heven : r ≠ evenReg p) (hodd : r ≠ oddReg p) :
    (c.setPair p v).reg r = c.reg r := by
  rw [reg_setPair, if_neg hodd.symm, if_neg heven.symm]

/-- A pair reads the byte written to it. -/
theorem pair_setPair : (c.setPair p v).pair p = v := by
  apply BitVec.eq_of_toNat_eq
  rw [pair, reg_setPair_even, reg_setPair_odd, toNat_append_eq, extractLsb'_highNibble_toNat,
    extractLsb'_lowNibble_toNat]
  exact Nat.div_add_mod' _ _

theorem setPair_eq :
    c.setPair p v = { c with x :=
      (c.x.set (evenReg p) (BitVec.ofNat 4 (v.toNat / 16))).set (oddReg p) (BitVec.ofNat 4 (v.toNat % 16)) } := by
  rw [setPair, extractLsb'_highNibble, extractLsb'_lowNibble, setReg, setReg]

theorem pair_eq_ofNat : c.pair p = BitVec.ofNat 8 (16 * c.x[evenReg p].toNat + c.x[oddReg p].toNat) := by
  rw [← pair_toNat, BitVec.ofNat_toNat, BitVec.setWidth_eq]

end CpuA

/-- Settles O41: FIM is a write to a pair, known register by register; SRC reads the pair. -/
theorem aPairsAndLatch : Obligations.APairsAndLatch := by
  refine fun p s => ⟨fun d8 => ⟨?fimCode, _, rfl, rfl, s.a.pair_setPair p d8, ?even, ?odd,
    fun r heven hodd => s.a.reg_setPair_of_ne p d8 heven hodd⟩, ?src⟩
  case fimCode => exact congrArg (· :: [d8]) (pairOpcode_eq_ofNat 2 p 0)
  case even => exact (congrArg BitVec.toNat (s.a.reg_setPair_even p d8)).trans (extractLsb'_highNibble_toNat d8)
  case odd => exact (congrArg BitVec.toNat (s.a.reg_setPair_odd p d8)).trans (extractLsb'_lowNibble_toNat d8)
  case src =>
    rw [← CpuA.pair_eq_ofNat]
    exact runsAs rfl (pairOpcode_eq_ofNat 2 p 1) rfl

/-! FIN. -/

/-- The bus address of the byte that FIN reads: the page of the `pc` and pair 0 (R224). -/
theorem finAddr_eq (c : CpuA) :
    (pageTarget c.pc (c.pair 0)).setWidth 16 =
      BitVec.ofNat 16 (c.pc.toNat / 256 * 256 + 16 * c.x[evenReg 0].toNat + c.x[oddReg 0].toNat) := by
  have hpc : c.pc.toNat / 256 * 256 + 16 * c.x[evenReg 0].toNat + c.x[oddReg 0].toNat < 2 ^ 12 := by omega
  rw [pageTarget_pair, BitVec.setWidth_ofNat_of_le_of_lt (by decide) hpc]

/-- FIN under `A_ADMIT_UNNAMED`: the pair takes what the read answers (R224). -/
theorem execAFin_loads {s : State} (h : s.cfg.params.admitUnnamed = true) (p : PairA) :
    let u := translated s ((pageTarget s.a.pc (s.a.pair 0)).setWidth 16)
    LoadsAnswer (execAFin p s) (readAnswer s ((pageTarget s.a.pc (s.a.pair 0)).setWidth 16) (some .rom)) u fun v =>
      { u with a := { s.a with x :=
        (s.a.x.set (evenReg p) (BitVec.ofNat 4 (v.toNat / 16))).set (oddReg p) (BitVec.ofNat 4 (v.toNat % 16)) } } := by
  intro u
  rw [execAFin, admitted_of_true h, busReadMem_eq]
  exact onRead_loads fun v => congrArg u.setA (s.a.setPair_eq p v)

/-- Settles O42: FIN loads the answer of its one read where it is admitted, and is a row marked G. -/
theorem aFetchIndirect : Obligations.AFetchIndirect := by
  intro p s a
  have hopcode : (Instr.aFin p).opcode = BitVec.ofNat 8 (0x30 + 2 * p.val) := pairOpcode_eq_ofNat 3 p 0
  refine ⟨hopcode ▸ encode_of_isUnnamed rfl, fun h => ?loads, fun h => hopcode ▸ exec_of_isUnnamed rfl h⟩
  have hloads := execAFin_loads h p
  rwa [finAddr_eq] at hloads

/-! The accesses of the RAM group. -/

/-- RDM, ADM and SBM go on with the low nibble of what the RAM-kind cell at `RC` answers (R230, R231). -/
theorem readRam_loads (s : State) (k : Nibble → State → State) {g : Byte → State}
    (h : ∀ v, k (BitVec.ofNat 4 (v.toNat % 16)) (translated s (ramAddr s)) = g v) :
    LoadsAnswer (readRam s k) (readAnswer s (ramAddr s) (some .ram)) (translated s (ramAddr s)) g := by
  rw [readRam, busReadMem_eq]
  exact onRead_loads fun v => by rw [extractLsb'_lowNibble, h]

/-- RD0 to RD3 load the low nibble of what the status entry at the masked `RC` answers (R230, R240). -/
theorem readStatusToAcc_loads {i : Nat} (hi : i ≤ 3) (s : State) :
    LoadsAnswer (readStatusToAcc i s) (statusAnswer s (statusAddr s) i (some .ram)) (translated s (statusAddr s))
      fun v => (translated s (statusAddr s)).setA { s.a with acc := BitVec.ofNat 4 (v.toNat % 16) } := by
  rw [readStatusToAcc, busReadStatus_eq _ hi]
  exact onRead_loads fun v => by rw [extractLsb'_lowNibble]; rfl

theorem addNib_lowNibble (a : Nibble) (v : Byte) (c : Bool) :
    addNib a (BitVec.ofNat 4 (v.toNat % 16)) c =
      (BitVec.ofNat 4 (a.toNat + v.toNat % 16 + c.toNat), decide (16 ≤ a.toNat + v.toNat % 16 + c.toNat)) := by
  rw [addNib, BitVec.toNat_ofNat, Nat.mod_mod]

theorem addNib_not_lowNibble (a : Nibble) (v : Byte) (c : Bool) :
    addNib a (~~~BitVec.ofNat 4 (v.toNat % 16)) c =
      (BitVec.ofInt 4 ((a.toNat : Int) - (v.toNat % 16 : Nat) - (1 - c.toNat)),
        decide (v.toNat % 16 + (1 - c.toNat) ≤ a.toNat)) := by
  rw [addNib_not, BitVec.toNat_ofNat, Nat.mod_mod]

/-- Settles O44: the three go on with the same nibble; what ADM and SBM make of it are facts about the adder. -/
theorem aReadRam : Obligations.AReadRam := by
  intro s a u ans
  refine ⟨rfl, rfl, rfl, ?rdm, ?adm, ?sbm⟩
  case rdm => exact readRam_loads s (fun n t => t.setA { t.a with acc := n }) fun _ => rfl
  case adm =>
    exact readRam_loads s (fun n t => t.setA (t.a.setAccCy (addNib t.a.acc n t.a.cy))) fun v =>
      congrArg (fun p => u.setA (s.a.setAccCy p)) (addNib_lowNibble s.a.acc v s.a.cy)
  case sbm =>
    exact readRam_loads s (fun n t => t.setA (t.a.setAccCy (addNib t.a.acc (~~~n) t.a.cy))) fun v =>
      congrArg (fun p => u.setA (s.a.setAccCy p)) (addNib_not_lowNibble s.a.acc v s.a.cy)

/-- Settles O46: the four differ in the number of the status entry alone. -/
theorem aReadStatus : Obligations.AReadStatus := by
  refine fun s => ⟨rfl, rfl, rfl, rfl, ?rd0, ?rd1, ?rd2, ?rd3⟩
  case rd0 => exact readStatusToAcc_loads (i := 0) (by decide) s
  case rd1 => exact readStatusToAcc_loads (i := 1) (by decide) s
  case rd2 => exact readStatusToAcc_loads (i := 2) (by decide) s
  case rd3 => exact readStatusToAcc_loads (i := 3) (by decide) s

/-- Settles O43: WRM is one memory write at `RC`. -/
theorem aWriteRam : Obligations.AWriteRam :=
  fun s hs => ⟨rfl, onWrite_mem hs (ramAddr s) (some .ram) (s.a.acc.setWidth 8)⟩

/-- WR0 to WR3 make one status write of the zero-extended accumulator (R230, R236). -/
theorem writeStatusFromAcc_stores {s : State} (hs : Canonical s) {i : Nat} (hi : i ≤ 3) :
    StoresStatus (writeStatusFromAcc i s) s (statusAddr s) i (some .ram) (s.a.acc.setWidth 8) :=
  onWrite_status hs (statusAddr s) hi (some .ram) (s.a.acc.setWidth 8)

/-- Settles O45: the four differ in the number of the status entry alone. -/
theorem aWriteStatus : Obligations.AWriteStatus := by
  refine fun s hs => ⟨rfl, rfl, rfl, rfl, ?wr0, ?wr1, ?wr2, ?wr3⟩
  case wr0 => exact writeStatusFromAcc_stores hs (i := 0) (by decide)
  case wr1 => exact writeStatusFromAcc_stores hs (i := 1) (by decide)
  case wr2 => exact writeStatusFromAcc_stores hs (i := 2) (by decide)
  case wr3 => exact writeStatusFromAcc_stores hs (i := 3) (by decide)

end Sys2Proof.Machine
end

section
/-! PROOF. Halt, moves, increment and decrement of variant B (45_b_move_incdec_halt.md R261 to R268): register fields
of an opcode as numbers, the one access of `M`, and the flags of a result as 10_state.md R43 states them. -/

namespace Sys2Proof.Machine

/-! Halt. -/

/-- The next turn of a halted run that has neither an error nor a cancellation ends it (60_exceptions.md R350). -/
theorem step_of_halted {s : State} (hqueue : s.hostQueue = []) (hconfig : s.cfg.ok = true) (herr : s.err = none)
    (hcancel : s.cancel = false) (hhalted : s.halted = true) : step s = .fault .halted := by
  rw [step_idle hqueue]
  simp [runTurn, configOk, runEnd, hconfig, herr, hcancel, hhalted]

/-- Settles O49: the rows of the decoder, the two meanings, the turn after them, and the frame of every instruction. -/
theorem bHalt : Obligations.BHalt := by
  refine ⟨rfl, rfl, rfl, fun s => ⟨rfl, rfl, fun hready => ?turn, fun i t h hs => ?stays⟩⟩
  case turn =>
    obtain ⟨hqueue, hconfig, herr, hcancel, -⟩ := hready
    exact step_of_halted hqueue hconfig herr hcancel rfl
  case stays =>
    obtain ⟨hhalted, -⟩ := onlyHaltHalts i s t h
    exact hhalted.mpr (.inl hs)

/-! Opcodes with register fields. -/

theorem regBits_toNat (r : RegB) : r.bits.toNat = regNumber r := by
  cases r <;> rfl

/-- An opcode with a register number in bits 5:3 (30_encoding.md R141). -/
theorem dstOpcode_eq_ofNat (k : BitVec 2) (d : RegB) (z : BitVec 3) :
    k ++ d.bits ++ z = BitVec.ofNat 8 (64 * k.toNat + 8 * regNumber d + z.toNat) := by
  rw [append_eq_ofNat, toNat_append_eq, regBits_toNat]
  exact congrArg (BitVec.ofNat 8) (by omega)

/-- An opcode with a register number in bits 2:0 (30_encoding.md R141). -/
theorem srcOpcode_eq_ofNat (k : BitVec 5) (r : RegB) :
    k ++ r.bits = BitVec.ofNat 8 (8 * k.toNat + regNumber r) := by
  rw [append_eq_ofNat, regBits_toNat]
  exact congrArg (BitVec.ofNat 8) (by omega)

/-- An opcode of the quarter `00`, where the immediate loads, increments and decrements stand. -/
theorem dstOpcode_zero_eq_ofNat (d : RegB) (z : BitVec 3) :
    0#2 ++ d.bits ++ z = BitVec.ofNat 8 (8 * regNumber d + z.toNat) := by
  rw [dstOpcode_eq_ofNat, BitVec.toNat_zero, Nat.mul_zero, Nat.zero_add]

/-! The one access of `M`. -/

/-- An instruction that reads `M` goes on with what an unfiltered read there answers (10_state.md R41). -/
theorem readM_loads (s : State) (k : Byte → State → State) {g : Byte → State}
    (h : ∀ v, k v (translated s (memAddrB s)) = g v) :
    LoadsAnswer (readM s k) (readAnswer s (memAddrB s) none) (translated s (memAddrB s)) g := by
  rw [readM, busReadMem_eq]
  exact onRead_loads h

/-- An instruction that writes `M` makes one unfiltered write there (10_state.md R41). -/
theorem writeM_stores {s : State} (hs : Canonical s) (v : Byte) :
    StoresByte (writeM v s) s (memAddrB s) none v :=
  onWrite_mem hs (memAddrB s) none v

/-- Settles O50: two moves within the CPU, and one that loads the answer of its one read. -/
theorem bMovesIntoRegisters : Obligations.BMovesIntoRegisters := by
  refine fun d s => ⟨fun r => runsAs rfl ?moveCode rfl, fun i8 => ⟨?immediateCode, rfl⟩, ?memoryCode, ?load⟩
  case moveCode => exact regBits_toNat r ▸ dstOpcode_eq_ofNat 3 d r.bits
  case immediateCode => exact congrArg (· :: [i8]) (dstOpcode_zero_eq_ofNat d 6)
  case memoryCode => exact congrArg (· :: []) (dstOpcode_eq_ofNat 3 d 7)
  case load =>
    rw [← memAddrB_eq_ofNat]
    exact readM_loads s (fun v t => t.setB (t.b.setReg d v)) fun _ => rfl

/-- Settles O51: both are one write of `M`. -/
theorem bStores : Obligations.BStores := by
  intro s hs
  rw [← memAddrB_eq_ofNat]
  exact ⟨fun r => ⟨congrArg (· :: []) (srcOpcode_eq_ofNat 31 r), writeM_stores hs _⟩,
    fun i8 => ⟨rfl, writeM_stores hs i8⟩⟩

/-! Zero, sign and parity of a result. -/

theorem zeroFlag_eq (r : Byte) : zeroFlag r = decide (r.toNat = 0) := by
  simp [zeroFlag, BitVec.toNat_eq, Bool.beq_eq_decide_eq]

theorem signFlag_eq (r : Byte) : signFlag r = decide (128 ≤ r.toNat) :=
  r.msb_eq_getLsbD_last.symm.trans r.msb_eq_decide

theorem length_filter_eq_sum_toNat {α : Type} (p : α → Bool) (l : List α) :
    (l.filter p).length = (l.map fun x => (p x).toNat).sum := by
  induction l with
  | nil => rfl
  | cons x l ih => cases h : p x <;> simp [h, ih, Nat.add_comm]

/-- The sum of the bits is the number of positions that hold a 1. -/
theorem onesCount_eq (r : Byte) : onesCount r = ((List.range 8).filter fun k => r.getLsbD k).length := by
  rw [length_filter_eq_sum_toNat]
  rfl

theorem parityFlag_eq (r : Byte) : parityFlag r = decide (onesCount r % 2 = 0) := by
  rw [onesCount_eq]
  exact Bool.beq_eq_decide_eq _ _

/-- `SetZSP(r)` sets the three flags to what 10_state.md R43 states of `r`. -/
theorem CpuB.setZSP_eq_withZSP (c : CpuB) (r : Byte) : c.setZSP r = c.withZSP r := by
  rw [CpuB.setZSP, CpuB.withZSP, zeroFlag_eq, signFlag_eq, parityFlag_eq]

/-! Increment and decrement. -/

theorem byte_add_one_eq_ofNat (v : Byte) : v + 1 = BitVec.ofNat 8 ((v.toNat + 1) % 256) :=
  BitVec.eq_of_toNat_eq (by simp)

theorem byte_sub_one_eq_ofNat (v : Byte) : v - 1 = BitVec.ofNat 8 ((v.toNat + 255) % 256) := by
  apply BitVec.eq_of_toNat_eq
  simp [Nat.add_comm]

/-- An increment or decrement with a result known otherwise: the register and the flags of that result (R267). -/
theorem runsAs_setIncDec {i : Instr} {s : State} {b : Nat} {d : RegB} {r v : Byte} (hops : i.operands = [])
    (hb : i.opcode = BitVec.ofNat 8 b) (hexec : exec i s = .next (s.setB (s.b.setIncDec d r))) (hr : r = v) :
    RunsAs i s b { s with b := ({ s.b with x := s.b.x.set (regIndex d) v } : CpuB).withZSP v } := by
  rw [← CpuB.setZSP_eq_withZSP]
  exact runsAs hops hb (hr ▸ hexec)

/-- Settles O52: the results as numbers, and the rows that match the bytes `d = A` would have. -/
theorem bIncrementDecrement : Obligations.BIncrementDecrement := by
  refine fun d s _ => ⟨?inc, ?dec, rfl, rfl, rfl, rfl⟩
  case inc => exact runsAs_setIncDec rfl (dstOpcode_zero_eq_ofNat d 0) rfl (byte_add_one_eq_ofNat _)
  case dec => exact runsAs_setIncDec rfl (dstOpcode_zero_eq_ofNat d 1) rfl (byte_sub_one_eq_ofNat _)

end Sys2Proof.Machine
end

section
/-! PROOF. The accumulator operations and the rotates of variant B (46_b_alu_rotate.md R280 to R298): the three forms of
all eight operations at once, differences as numbers, and the rotates as turns of a ring of bits. -/

namespace Sys2Proof.Machine

/-! The three forms of an accumulator operation. -/

namespace AluOp

/-- The operation number `ppp` (46_b_alu_rotate.md R280). -/
def number : AluOp → Nat
  | .ad => 0
  | .ac => 1
  | .su => 2
  | .sb => 3
  | .nd => 4
  | .xr => 5
  | .or => 6
  | .cp => 7

/-- The instruction with a register operand. -/
def regForm : AluOp → RegB → Instr
  | .ad => .bADr
  | .ac => .bACr
  | .su => .bSUr
  | .sb => .bSBr
  | .nd => .bNDr
  | .xr => .bXRr
  | .or => .bORr
  | .cp => .bCPr

/-- The instruction with the memory operand. -/
def memForm : AluOp → Instr
  | .ad => .bADM
  | .ac => .bACM
  | .su => .bSUM
  | .sb => .bSBM
  | .nd => .bNDM
  | .xr => .bXRM
  | .or => .bORM
  | .cp => .bCPM

/-- The instruction with an immediate operand. -/
def immForm : AluOp → Byte → Instr
  | .ad => .bADI
  | .ac => .bACI
  | .su => .bSUI
  | .sb => .bSBI
  | .nd => .bNDI
  | .xr => .bXRI
  | .or => .bORI
  | .cp => .bCPI

variable (op : AluOp)

theorem exec_regForm (r : RegB) (s : State) : exec (op.regForm r) s = aluReg op r s := by
  cases op <;> rfl

theorem exec_memForm (s : State) : exec op.memForm s = aluMem op s := by
  cases op <;> rfl

theorem exec_immForm (i8 : Byte) (s : State) : exec (op.immForm i8) s = aluImm op i8 s := by
  cases op <;> rfl

theorem opcode_regForm (r : RegB) :
    (op.regForm r).opcode = BitVec.ofNat 8 (0x80 + 8 * op.number + regNumber r) := by
  cases op <;> exact srcOpcode_eq_ofNat _ r

theorem operands_regForm (r : RegB) : (op.regForm r).operands = [] := by
  cases op <;> rfl

theorem encode_memForm : encode op.memForm = [BitVec.ofNat 8 (0x80 + 8 * op.number + 7)] := by
  cases op <;> rfl

theorem encode_immForm (i8 : Byte) : encode (op.immForm i8) = [BitVec.ofNat 8 (8 * op.number + 4), i8] := by
  cases op <;> rfl

/-- Every accumulator operation has its three forms, whatever its end is called (R281). -/
theorem aluForms {k : State → Byte → State} (hk : ∀ u v, u.setB (u.b.alu op v) = k u v) :
    AluForms op.number op.regForm op.memForm op.immForm k := by
  refine ⟨fun r s => ?register, op.encode_immForm, fun i8 s => ?immediate, op.encode_memForm, fun s => ?memory⟩
  case register =>
    refine runsAs (op.operands_regForm r) (op.opcode_regForm r) ?_
    rw [exec_regForm, ← hk]
    rfl
  case immediate => rw [exec_immForm, aluImm, hk]
  case memory =>
    rw [exec_memForm]
    exact readM_loads s _ fun v => hk _ v

/-- An operation that stores its result ends with that result and its carry (R280). -/
theorem setB_alu_of_stores {op : AluOp} (h : op.stores = true) (u : State) (v : Byte) :
    u.setB (u.b.alu op v) = aluEnd u (aluCompute op u.b.x[0] v u.b.fC).1 (aluCompute op u.b.x[0] v u.b.fC).2 := by
  rw [aluEnd, ← CpuB.setZSP_eq_withZSP, CpuB.alu_eq, if_pos h]
  rfl

/-- The forms of an operation that stores its result, with result and carry known otherwise. -/
theorem aluForms_of_stores {op : AluOp} (h : op.stores = true) {r : State → Byte → Byte} {c : State → Byte → Bool}
    (hrc : ∀ u v, aluCompute op u.b.x[0] v u.b.fC = (r u v, c u v)) :
    AluForms op.number op.regForm op.memForm op.immForm fun u v => aluEnd u (r u v) (c u v) :=
  op.aluForms fun u v => by rw [setB_alu_of_stores h, hrc]

end AluOp

/-! Differences. -/

/-- The difference in unbounded integers, and its borrow (R282, R286). -/
theorem subByte_eq (a v : Byte) (c : Bool) :
    subByte a v c = (BitVec.ofInt 8 ((a.toNat : Int) - v.toNat - c.toNat), decide (a.toNat < v.toNat + c.toNat)) := by
  have hv := v.isLt
  have hc := c.toNat_le
  refine Prod.ext (BitVec.eq_of_toNat_eq ?_) rfl
  simp only [subByte, BitVec.toNat_ofNat, BitVec.toNat_ofInt]
  omega

theorem subByte_false (a v : Byte) :
    subByte a v false = (BitVec.ofInt 8 ((a.toNat : Int) - v.toNat), decide (a.toNat < v.toNat)) := by
  simp [subByte_eq]

/-- A difference of bytes is zero only if they are equal (R290). -/
theorem toNat_ofInt_sub_eq_zero_iff (a v : Byte) :
    (BitVec.ofInt 8 ((a.toNat : Int) - v.toNat)).toNat = 0 ↔ a = v := by
  have ha := a.isLt
  have hv := v.isLt
  rw [BitVec.toNat_eq, BitVec.toNat_ofInt]
  omega

/-- Settles O53: the sums are the model's own, the differences are known as integers. -/
theorem bArithmetic : Obligations.BArithmetic := by
  refine ⟨?ad, ?ac, ?su, ?sb⟩
  case ad => exact AluOp.aluForms_of_stores (op := .ad) rfl fun _ _ => rfl
  case ac => exact AluOp.aluForms_of_stores (op := .ac) rfl fun _ _ => rfl
  case su => exact AluOp.aluForms_of_stores (op := .su) rfl fun u v => subByte_false u.b.x[0] v
  case sb => exact AluOp.aluForms_of_stores (op := .sb) rfl fun u v => subByte_eq u.b.x[0] v u.b.fC

/-- Compare leaves the registers, and its zero flag says that the operands are equal (R290). -/
theorem setB_alu_cp (u : State) (v : Byte) :
    u.setB (u.b.alu .cp v) =
      { u with b := { u.b.withZSP (BitVec.ofInt 8 ((u.b.x[0].toNat : Int) - v.toNat)) with
        fC := decide (u.b.x[0].toNat < v.toNat), fZ := decide (u.b.x[0] = v) } } := by
  have hcompute : aluCompute .cp (u.b.reg .A) v u.b.fC = _ := subByte_false u.b.x[0] v
  have hzero := toNat_ofInt_sub_eq_zero_iff u.b.x[0] v
  rw [CpuB.alu_eq, hcompute, zeroFlag_eq, signFlag_eq, parityFlag_eq, decide_eq_decide.mpr hzero]
  rfl

/-- Settles O54: the logical operations are the model's own, and compare is a difference that is not stored. -/
theorem bLogicAndCompare : Obligations.BLogicAndCompare := by
  refine ⟨?nd, ?xr, ?or, ?cp⟩
  case nd => exact AluOp.aluForms_of_stores (op := .nd) rfl fun _ _ => rfl
  case xr => exact AluOp.aluForms_of_stores (op := .xr) rfl fun _ _ => rfl
  case or => exact AluOp.aluForms_of_stores (op := .or) rfl fun _ _ => rfl
  case cp => exact AluOp.aluForms .cp setB_alu_cp

/-! The rotates as numbers. -/

theorem topBit_eq (t : Byte) : t.getLsbD 7 = decide (128 ≤ t.toNat) := signFlag_eq t

theorem topBit_toNat (t : Byte) : (t.getLsbD 7).toNat = t.toNat / 128 := by
  have hbit : (t.getLsbD 7).toNat = t.toNat / 128 % 2 := Nat.toNat_testBit t.toNat 7
  have ht := t.isLt
  omega

theorem lowBit_eq (t : Byte) : t.getLsbD 0 = decide (t.toNat % 2 = 1) := t.toNat.testBit_zero

theorem lowBit_toNat (t : Byte) : (t.getLsbD 0).toNat = t.toNat % 2 := by
  have hbit : (t.getLsbD 0).toNat = t.toNat / 1 % 2 := Nat.toNat_testBit t.toNat 0
  rwa [Nat.div_one] at hbit

theorem rotLeftByte_eq (t : Byte) (c : Bool) :
    rotLeftByte t c = (BitVec.ofNat 8 (2 * (t.toNat % 128) + c.toNat), decide (128 ≤ t.toNat)) := by
  rw [rotLeftByte, append_eq_ofNat, topBit_eq]
  simp [Nat.mul_comm]

theorem rotRightByte_eq (t : Byte) (c : Bool) :
    rotRightByte t c = (BitVec.ofNat 8 (128 * c.toNat + t.toNat / 2), decide (t.toNat % 2 = 1)) := by
  have hhalf : t.toNat / 2 % 128 = t.toNat / 2 := Nat.mod_eq_of_lt (by omega)
  rw [rotRightByte, append_eq_ofNat, lowBit_eq]
  simp [Nat.mul_comm, Nat.shiftRight_eq_div_pow, hhalf]

/-- The vacated bit takes the bit shifted out (R295). -/
theorem rotLeftByte_topBit (t : Byte) :
    rotLeftByte t (t.getLsbD 7) =
      (BitVec.ofNat 8 (2 * (t.toNat % 128) + t.toNat / 128), decide (128 ≤ t.toNat)) := by
  rw [rotLeftByte_eq, topBit_toNat]

/-- The vacated bit takes the bit shifted out (R296). -/
theorem rotRightByte_lowBit (t : Byte) :
    rotRightByte t (t.getLsbD 0) =
      (BitVec.ofNat 8 (128 * (t.toNat % 2) + t.toNat / 2), decide (t.toNat % 2 = 1)) := by
  rw [rotRightByte_eq, lowBit_toNat]

/-- A rotate whose result and bit shifted out, `q`, are known otherwise (R294). -/
theorem runsAs_setRotate {i : Instr} {s : State} {b : Nat} {p q : Byte × Bool} (hops : i.operands = [])
    (hb : i.opcode = BitVec.ofNat 8 b) (hexec : exec i s = .next (s.setB (s.b.setRotate p))) (hpq : p = q) :
    RunsAs i s b { s with b := { s.b with x := s.b.x.set 0 q.1, fC := q.2 } } :=
  runsAs hops hb (hpq ▸ hexec)

/-! The rotates as rings. -/

/-- A map that turns a ring of `n + 1` bits by one position keeps every bit in `n + 1` turns. -/
theorem bits_iterate_of_turn {α : Type} {n : Nat} {bits : α → Fin (n + 1) → Bool} {g : α → α}
    (hturn : ∀ p k, bits (g p) k = bits p (k - 1)) (p : α) : bits (g^[n + 1] p) = bits p := by
  have hturns (m : Nat) : ∀ k, bits (g^[m] p) k = bits p (k - m • 1) := by
    induction m with
    | zero => simp
    | succ m ih =>
      intro k
      rw [Function.iterate_succ_apply', hturn, ih, succ_nsmul', sub_sub]
  have hfull : (n + 1) • (1 : Fin (n + 1)) = 0 := by
    simpa using card_nsmul_eq_zero (x := (1 : Fin (n + 1)))
  funext k
  rw [hturns, hfull, sub_zero]

/-- One position back in a ring, as a number. -/
theorem val_sub_one_eq {n : Nat} (k : Fin (n + 1)) : (k - 1).val = if k.val = 0 then n else k.val - 1 := by
  simp only [Fin.coe_sub_one, Fin.val_eq_zero_iff]

/-- Every bit of a byte rotated left comes from its right neighbour, the vacated one from `c`. -/
theorem rotLeftByte_getLsbD (t : Byte) (c : Bool) {k : Nat} (hk : k < 8) :
    (rotLeftByte t c).1.getLsbD k = if k = 0 then c else t.getLsbD (k - 1) := by
  rw [rotLeftByte, BitVec.getLsbD_append]
  simp only [Nat.lt_one_iff, BitVec.getLsbD_extractLsb', BitVec.getLsbD_ofBool, Nat.zero_add]
  split
  · simp [*]
  · simp [show k - 1 < 7 by omega]

/-- RLC as a map of `A` and `fC`: the vacated bit takes the bit shifted out (R295). -/
def rotLeftCircular (p : Byte × Bool) : Byte × Bool := rotLeftByte p.1 (p.1.getLsbD 7)

/-- Eight turns of the ring of the bits of `A` are a full turn (R295). -/
theorem rotLeftCircular_eight (p : Byte × Bool) : (rotLeftCircular^[8] p).1 = p.1 := by
  have hturn : ∀ (p : Byte × Bool) (k : Fin 8),
      (rotLeftCircular p).1.getLsbD k = p.1.getLsbD (k - 1 : Fin 8).val := by
    intro p k
    rw [rotLeftCircular, rotLeftByte_getLsbD _ _ k.isLt, val_sub_one_eq]
    split <;> rfl
  have hbits := bits_iterate_of_turn (bits := fun p (k : Fin 8) => p.1.getLsbD k) hturn p
  exact BitVec.eq_of_getLsbD_eq fun i hi => congrFun hbits ⟨i, hi⟩

/-- `A` and `fC` as a ring of nine bits, the carry on top (R297). -/
def ringBit (p : Byte × Bool) (k : Fin 9) : Bool := if k.val = 8 then p.2 else p.1.getLsbD k

theorem ringBit_injective : Function.Injective ringBit := by
  intro p q h
  refine Prod.ext (BitVec.eq_of_getLsbD_eq fun i hi => ?_) (congrFun h 8)
  simpa [ringBit, Nat.ne_of_lt hi] using congrFun h ⟨i, Nat.lt_succ_of_lt hi⟩

/-- RAL turns the ring by one position: `fC` goes to bit 0 and bit 7 to `fC`. -/
theorem ringBit_rotLeftByte (p : Byte × Bool) (k : Fin 9) :
    ringBit (rotLeftByte p.1 p.2) k = ringBit p (k - 1) := by
  simp only [ringBit, val_sub_one_eq]
  by_cases htop : k.val = 8
  · simp [htop, rotLeftByte]
  · rw [if_neg htop, rotLeftByte_getLsbD _ _ (by omega)]
    split
    · rfl
    · rw [if_neg (by omega)]

/-- Nine turns of the ring of `A` and `fC` are a full turn (R297). -/
theorem rotLeftByte_nine (p : Byte × Bool) : (Function.uncurry rotLeftByte)^[9] p = p :=
  ringBit_injective (bits_iterate_of_turn ringBit_rotLeftByte p)

/-! Runs of a rotate. -/

namespace CpuB

theorem setRotate_self (c : CpuB) : c.setRotate (c.reg .A, c.fC) = c := by
  simp [setRotate, setReg, reg]

theorem setRotate_setRotate (c : CpuB) (p q : Byte × Bool) : (c.setRotate p).setRotate q = c.setRotate q := by
  simp [setRotate, setReg]

theorem reg_setRotate (c : CpuB) (p : Byte × Bool) : (c.setRotate p).reg .A = p.1 := by
  simp [reg]

end CpuB

/-- A rotate that passes `A` and `fC` through `g` passes them through the iterate of `g` in `n` runs: each run commutes
with one pass. -/
theorem iterate_of_rotate {f : State → Result} {g : Byte × Bool → Byte × Bool}
    (h : ∀ s, f s = .next (s.setB (s.b.setRotate (g (s.b.reg .A, s.b.fC))))) (n : Nat) (s : State) :
    iterate f n s = some (s.setB (s.b.setRotate (g^[n] (s.b.reg .A, s.b.fC)))) := by
  have hpass : Function.Semiconj (fun p => s.setB (s.b.setRotate p)) g
      (fun t => t.setB (t.b.setRotate (g (t.b.reg .A, t.b.fC)))) := by
    intro p
    simp only [State.setB, CpuB.reg_setRotate, CpuB.setRotate_setRotate, CpuB.setRotate_fC]
  have hruns := hpass.iterate_right n (s.b.reg .A, s.b.fC)
  rw [iterate_of_next h, hruns]
  simp only [CpuB.setRotate_self]
  rfl

/-- Settles O55: the results as numbers, eight turns of the ring of `A`, and nine of the ring of `A` and `fC`. -/
theorem bRotates : Obligations.BRotates := by
  refine fun s => ⟨?rlc, ?rrc, ?ral, ?rar, ?eight, ?nine⟩
  case rlc => exact runsAs_setRotate rfl rfl rfl (rotLeftByte_topBit s.b.x[0])
  case rrc => exact runsAs_setRotate rfl rfl rfl (rotRightByte_lowBit s.b.x[0])
  case ral => exact runsAs_setRotate rfl rfl rfl (rotLeftByte_eq _ _)
  case rar => exact runsAs_setRotate rfl rfl rfl (rotRightByte_eq _ _)
  case eight =>
    refine ⟨_, iterate_of_rotate (g := rotLeftCircular) (fun _ => rfl) 8 s, ?_⟩
    rw [State.setB, CpuB.setRotate_x, rotLeftCircular_eight]
    exact Vector.set_getElem_self _
  case nine =>
    have hruns := iterate_of_rotate (f := exec .bRAL) (g := Function.uncurry rotLeftByte) (fun _ => rfl) 9 s
    rw [hruns, rotLeftByte_nine, CpuB.setRotate_self]
    rfl

end Sys2Proof.Machine
end

section
/-! PROOF. Control transfer and port I/O of variant B (47_b_control_io.md R310 to R327): opcodes with a field between
fixed bits, first bytes with don't-care bits, 14-bit targets as two operand bytes, and both outcomes of a condition. -/

namespace Sys2Proof

/-! The decoder on a first byte with don't-care bits. -/

/-- Bytes of which the first has the fixed bits of a row, and that the row reads an instruction from, decode to that
instruction: the rows exclude each other, so only the masked bits of the first byte count (30_encoding.md R143). -/
theorem decode_of_row {v : Variant} {r : DecodeRow} {n : Nat} {b : Byte} {ops : List Byte} {i : Instr}
    (hrow : (decodeRom v)[n]? = some r) (hmask : b &&& r.mask = r.fixed) (hlen : ops.length = r.len - 1)
    (hreads : r.instr b ops = some i) : decode v (b :: ops) = .ok (i, []) := by
  have hr : r ∈ decodeRom v := List.mem_of_getElem? hrow
  have hanswers : (r.build b 0 0).isSome = true := by
    rw [DecodeRow.build_isSome hr _ _ _ (ops.getD 0 0) (ops.getD 1 0), ← DecodeRow.instr, hreads]
    rfl
  have haccepts : r.accepts b = true := by
    rw [DecodeRow.accepts, hmask, hanswers, beq_self_eq_true, Bool.and_self]
  exact decode_eq_ok_iff.mpr ⟨b, ops, r, by rw [List.append_nil], findRow_of_accepts hr haccepts, hlen, hreads⟩

/-- The target `hi[5:0] :: lo` as a number (30_encoding.md R142). -/
theorem target14_eq_ofNat (lo hi : Byte) :
    target14 lo hi = BitVec.ofNat 14 (hi.toNat % 64 * 256 + lo.toNat) := by
  have hhigh : (hi.extractLsb' 0 6).toNat = hi.toNat % 64 := BitVec.extractLsb'_toNat _ _ _
  rw [target14, Machine.append_eq_ofNat, hhigh]
  rfl

end Sys2Proof

namespace Sys2Proof.Machine

/-- A field between fixed bits adds its number, at its place, to the byte in which it is 0 (30_encoding.md R141). -/
theorem append_append_eq_ofNat {m l k : Nat} (x : BitVec m) (n : BitVec l) (z : BitVec k) :
    x ++ n ++ z = BitVec.ofNat (m + l + k) ((x ++ 0#l ++ z).toNat + 2 ^ k * n.toNat) := by
  rw [append_eq_ofNat]
  simp only [toNat_append_eq, BitVec.toNat_zero]
  exact congrArg (BitVec.ofNat _) (by ring)

/-! Targets. -/

/-- The operand bytes of a target are its two halves as numbers, low byte first (20_memory.md R110). -/
theorem targetBytes_eq (a14 : PcB) :
    [a14.extractLsb' 0 8, (a14.extractLsb' 8 6).setWidth 8] = targetBytes a14 := by
  have hlow : a14.extractLsb' 0 8 = BitVec.ofNat 8 (a14.toNat % 256) := BitVec.eq_of_toNat_eq (by simp)
  have hhigh : (a14.extractLsb' 8 6).toNat = a14.toNat / 256 := by
    rw [BitVec.extractLsb'_toNat, Nat.shiftRight_eq_div_pow, Nat.mod_eq_of_lt (by omega)]
  rw [targetBytes, hlow, ← BitVec.ofNat_toNat, hhigh]

/-- A three-byte instruction is its opcode and the bytes of its target. -/
theorem encode_target14 {i : Instr} {a14 : PcB} {b : Nat} (hb : i.opcode = BitVec.ofNat 8 b)
    (hops : i.operands = [a14.extractLsb' 0 8, (a14.extractLsb' 8 6).setWidth 8]) :
    encode i = BitVec.ofNat 8 b :: targetBytes a14 := by
  rw [encode, hb, hops, targetBytes_eq]

/-- A three-byte row reads the target from any two operand bytes, whatever the don't-care bits of the first byte. -/
theorem decodesTarget_of_row {k : PcB → Instr} {r : DecodeRow} {byte : Byte} {b : Nat}
    (hrow : romB[(k 0).rowIndex]? = some r) (hbyte : byte = BitVec.ofNat 8 b) (hmask : byte &&& r.mask = r.fixed)
    (hlen : r.len = 3) (hreads : ∀ lo hi, r.build byte lo hi = some (k (target14 lo hi))) : DecodesTarget b k := by
  intro lo hi
  rw [← target14_eq_ofNat, ← hbyte]
  exact decode_of_row (v := .B) hrow hmask (by rw [hlen]; rfl) (hreads lo hi)

/-! The outcomes of a condition. -/

theorem next_ite_of_false {flag : Bool} (h : flag = false) (t u : State) :
    (.next (if flag then t else u) : Result) = .next u :=
  congrArg _ (if_neg (Bool.eq_false_iff.mp h))

theorem next_ite_of_true {flag : Bool} (h : flag = true) (t u : State) :
    (.next (if flag then t else u) : Result) = .next t :=
  congrArg _ (if_pos h)

/-- Settles O56: JMP always jumps; JFc and JTc by the value of the flag. -/
theorem bJumps : Obligations.BJumps := by
  refine fun a14 s => ⟨encode_target14 rfl rfl, fun x => ?decodeJmp, rfl, fun c => ⟨?encodeJfc, ?encodeJtc,
    ?decodeJfc, ?decodeJtc, fun h => ⟨next_ite_of_false h _ _, next_ite_of_false h _ _⟩,
    fun h => ⟨next_ite_of_true h _ _, next_ite_of_true h _ _⟩⟩⟩
  case decodeJmp =>
    exact decodesTarget_of_row rfl (append_append_eq_ofNat 0b01#2 (BitVec.ofFin x : BitVec 3) 0b100#3)
      (append_append_and_mask _ _ _) rfl fun _ _ => rfl
  case encodeJfc => exact encode_target14 (append_append_eq_ofNat _ c.bits _) rfl
  case encodeJtc => exact encode_target14 (append_append_eq_ofNat _ c.bits _) rfl
  case decodeJfc =>
    exact decodesTarget_of_row rfl (append_append_eq_ofNat 0b010#3 c.bits 0b000#3) (append_append_and_mask _ _ _) rfl
      fun _ _ => by simp
  case decodeJtc =>
    exact decodesTarget_of_row rfl (append_append_eq_ofNat 0b011#3 c.bits 0b000#3) (append_append_and_mask _ _ _) rfl
      fun _ _ => by simp

/-! Calls and returns. -/

/-- `Push(pc); pc <- target` is a call that is taken (10_state.md R32). -/
theorem callsB_of_next {r : Result} {s : State} {target : PcB} (h : r = .next (s.callB target)) :
    CallsB r s target :=
  ⟨s.b.stk.push s.b.pc, s.b.stk.push_pushedStack s.b.pc, h⟩

/-- The vector of RST `n` (R324). -/
theorem restartTarget_eq_ofNat (n : BitVec 3) : n.setWidth 14 <<< 3 = BitVec.ofNat 14 (8 * n.toNat) := by
  apply BitVec.eq_of_toNat_eq
  simp only [BitVec.toNat_shiftLeft, BitVec.toNat_setWidth, BitVec.toNat_ofNat, Nat.shiftLeft_eq]
  omega

/-- Settles O57: CAL and RST are taken always, CFc and CTc by the value of the flag. -/
theorem bCallsAndRestart : Obligations.BCallsAndRestart := by
  refine fun s => ⟨fun a14 => ⟨encode_target14 rfl rfl, callsB_of_next rfl⟩, fun x => ?decodeCal,
    fun c a14 => ⟨?encodeCfc, ?encodeCtc, ?decodeCfc, ?decodeCtc,
      fun h => ⟨callsB_of_next (next_ite_of_false h _ _), next_ite_of_false h _ _⟩,
      fun h => ⟨callsB_of_next (next_ite_of_true h _ _), next_ite_of_true h _ _⟩⟩,
    fun n => ⟨?encodeRst, ?rst⟩⟩
  case decodeCal =>
    exact decodesTarget_of_row rfl (append_append_eq_ofNat 0b01#2 (BitVec.ofFin x : BitVec 3) 0b110#3)
      (append_append_and_mask _ _ _) rfl fun _ _ => rfl
  case encodeCfc => exact encode_target14 (append_append_eq_ofNat _ c.bits _) rfl
  case encodeCtc => exact encode_target14 (append_append_eq_ofNat _ c.bits _) rfl
  case decodeCfc =>
    exact decodesTarget_of_row rfl (append_append_eq_ofNat 0b010#3 c.bits 0b010#3) (append_append_and_mask _ _ _) rfl
      fun _ _ => by simp
  case decodeCtc =>
    exact decodesTarget_of_row rfl (append_append_eq_ofNat 0b011#3 c.bits 0b010#3) (append_append_and_mask _ _ _) rfl
      fun _ _ => by simp
  case encodeRst => exact congrArg (· :: []) (append_append_eq_ofNat _ n _)
  case rst =>
    rw [← restartTarget_eq_ofNat]
    exact callsB_of_next rfl

/-- A return that is taken, by the two outcomes of the pop (10_state.md R33). -/
theorem returnsB_of_next {r : Result} {s : State} (h : r = .next s.returnB) : ReturnsB r s := by
  subst h
  rcases s.returnB_cases with ⟨hpop, hend⟩ | ⟨v, k, hpop, hend⟩
  case inl =>
    have hempty := CallStack.pop_eq_none_iff.mp hpop
    exact ⟨fun _ _ => congrArg _ hend, fun hne => by omega⟩
  case inr =>
    obtain ⟨hne, -⟩ := CallStack.pop_some hpop
    exact ⟨fun hsp hnest => absurd ⟨hsp, hnest⟩ hne,
      fun _ => ⟨k, v, CallStack.poppedStack_of_pop hpop, congrArg _ hend⟩⟩

/-- Settles O58: RET is taken always, RFc and RTc by the value of the flag. -/
theorem bReturns : Obligations.BReturns := by
  refine fun s => ⟨rfl, fun x => ?decodeRet, returnsB_of_next rfl, fun c => ⟨?encodeRfc, ?encodeRtc,
    fun h => ⟨returnsB_of_next (next_ite_of_false h _ _), next_ite_of_false h _ _⟩,
    fun h => ⟨returnsB_of_next (next_ite_of_true h _ _), next_ite_of_true h _ _⟩⟩⟩
  case decodeRet =>
    have hbyte : _ = BitVec.ofNat 8 (7 + 8 * x.val) :=
      append_append_eq_ofNat 0b00#2 (BitVec.ofFin x : BitVec 3) 0b111#3
    rw [← hbyte]
    exact decode_of_row (v := .B) (n := Instr.bRET.rowIndex) rfl (append_append_and_mask _ _ _) rfl rfl
  case encodeRfc => exact congrArg (· :: []) (append_append_eq_ofNat _ c.bits _)
  case encodeRtc => exact congrArg (· :: []) (append_append_eq_ofNat _ c.bits _)

/-! Ports. -/

/-- Settles O59: INP loads the answer of its one port read, OUT makes one port write of `A`. -/
theorem bInputOutput : Obligations.BInputOutput := by
  refine fun s => ⟨fun n => ⟨?encodeInp, ?load⟩, fun n _ => ⟨?encodeOut, ?store⟩⟩
  case encodeInp => exact congrArg (· :: []) (append_append_eq_ofNat _ n _)
  case load =>
    have hexec : exec (.bINP n) s =
        onRead (busReadPort (n.setWidth 16) s) fun v t => t.setB (t.b.setReg .A v) := rfl
    rw [hexec, busReadPort_eq, BitVec.ofNat_toNat]
    exact onRead_loads fun _ => rfl
  case encodeOut => exact congrArg (· :: []) (append_append_eq_ofNat _ n _)
  case store =>
    rw [BitVec.ofNat_toNat]
    exact onWrite_port s (n.setWidth 16) s.b.x[0]

end Sys2Proof.Machine
end

section
/-! PROOF. The typed errors and the end of the run (60_exceptions.md R340 to R354): how an instruction can end, the
first bytes that raise InvalidOpcode, and the checks of the run loop. -/

namespace Sys2Proof

/-! The instructions that raise InvalidOpcode. -/

/-- The rows that raise InvalidOpcode under every parameter: the illegal bytes of both variants and WPM (30_encoding.md
R135, R144; 42_a_pair_and_ram.md R249). -/
def Instr.isIllegal : Instr → Bool
  | .aWpm | .aIllegalLow _ | .aIllegalHigh _ | .bIllegalIncDec _ | .bIllegalRotate _ => true
  | _ => false

/-- The instruction raises InvalidOpcode when `A_ADMIT_UNNAMED` has this value (60_exceptions.md R344). -/
def Instr.rejected (allowed : Bool) (i : Instr) : Bool := i.isIllegal || (!allowed && i.isUnnamed)

/-- The byte that the instruction raises InvalidOpcode with, if it does. -/
def Instr.rejectedByte (allowed : Bool) (i : Instr) : Option Byte :=
  if i.rejected allowed then some i.opcode else none

theorem Instr.rejectedByte_eq_some_iff {allowed : Bool} {i : Instr} {b : Byte} :
    i.rejectedByte allowed = some b ↔ i.rejected allowed = true ∧ i.opcode = b := by
  simp [rejectedByte]

theorem Instr.operands_of_rejected {allowed : Bool} {i : Instr} (h : i.rejected allowed = true) : i.operands = [] := by
  rcases Bool.or_eq_true_iff.mp h with hillegal | hunnamed
  · cases i with
    | aWpm | aIllegalLow | aIllegalHigh | bIllegalIncDec | bIllegalRotate => rfl
    | _ => cases hillegal
  · have hencode := Machine.encode_of_isUnnamed (Bool.and_eq_true_iff.mp hunnamed).2
    exact (List.cons.inj hencode).2

/-- Operand bytes do not change whether what a row reads is rejected, nor with which byte. -/
theorem DecodeRow.bind_rejectedByte {v : Variant} {r : DecodeRow} (h : r ∈ decodeRom v) (allowed : Bool)
    (b x y : Byte) :
    (r.build b x y).bind (Instr.rejectedByte allowed) = (r.build b 0 0).bind (Instr.rejectedByte allowed) := by
  revert r
  cases v <;> simp only [decodeRom, romA, romB, romA1, romA2, romA3, romA4, romB1, romB2, romB3, romB4,
    List.cons_append, List.nil_append, List.forall_mem_cons]
  · simp [Instr.rejectedByte, Instr.rejected, Instr.isIllegal, Instr.isUnnamed]
  · simp [Instr.rejectedByte, Instr.rejected, Instr.isIllegal, Instr.isUnnamed, Option.bind_map, Function.comp_def]

/-- The rows that raise InvalidOpcode are those of the listed first bytes, and raise it with that byte
(60_exceptions.md R344). -/
theorem rejectedByte_of_findRow (c : MachineConfig) (b : Byte) :
    ((findRow c.variant b).bind fun r => r.build b 0 0).bind (Instr.rejectedByte c.params.admitUnnamed) =
      if Machine.invalidByte c b then some b else none := by
  cases hv : c.variant <;> cases hadmit : c.params.admitUnnamed <;> simp only [Machine.invalidByte, hv, hadmit] <;>
    revert b <;> decide

/-- What the decoder reads from a listed first byte is rejected with that byte, and no other instruction is. -/
theorem rejectedByte_of_decode {c : MachineConfig} {b : Byte} {ops rest : List Byte} {i : Instr}
    (h : decode c.variant (b :: ops) = .ok (i, rest)) :
    i.rejectedByte c.params.admitUnnamed = if Machine.invalidByte c b then some b else none := by
  obtain ⟨_, operands, r, hbytes, hr, -, hi⟩ := decode_eq_ok_iff.mp h
  obtain ⟨rfl, -⟩ := List.cons.inj hbytes
  have hrow := DecodeRow.bind_rejectedByte (List.mem_of_find?_eq_some hr) c.params.admitUnnamed b (operands.getD 0 0)
    (operands.getD 1 0)
  have hbyte := rejectedByte_of_findRow c b
  rwa [hr, Option.bind_some, ← hrow, ← DecodeRow.instr, hi] at hbyte

/-- A listed first byte is an instruction on its own. -/
theorem decode_of_invalidByte {c : MachineConfig} {b : Byte} (h : Machine.invalidByte c b = true) :
    ∃ i, decode c.variant [b] = .ok (i, []) ∧ i.rejected c.params.admitUnnamed = true ∧ i.opcode = b := by
  obtain ⟨r, hr, -, -, hreads⟩ := findRow_reads c.variant b
  obtain ⟨i, hi⟩ := hreads []
  have hbuild : r.build b 0 0 = some i := hi
  have hbyte := rejectedByte_of_findRow c b
  rw [hr, Option.bind_some, if_pos h, hbuild] at hbyte
  obtain ⟨hrejected, hopcode⟩ := Instr.rejectedByte_eq_some_iff.mp hbyte
  have hlen := DecodeRow.build_operands_length (List.mem_of_find?_eq_some hr) b 0 0
  rw [hbuild, Option.all_some, Instr.operands_of_rejected hrejected] at hlen
  exact ⟨i, decode_eq_ok_iff.mpr ⟨b, [], r, rfl, hr, eq_of_beq hlen, hi⟩, hrejected, hopcode⟩

end Sys2Proof

namespace Sys2Proof.Machine

theorem exec_of_rejected {i : Instr} {s : State} (h : i.rejected s.cfg.params.admitUnnamed = true) :
    exec i s = .next { s with err := some (.invalidOpcode i.opcode) } := by
  rcases Bool.or_eq_true_iff.mp h with hillegal | hunnamed
  · cases i with
    | aWpm | aIllegalLow | aIllegalHigh | bIllegalIncDec | bIllegalRotate => rfl
    | _ => cases hillegal
  · obtain ⟨hadmit, hi⟩ := Bool.and_eq_true_iff.mp hunnamed
    exact exec_of_isUnnamed hi (by simpa using hadmit)

/-! How an instruction ends, as far as errors go. -/

@[simp] theorem afterAccess_err (i : Instr) (s : State) : (afterAccess i s).err = s.err := by
  unfold afterAccess
  split_ifs <;> rfl

/-- How the instruction `i` can end when it begins in `s`: no error is raised, or one with nothing changed but by the
translation of the one Bus access that reports it (60_exceptions.md R346, R348, R354). -/
inductive PreciseEnd (i : Instr) (s : State) : State → Prop where
  | quiet {t : State} (h : t.err = s.err) : PreciseEnd i s t
  | rejected (h : i.rejected s.cfg.params.admitUnnamed = true) : PreciseEnd i s (s.raise (.invalidOpcode i.opcode))
  | underflow : PreciseEnd i s (s.raise .stackUnderflow)
  | access {e : TypedError} (h : e = .readOnly ∨ e = .notImplemented) : PreciseEnd i s ((afterAccess i s).raise e)

namespace PreciseEnd

variable {i : Instr} {s t u : State}

theorem ite {c : Prop} [Decidable c] (ht : PreciseEnd i s t) (hu : PreciseEnd i s u) :
    PreciseEnd i s (if c then t else u) := by
  split
  · exact ht
  · exact hu

theorem returnA (i : Instr) (s : State) (d : Nibble) : PreciseEnd i s (s.returnA d) := by
  rcases s.returnA_cases d with ⟨-, h⟩ | ⟨_, _, -, h⟩ <;> rw [h]
  · exact .underflow
  · exact .quiet rfl

theorem returnB (i : Instr) (s : State) : PreciseEnd i s s.returnB := by
  rcases s.returnB_cases with ⟨-, h⟩ | ⟨_, _, -, h⟩ <;> rw [h]
  · exact .underflow
  · exact .quiet rfl

end PreciseEnd

/-- The result is a next state, in which `i` begun in `s` can end. -/
def EndsPrecisely (i : Instr) (s : State) (r : Result) : Prop := ∃ t, r = .next t ∧ PreciseEnd i s t

namespace EndsPrecisely

variable {i : Instr} {s t : State} {r q : Result}

theorem next (h : PreciseEnd i s t) : EndsPrecisely i s (.next t) := ⟨t, rfl, h⟩

theorem quiet (h : t.err = s.err) : EndsPrecisely i s (.next t) := next (.quiet h)

theorem ite {c : Prop} [Decidable c] (hr : EndsPrecisely i s r) (hq : EndsPrecisely i s q) :
    EndsPrecisely i s (if c then r else q) := by
  split
  · exact hr
  · exact hq

theorem ofRejected (h : i.rejected s.cfg.params.admitUnnamed = true) : EndsPrecisely i s (exec i s) :=
  exec_of_rejected h ▸ next (.rejected h)

theorem ofAdmitted (hi : i.isUnnamed = true) (h : EndsPrecisely i s r) : EndsPrecisely i s (admitted i s r) := by
  rcases admitted_cases i s r with ⟨-, g⟩ | ⟨hs, g⟩ <;> rw [g]
  · exact h
  · exact next (.rejected (by simp [Instr.rejected, hs, hi]))

/-- An instruction that goes on with what its one access answers. -/
theorem ofRead {ans : Option Byte} {k : Byte → State → State} (ht : afterAccess i s = t)
    (hk : ∀ v u, (k v u).err = u.err) : EndsPrecisely i s (onRead (answerOf ans, t) k) := by
  subst ht
  cases ans with
  | some v => exact quiet ((hk v _).trans (afterAccess_err i s))
  | none => exact next (.access (.inr rfl))

theorem ofReadMem {a : Addr} {f : Option DevKind} {k : Byte → State → State} (hi : afterAccess i s = translated s a)
    (hk : ∀ v u, (k v u).err = u.err) : EndsPrecisely i s (onRead (busReadMem a f s) k) := by
  rw [busReadMem_eq]
  exact ofRead hi hk

theorem ofReadM {k : Byte → State → State} (hi : afterAccess i s = translated s (memAddrB s))
    (hk : ∀ v u, (k v u).err = u.err) : EndsPrecisely i s (readM s k) := ofReadMem hi hk

theorem ofAluMem {op : AluOp} (hi : afterAccess i s = translated s (memAddrB s)) : EndsPrecisely i s (aluMem op s) :=
  ofReadM hi fun _ _ => rfl

theorem ofReadPort {p : Addr} {k : Byte → State → State} (hi : afterAccess i s = { s with tick := s.tick + 1 })
    (hk : ∀ v u, (k v u).err = u.err) : EndsPrecisely i s (onRead (busReadPort p s) k) := by
  rw [busReadPort_eq]
  exact ofRead hi hk

theorem ofReadStatus {n : Nat} (hn : n ≤ 3) (hi : afterAccess i s = translated s (statusAddr s)) :
    EndsPrecisely i s (readStatusToAcc n s) := by
  rw [readStatusToAcc, busReadStatus_eq _ hn]
  exact ofRead hi fun _ _ => rfl

/-- An instruction that ends with its one write access. -/
theorem ofWrite {a : Answer Unit × State} (hquiet : a.2.err = s.err)
    (herror : ∀ e, a.1 = .error e → a.2 = afterAccess i s ∧ (e = .readOnly ∨ e = .notImplemented)) :
    EndsPrecisely i s (onWrite a) := by
  rcases onWrite_next a with g | ⟨e, he, -, g⟩ <;> rw [g]
  · exact quiet hquiet
  · obtain ⟨hstate, he⟩ := herror e he
    rw [hstate]
    exact next (.access he)

theorem ofWriteMem {a : Addr} {v : Byte} {f : Option DevKind} (hi : afterAccess i s = translated s a) :
    EndsPrecisely i s (onWrite (busWriteMem a v f s)) := by
  refine ofWrite ?_ fun e he => hi ▸ busWriteMem_error he
  rcases busWriteMem_state a v f s with h | ⟨_, _, _, _, -, -, -, h⟩ | ⟨_, _, _, -, -, -, h⟩ <;> rw [h]
  rfl

theorem ofWriteStatus {n : Nat} (hn : n ≤ 3) (hi : afterAccess i s = translated s (statusAddr s)) :
    EndsPrecisely i s (writeStatusFromAcc n s) := by
  refine ofWrite ?_ fun e he => hi ▸ busWriteStatus_error hn he
  rcases busWriteStatus_state (statusAddr s) n (s.a.acc.setWidth 8) (some .ram) s with h | ⟨_, _, _, -, -, -, h⟩ <;>
    rw [h]

theorem ofWritePort {p : Addr} {v : Byte} (hi : afterAccess i s = { s with tick := s.tick + 1 }) :
    EndsPrecisely i s (onWrite (busWritePort p v s)) := by
  refine ofWrite ?_ fun e he => hi ▸ (busWritePort_error he).imp_right .inr
  rcases busWritePort_state p v s with h | ⟨_, _, -, -, -, h⟩ <;> rw [h]
  rfl

end EndsPrecisely

/-- Every instruction answers a next state, and an error that it raises is precise. -/
theorem exec_endsPrecisely (i : Instr) (s : State) : EndsPrecisely i s (exec i s) := by
  cases i with
  | aNop | aLdm | aLd | aXch | aInc | aClb | aClc | aCmc | aTcc | aTcs | aStc | aJin =>
    exact .ofAdmitted rfl (.quiet rfl)
  | aAdd | aSub | aIac | aCma | aRal | aRar | aDac | aKbp | aDcl | aFim | aSrc | aJun | aJms => exact .quiet rfl
  | aJcn | aIsz | aDaa => exact .ite (.quiet rfl) (.quiet rfl)
  | aBbl d => exact .next (.returnA _ s d)
  | aFin => exact .ofAdmitted rfl (.ofReadMem rfl fun _ _ => rfl)
  | aRdr => exact .ofAdmitted rfl (.ofReadPort rfl fun _ _ => rfl)
  | aRdm | aAdm | aSbm => exact .ofReadMem rfl fun _ _ => rfl
  | aRd0 | aRd1 | aRd2 | aRd3 => exact .ofReadStatus (by decide) rfl
  | aWrm | bLMr | bLMI => exact .ofWriteMem rfl
  | aWr0 | aWr1 | aWr2 | aWr3 => exact .ofWriteStatus (by decide) rfl
  | aWmp | aWrr => exact .ofAdmitted rfl (.ofWritePort rfl)
  | aWpm | aIllegalLow | aIllegalHigh | bIllegalIncDec | bIllegalRotate => exact .ofRejected rfl
  | bHltLow | bHltHigh => exact .quiet rfl
  | bLr1r2 | bLrI | bINr | bDCr | bADr | bACr | bSUr | bSBr | bNDr | bXRr | bORr | bCPr | bADI | bACI | bSUI | bSBI
  | bNDI | bXRI | bORI | bCPI | bRLC | bRRC | bRAL | bRAR | bJMP | bCAL | bRST => exact .quiet rfl
  | bLrM d => exact .ofReadM (k := fun v u => u.setB (u.b.setReg d v)) rfl fun _ _ => rfl
  | bADM | bACM | bSUM | bSBM | bNDM | bXRM | bORM | bCPM => exact .ofAluMem rfl
  | bJFc | bJTc | bCFc | bCTc => exact .next (.ite (.quiet rfl) (.quiet rfl))
  | bRET => exact .next (.returnB _ s)
  | bRFc => exact .next (.ite (.quiet rfl) (.returnB _ s))
  | bRTc => exact .next (.ite (.returnB _ s) (.quiet rfl))
  | bINP => exact .ofReadPort (k := fun v u => u.setB (u.b.setReg .A v)) rfl fun _ _ => rfl
  | bOUT => exact .ofWritePort rfl

/-- Settles O18: the next state that every instruction answers. -/
theorem everyInstructionAnswersNext : Obligations.EveryInstructionAnswersNext := by
  intro i s
  obtain ⟨t, ht, -⟩ := exec_endsPrecisely i s
  exact ⟨t, ht⟩

/-! The errors of a step. -/

variable {s t u : State}

/-- The fetches of a step that answers a next state: one of them reported an error, which is raised, or they answered
the bytes of an instruction, which ends precisely. -/
theorem step_of_ready_cases (hs : Ready s) (h : step s = .next t) :
    (∃ n e u, fetchBytes s (n + 1) = (.error e, u) ∧ AfterFetches s n u ∧
      (n = 0 ∨ ∃ bs b, (fetchBytes s n).1 = .ok bs ∧ decode s.cfg.variant bs = .error (.missingOperand b)) ∧
      t = u.raise e) ∨
    ∃ bs i u, fetchBytes s bs.length = (.ok bs, u) ∧ decode s.cfg.variant bs = .ok (i, []) ∧
      AfterFetches s bs.length u ∧ PreciseEnd i u t := by
  rw [step_of_ready hs, cpuStep] at h
  rcases fetchInstr_cases s with ⟨bs, i, u, hbs, hi, -, hu, g⟩ | ⟨n, e, u, bs, w, -, hbs, hu, g, hn, -, hshort⟩ <;>
    rw [g] at h
  · obtain ⟨t', ht, hend⟩ := exec_endsPrecisely i u
    obtain rfl : t' = t := Host.Outcome.next.inj (ht.symm.trans h)
    exact .inr ⟨bs, i, u, hbs, hi, hu, hend⟩
  · cases h
    refine .inl ⟨n, e, u, hbs, hu, hshort.imp_right ?_, rfl⟩
    rintro ⟨b, hb⟩
    exact ⟨bs, b, by rw [hn], hb⟩

theorem AfterFetches.err {n : Nat} (h : AfterFetches s n u) : u.err = s.err := by
  obtain ⟨hframe, -⟩ := h
  unfold FetchFrame at hframe
  rw [hframe]

/-- Settles O16: a step that raises, by what its fetches answer and how the instruction ends. -/
theorem errorsArePrecise : Obligations.ErrorsArePrecise := by
  intro s t hs h herr
  rcases step_of_ready_cases hs h with ⟨n, e, u, hbs, hu, hshort, rfl⟩ | ⟨bs, i, u, hbs, hi, hu, hend⟩
  · exact .inl ⟨n, e, u, hbs, hu, hshort, rfl⟩
  · refine .inr ⟨bs, i, u, hbs, hi, hu, ?_⟩
    obtain ⟨-, -, hclear, -⟩ := hs
    cases hend with
    | quiet hquiet => exact absurd (hquiet.trans (hu.err.trans hclear)) herr
    | rejected => exact .inl ⟨.inr ⟨_, rfl⟩, rfl⟩
    | underflow => exact .inl ⟨.inl rfl, rfl⟩
    | access he => exact .inr ⟨he.imp (congrArg some) (congrArg some), rfl⟩

/-! The only error that a fetch reports is NotImplemented. -/

theorem fetchByte_error {e : TypedError} (h : fetchByte s = (.error e, t)) : e = .notImplemented := by
  rw [fetchByte, busReadMem_eq] at h
  cases hans : readAnswer s (fetchAddr s) (fetchFilter s.cfg.variant) <;> rw [hans] at h <;> cases h
  rfl

theorem fetchBytes_error {n : Nat} {e : TypedError} (h : fetchBytes s n = (.error e, t)) : e = .notImplemented := by
  induction n generalizing s with
  | zero => cases h
  | succ n ih =>
    rw [fetchBytes] at h
    rcases hb : fetchByte s with ⟨e' | b, u⟩
    · rw [hb] at h
      cases h
      exact fetchByte_error hb
    · rcases hrest : fetchBytes u n with ⟨e' | bs, w⟩ <;> simp only [hb, hrest] at h <;> cases h
      exact ih hrest

/-- A step that ends with InvalidOpcode has read an instruction that raises it with its own first byte. -/
theorem rejected_of_step_invalidOpcode {c : Byte} (hs : Ready s) (h : step s = .next t)
    (herr : t.err = some (.invalidOpcode c)) :
    ∃ bs i u, fetchBytes s bs.length = (.ok bs, u) ∧ decode s.cfg.variant bs = .ok (i, []) ∧
      i.rejectedByte s.cfg.params.admitUnnamed = some c := by
  rcases step_of_ready_cases hs h with ⟨n, e, u, hbs, -, -, rfl⟩ | ⟨bs, i, u, hbs, hi, hu, hend⟩
  · rw [fetchBytes_error hbs] at herr
    cases herr
  · refine ⟨bs, i, u, hbs, hi, ?_⟩
    obtain ⟨-, -, hclear, -⟩ := hs
    have hcfg := (Keeps.fetchBytes s bs.length).cfg
    rw [hbs] at hcfg
    cases hend with
    | quiet hquiet => rw [hquiet, hu.err, hclear] at herr; cases herr
    | rejected hrejected =>
      cases herr
      rw [hcfg] at hrejected
      exact Instr.rejectedByte_eq_some_iff.mpr ⟨hrejected, rfl⟩
    | underflow => cases herr
    | access he => rcases he with rfl | rfl <;> cases herr

theorem fetchBytes_one {b : Byte} (h : fetchByte s = (.ok b, t)) : fetchBytes s 1 = (.ok [b], t) :=
  fetchBytes_cons_iff.mpr ⟨t, h, rfl⟩

/-- Settles O4: a listed byte is a whole instruction that raises, and an instruction that raises has a listed byte. -/
theorem invalidOpcodesRaise : Obligations.InvalidOpcodesRaise := by
  intro s t b hs hb
  obtain ⟨-, hA, hB⟩ := fetchBytes_afterFetches (fetchBytes_one hb)
  refine ⟨fun hv => (hA hv).1, fun hv => (hB hv).1, fun hinvalid => ?raises, fun u c hu herr => ?listed⟩
  case raises =>
    obtain ⟨i, hi, hrejected, rfl⟩ := decode_of_invalidByte hinvalid
    have hcfg := (Keeps.fetchByte s).cfg
    rw [hb] at hcfg
    rw [step_of_fetchBytes (bs := [i.opcode]) hs (fetchBytes_one hb) hi]
    exact exec_of_rejected (hcfg ▸ hrejected)
  case listed =>
    obtain ⟨bs, i, w, hbs, hi, hbyte⟩ := rejected_of_step_invalidOpcode hs hu herr
    obtain ⟨b', ops, -, rfl, -⟩ := decode_eq_ok hi
    obtain ⟨_, hfirst, -⟩ := fetchBytes_cons_iff.mp hbs
    obtain rfl : b' = b := by
      rw [hb] at hfirst
      cases hfirst
      rfl
    rw [rejectedByte_of_decode hi] at hbyte
    split_ifs at hbyte with hinvalid
    exact ⟨hinvalid, (Option.some.inj hbyte).symm⟩

/-! The end of the run. -/

/-- The turn of an accepted machine whose run has ended is the fault that says why (60_exceptions.md R350). -/
theorem step_of_runEnd {f : Fault} (hqueue : s.hostQueue = []) (hconfig : s.cfg.ok = true) (hend : runEnd s = some f) :
    step s = .fault f := by
  simp only [step_idle hqueue, runTurn, configOk, hconfig, if_true, hend]

/-- Settles O7: the checks of the run loop in their order. -/
theorem runLoopEnds : Obligations.RunLoopEnds := by
  refine fun s hqueue => ⟨fun hconfig => ?refused, fun hconfig e herr => ?error, fun hconfig herr hcancel => ?cancelled,
    fun hconfig herr hcancel hhalted => step_of_halted hqueue hconfig herr hcancel hhalted⟩
  case refused => simp [step_idle hqueue, runTurn, configOk, hconfig]
  case error => exact step_of_runEnd hqueue hconfig (by simp only [runEnd, herr])
  case cancelled => exact step_of_runEnd hqueue hconfig (by simp [runEnd, herr, hcancel])

end Sys2Proof.Machine
end

section
/-! PROOF. What a push beyond the depth of the call stack loses (70_reset_and_hazards.md R383): the counter stays at the
depth, so the pops that follow first answer every slot once, and the next one answers the first of those slots again,
because the pointer is not back at 0 (10_state.md R33). -/

namespace Sys2Proof.Machine.CallStack

variable {w d : Nat} {k : CallStack w d} {v : BitVec w} {ws : List (BitVec w)}

theorem pushAll_sp_val (k : CallStack w d) (vs : List (BitVec w)) :
    (k.pushAll vs).sp.val = (k.sp.val + vs.length) % d := by
  induction vs generalizing k with
  | nil => exact (Nat.mod_eq_of_lt k.sp.isLt).symm
  | cons v vs ih =>
    obtain ⟨-, hsp, -⟩ := push_pushedStack k v
    rw [pushAll, ih, hsp, Nat.mod_add_mod, List.length_cons, Nat.add_right_comm, Nat.add_assoc]

/-- A pop with the pointer above 0 answers the slot below the pointer, whatever the counter says. -/
theorem pop_of_sp_eq_succ {i : Fin d} (hsp : k.sp.val = i.val + 1) : ∃ k', k.pop = some (k.slots[i], k') := by
  cases hpop : k.pop with
  | none =>
    obtain ⟨hzero, -⟩ := pop_eq_none_iff.mp hpop
    omega
  | some p =>
    obtain ⟨x, k'⟩ := p
    obtain ⟨-, -, rfl, -, hsp'⟩ := pop_some hpop
    obtain rfl : k'.sp = i := Fin.ext (by rw [hsp', if_neg (by omega), hsp, Nat.add_sub_cancel])
    exact ⟨k', rfl⟩

/-- One pop more than the stack holds answers the slot `i` below the held ones, unless that is the top slot, where the
pops before have brought the pointer to 0. -/
theorem Holds.popMany_succ {i : Fin d} (h : k.Holds ws) (hbelowTop : i.val + 1 < d)
    (hi : i.val + ws.length + 1 = k.sp.val ∨ i.val + ws.length + 1 = k.sp.val + d) :
    k.popMany (ws.length + 1) = ws ++ [k.slots[i]] := by
  induction ws generalizing k with
  | nil =>
    rw [List.length_nil] at hi
    obtain ⟨k', hpop⟩ := pop_of_sp_eq_succ (k := k) (i := i) (by omega)
    simp only [List.length_nil, CallStack.popMany, hpop, List.nil_append]
  | cons v ws ih =>
    have hlt := k.sp.isLt
    rw [List.length_cons] at hi
    obtain ⟨k', hpop, hk'⟩ := h.pop
    obtain ⟨-, hslots, -, -, hsp⟩ := pop_some hpop
    have hrest := ih hk' (by split at hsp <;> omega)
    rw [hslots] at hrest
    simp only [List.length_cons, CallStack.popMany, hpop, hrest, List.cons_append]

/-- One push beyond the depth covers the oldest address `v₀`: as many pops answer the others, newest first, and then the
newest `v` a second time. The pushes may start anywhere but at the top slot. -/
theorem popMany_pushAll_overflow (k : CallStack w d) (v₀ v : BitVec w) {vs : List (BitVec w)}
    (hstart : k.sp.val + 1 < d) (hlen : vs.length + 1 = d) :
    (k.pushAll (v₀ :: vs ++ [v])).popMany (d + 1) = v :: vs.reverse ++ [v] := by
  have hheld : (k.pushAll (v₀ :: vs ++ [v])).Holds (v :: vs.reverse) := by
    have := (holds_nil (k.push v₀)).pushAll (vs ++ [v]) (by simp [hlen])
    rwa [List.append_nil, List.reverse_concat] at this
  have hsp : (k.pushAll (v₀ :: vs ++ [v])).sp.val = k.sp.val + 1 := by
    have hcount : k.sp.val + (v₀ :: vs ++ [v]).length = k.sp.val + 1 + d := by
      simp only [List.length_append, List.length_cons, List.length_nil]
      omega
    rw [pushAll_sp_val, hcount, Nat.add_mod_right, Nat.mod_eq_of_lt hstart]
  have hnewest : (k.pushAll (v₀ :: vs ++ [v])).slots[k.sp] = v :=
    hheld.slot 0 (Nat.zero_lt_succ _) k.sp (.inl hsp.symm)
  have hdepth : (v :: vs.reverse).length = d := by simp [hlen]
  have hpops := hheld.popMany_succ (i := k.sp) hstart (.inr (by omega))
  rwa [hnewest, hdepth] at hpops

/-- Settles O32: both variants start at slot 0, which is below the top slot of three and of eight. -/
theorem stackOverflowLosesTheOldest : Obligations.StackOverflowLosesTheOldest := by
  refine ⟨fun k v0 v1 v2 v3 hsp => ?variantA, fun k v0 vs v8 hsp hlen => ?variantB⟩
  case variantA => exact popMany_pushAll_overflow k v0 v3 (vs := [v1, v2]) (by omega) rfl
  case variantB => exact popMany_pushAll_overflow k v0 v8 (by omega) (by omega)

end Sys2Proof.Machine.CallStack
end
